-- ==== Sys2Proof/Word.lean ====
section
/-! DEFINITION. The bit-vector types of the block (00_scope.md R6, R10, R12). -/

namespace Sys2Proof

/-- A 32-bit value: a command word, a payload word, a bus datum, `RESULT` (R6, R12). -/
abbrev Word := BitVec 32

/-- One payload byte, and the width of a message length (R10, R5 row `MAX_MSG_LEN`). -/
abbrev Byte := BitVec 8

/-- A station address, `STN_W = 5` bits (R5). -/
abbrev Station := BitVec 5

end Sys2Proof
end

