-- ==== Sys2Proof/Config.lean ====
section
/-! DEFINITION. The configuration of the block: the parameters of 00_scope.md R5 and the register
map of 10_state.md R15. A configuration is plain data; a machine state carries the one it was
built with, and no step changes it (R16). The spec leaves no value open that needs a free
constant: what the device answers is an input of the step (20_memory.md R37). -/

namespace Sys2Proof

/-- `MAX_BURST`, fixed (R5, R16). -/
def maxBurst : Nat := 16
/-- `MAX_MSG_LEN`, fixed (R5, R16). -/
def maxMsgLen : Nat := 255
/-- `AVAIL_MAX`, fixed: the largest value of a 5-bit field (R5, R16). -/
def availMax : Nat := 31
/-- `RXBUF_BYTES`, fixed: `31 x 255` (R5). -/
def rxBufBytes : Nat := 7905

/-- The twelve device registers of one instance (R15, 20_memory.md R40). -/
inductive RegName where
  | txData | txStnFifo | txSizeFifo | rxData | rxStnFifo | rxSizeFifo | mode
  | uparam0 | uparam1 | uparam2 | uparam3 | uparam4
  deriving DecidableEq, Repr

/-- The offsets of R40, in units of the register stride. -/
def RegName.offset : RegName → Nat
  | .txData => 0 | .txStnFifo => 1 | .txSizeFifo => 2 | .rxData => 3 | .rxStnFifo => 4
  | .rxSizeFifo => 5 | .mode => 6 | .uparam0 => 7 | .uparam1 => 8 | .uparam2 => 9
  | .uparam3 => 10 | .uparam4 => 11

/-- One row `REGMAP[i]`: the external addresses of the twelve registers of an instance (R15). -/
structure RegMap where
  txData : Nat
  txStnFifo : Nat
  txSizeFifo : Nat
  rxData : Nat
  rxStnFifo : Nat
  rxSizeFifo : Nat
  mode : Nat
  uparam0 : Nat
  uparam1 : Nat
  uparam2 : Nat
  uparam3 : Nat
  uparam4 : Nat
  deriving DecidableEq, Repr

/-- `REGMAP[i][r]` for one row. -/
def RegMap.addr (m : RegMap) : RegName → Nat
  | .txData => m.txData | .txStnFifo => m.txStnFifo | .txSizeFifo => m.txSizeFifo
  | .rxData => m.rxData | .rxStnFifo => m.rxStnFifo | .rxSizeFifo => m.rxSizeFifo
  | .mode => m.mode | .uparam0 => m.uparam0 | .uparam1 => m.uparam1 | .uparam2 => m.uparam2
  | .uparam3 => m.uparam3 | .uparam4 => m.uparam4

/-- The twelve addresses of a row, in offset order. -/
def RegMap.addrs (m : RegMap) : List Nat :=
  [m.txData, m.txStnFifo, m.txSizeFifo, m.rxData, m.rxStnFifo, m.rxSizeFifo, m.mode,
   m.uparam0, m.uparam1, m.uparam2, m.uparam3, m.uparam4]

/-- The row that the base and stride relation of R40 gives instance `i`. The relation is a premise
on a configuration, not a rule of the block: the block uses the table as given. -/
def RegMap.ofFormula (base instanceStride regStride i : Nat) : RegMap :=
  let a (r : RegName) : Nat := base + i * instanceStride + r.offset * regStride
  { txData := a .txData, txStnFifo := a .txStnFifo, txSizeFifo := a .txSizeFifo
    rxData := a .rxData, rxStnFifo := a .rxStnFifo, rxSizeFifo := a .rxSizeFifo, mode := a .mode
    uparam0 := a .uparam0, uparam1 := a .uparam1, uparam2 := a .uparam2, uparam3 := a .uparam3
    uparam4 := a .uparam4 }

/-- The two register layouts the source reports; only the first has offsets (R42). -/
inductive Layout where
  | twelveRegisters
  | tenRegisters
  deriving DecidableEq, Repr

/-- `UPARAM_PACK_FORM` (R44). -/
inductive PackForm where
  | orForm
  | andForm
  deriving DecidableEq, Repr

/-- The ten logical setup values of R44. -/
inductive UparamName where
  | mod | ma | maMax | tMcyc | tCyc | byte | dev | maxRtry | c2mCh | wdt
  deriving DecidableEq, Repr

/-- One user-parameter register's pairing: the name in its upper and the name in its lower half. -/
structure UparamPair where
  hi : UparamName
  lo : UparamName
  deriving DecidableEq, Repr

/-- The host-readable elements of the block (R31). -/
inductive HostReg where
  | status
  | result
  | count
  | qlen (i : Nat)
  | rxlen (j : Nat)
  | rxstn (j : Nat)
  | rxbuf (k : Nat)
  deriving DecidableEq, Repr

/-- What a host-side address names: the command port or a block register (R5 row `HOST_MAP`). -/
inductive HostLoc where
  | commandPort
  | reg (r : HostReg)
  deriving DecidableEq, Repr

/-- The nine kinds of the closed set of result codes (43_error_classifier.md R121). -/
inductive ErrorKind where
  | notFound | memoryExhausted | registerIO | txSendCountFifo | rxFifo
  | rxPacketSizeZero | rxArraySize | bufferParsing | invalidArgument
  deriving DecidableEq, Repr

/-- The parameters of R5 and the table of R15. -/
structure Config where
  /-- `NI`, the number of instances. -/
  ni : Nat
  /-- `QCAP`, the Write Queue capacity of an instance. -/
  qcap : Nat
  /-- `ADDR_W`, the width of an external register address in bits. -/
  addrW : Nat
  /-- Which layout discovery declares (R42). -/
  layout : Layout
  /-- `REGMAP`, one row an instance. -/
  regmap : List RegMap
  errNotFound : Int
  errNoMemory : Int
  errRegisterIO : Int
  errInvalidArgument : Int
  errBufferParsing : Int
  /-- `HOST_MAP`: host-side address and what it names (open, no default). -/
  hostMap : List (Nat × HostLoc)
  /-- `UPARAM_PACK_FORM`. -/
  uparamPackForm : PackForm
  /-- `UPARAM_PAIRING`, one pair a register (open, no default). -/
  uparamPairing : Option (Vector UparamPair 5)
  deriving DecidableEq, Repr

/-- The defaults of R5, with the register map of the common test configuration
(95_test_vectors.md section 0). DESIGN CHOICE (log 2): R5 gives `REGMAP` no default. -/
def Config.default : Config :=
  { ni := 1, qcap := 16, addrW := 32, layout := .twelveRegisters
    regmap := [RegMap.ofFormula 0x1000 0x40 4 0]
    errNotFound := -2, errNoMemory := -12, errRegisterIO := -5, errInvalidArgument := -22
    errBufferParsing := -74
    hostMap := [], uparamPackForm := .orForm, uparamPairing := none }

end Sys2Proof
end

