-- ==== Sys2Proof/Machine/State.lean ====
section
/-! DEFINITION. The state of the block (10_state.md), the inputs its steps read (the words at the
command port, the device's answers), the event history (20_memory.md R38), and the reset state (R34).
Plain data throughout. -/

namespace Sys2Proof.Machine

open Sys2Proof

/-- `fsm` (R18). -/
inductive Fsm where
  | idle | txData | txSize | txStn | txMode | rxMode | rxSize | rxStn | rxData
  deriving DecidableEq, Repr

/-- The response to a bus transaction (R36). Any value may come (R37). -/
inductive Response where
  /-- `Ok(d)`; for a write `d` is ignored (R8). -/
  | ok (d : Word)
  /-- `Fail`. -/
  | fail
  deriving DecidableEq, Repr

/-- The kind of a transaction, in an event record (R38). -/
inductive BusKind where
  | read
  | write
  deriving DecidableEq, Repr

/-- A bus request at a named register of the running command's instance (R35, R36). -/
inductive BusOp where
  | read (r : RegName)
  | write (r : RegName) (v : Word)
  deriving DecidableEq, Repr

/-- A request on the register bus (R36). -/
structure BusReq where
  kind : BusKind
  addr : Nat
  /-- The written data of a write. -/
  data : Option Word
  deriving DecidableEq, Repr

/-- A record `(kind, addr, value, response)` of the event history (R38). `value` is the written data
of a write and the returned data of a read; a failed read returns none. `response` is none only for a
request that a reset dropped and the device has not answered (DESIGN CHOICE, log 7). -/
structure Event where
  kind : BusKind
  addr : Nat
  value : Option Word
  response : Option Response
  deriving DecidableEq, Repr

/-- An entry `QE[i][k]` (R23). `data` holds the bytes of `DATA` written since reset, from index 0; an
index past the list holds no value. -/
structure QEntry where
  len : Byte
  stn : Station
  data : List Byte
  deriving DecidableEq, Repr

/-- The Write Queue of one instance (R23). `entries` holds the entries written since reset, from index
0, the stale ones at `k >= QLEN` included; an index past the list holds no value. -/
structure WriteQueue where
  qlen : Byte
  entries : List QEntry
  deriving DecidableEq, Repr

/-- Byte storage of the block: `RXBUF` (R27). Addresses strictly rise; an address that is not listed
holds no value, which is what R34 gives every entry at reset. -/
abbrev Memory := List Host.Cell

/-- Why a step or a host read stops (log 5). -/
inductive Fault where
  /-- Raised by FLUSH's acceptance and by a transmit step that would read a queue entry holding no value.
  R24: the block never reads one, so no state the machine can reach raises it. Safe. -/
  | queueEntryNoValue
  /-- Raised by a command or a step whose instance is below `NI` but has no queue or register map; no
  state the machine can reach raises it. Safe. -/
  | noSuchInstance
  /-- Raised by `RX_DATA` when a byte would land outside `RXBUF[0..7904]`. R103: never. Safe. -/
  | rxBufOutOfRange
  /-- Raised by `RX_DATA` when a message would be recorded outside `RXLEN[0..30]`. R103: never. Safe. -/
  | rxEntryOutOfRange
  /-- Raised by a host read of an element that holds no value, stale receive output included (R31, R148,
  I23). Safe. -/
  | hostReadNoValue
  /-- Raised by a host read of anything but `STATUS` while `BUSY` is 1: a breach of the host's duty to wait
  has no move (R142, I24). Safe. -/
  | hostReadWhileBusy
  /-- Raised by a host read of an index that no element has (R31). Safe. -/
  | hostNoSuchElement
  /-- Raised by a host access to an address that `HOST_MAP` gives nothing (R31). Safe. -/
  | hostAddressUnmapped
  /-- Raised by a host write to a block register: the host changes block state only by issuing commands
  (R31). Safe. -/
  | hostNotWritable
  deriving DecidableEq, Repr

/-- Why a configuration is not accepted, or an instruction has no meaning. -/
inductive Refusal where
  /-- Raised by an arm of exec whose instruction has no meaning yet; none at present. Safe. -/
  | notModelled (mnemonic : String)
  /-- Raised by `configure` for the layout without offsets (R42). Safe. -/
  | tenRegisterLayout
  /-- Raised by `configure` when two addresses of the register map coincide (R41). Safe. -/
  | addressesNotDistinct
  /-- Raised by `configure` when a parameter is outside the range of R5 or R15. Safe. -/
  | parameterOutOfRange
  deriving DecidableEq, Repr

/-- The state. Its second part is the model's own: the words the host has sent and the block has not
taken, the answers the device has given and the block has not used, and what the bus has carried. -/
structure State where
  /-- The configuration, fixed (R15, R16). -/
  cfg : Config
  /-- `fsm` (R18). -/
  fsm : Fsm
  /-- `CUR_INST` (R19). -/
  curInst : BitVec 4
  /-- `STATUS.CALLER_ERR` (R20); `STATUS` is `State.status`. -/
  callerErr : Bool
  /-- `RESULT` (R21). -/
  result : Word
  /-- `COUNT` (R22). -/
  count : Byte
  /-- `QLEN[i]` and `QE[i][.]`, one queue an instance (R23). -/
  queues : List WriteQueue
  /-- `TX_N` (R25). -/
  txN : BitVec 5
  /-- `TX_M` (R25). -/
  txM : BitVec 5
  /-- `TX_W` (R25). -/
  txW : BitVec 7
  /-- `TX_SENT` (R25). -/
  txSent : Byte
  /-- `TX_TOT` (R25). -/
  txTot : Word
  /-- `RX_CAP` (R26). -/
  rxCap : BitVec 16
  /-- `RX_AVAIL` (R26). -/
  rxAvail : BitVec 5
  /-- `RX_J` (R26). -/
  rxJ : BitVec 5
  /-- `RX_LEN` (R26). -/
  rxLen : Byte
  /-- `RX_STN` (R26). -/
  rxStn : Station
  /-- `RX_W` (R26). -/
  rxW : BitVec 7
  /-- `RX_ACC` (R26). -/
  rxAcc : Word
  /-- `RX_CNT` (R26). -/
  rxCnt : Byte
  /-- `RXLEN[0..30]` (R27); none is "holds no value". -/
  outLen : Vector (Option Byte) 31
  /-- `RXSTN[0..30]` (R27); none is "holds no value". -/
  outStn : Vector (Option Station) 31
  /-- `RXBUF[0..7904]` (R27). -/
  rxBuf : Memory
  /-- The command port: words sent and not yet taken, first sent first (R58, R70). -/
  port : List Word
  /-- The device's answers not yet used, first given first (R37). -/
  responses : List Response
  /-- The request that waits for its answer (R36, R39). -/
  outstanding : Option BusReq
  /-- The event history, in issue order (R38). -/
  history : List Event
  deriving DecidableEq, Repr

/-- What a step answers. -/
abbrev StepResult := Host.Outcome State Fault Refusal

/-- The reset state of a machine with configuration `c` (R34, R143). The zeros of the working registers
are the model's (DESIGN CHOICE, log 1): R34 says they hold no value, and every one is written before it is read. -/
def State.resetWith (c : Config) : State :=
  { cfg := c
    fsm := .idle, curInst := 0, callerErr := false, result := 0, count := 0
    queues := List.replicate c.ni { qlen := 0, entries := [] }
    txN := 0, txM := 0, txW := 0, txSent := 0, txTot := 0
    rxCap := 0, rxAvail := 0, rxJ := 0, rxLen := 0, rxStn := 0, rxW := 0, rxAcc := 0, rxCnt := 0
    outLen := Vector.replicate 31 none, outStn := Vector.replicate 31 none, rxBuf := []
    port := [], responses := [], outstanding := none, history := [] }

/-- The machine right after reset, in the default configuration (R34, R5). -/
def State.reset : State := State.resetWith Config.default

end Sys2Proof.Machine
end

