-- ==== Sys2Proof/Machine/Flags.lean ====
section
/-! DEFINITION. The `STATUS` register (10_state.md R20) and the Error Classifier
(43_error_classifier.md R114 to R124): decoders of device words, the header check, result codes. -/

namespace Sys2Proof.Machine

open Sys2Proof

/-- `STATUS.BUSY` (R20): 1 exactly when `fsm != IDLE`. -/
def State.busy (s : State) : Bool := s.fsm != .idle

/-- `STATUS` (R20): `BUSY` in bit 0, `CALLER_ERR` in bit 1, bits 31:2 hardwired to zero. -/
def State.status (s : State) : Word :=
  (BitVec.ofBool s.busy).setWidth 32 ||| ((BitVec.ofBool s.callerErr).setWidth 32 <<< 1)

/-- `tx_fifo_error(d) = d[4]` (R115). -/
def txFifoError (d : Word) : Bool := d.getLsbD 4

/-- `rx_avail(d) = d[20:16]` (R116). -/
def rxAvailOf (d : Word) : BitVec 5 := d.extractLsb' 16 5

/-- `rx_len(d) = d[7:0]` (R118). -/
def rxLenOf (d : Word) : Byte := d.extractLsb' 0 8

/-- `rx_pkt_flags(d) = d[11:9]` (R118): named by the spec, read by no rule. -/
def rxPktFlags (d : Word) : BitVec 3 := d.extractLsb' 9 3

/-- `rx_stn(d) = d[4:0]` (R119). -/
def rxStnOf (d : Word) : Station := d.extractLsb' 0 5

/-- The outcomes of `rx_check` (R120). -/
inductive RxCheck where
  | zero | overcap | ok
  deriving DecidableEq, Repr

/-- `rx_check(len, acc, cap)` (R120): exact sum, unsigned compare, zero first. -/
def rxCheck (len acc cap : Nat) : RxCheck :=
  if len = 0 then .zero else if cap < acc + len then .overcap else .ok

/-- The number of a result code (R121). -/
def resultCode (c : Config) : ErrorKind → Int
  | .notFound => c.errNotFound
  | .memoryExhausted => c.errNoMemory
  | .registerIO => c.errRegisterIO
  | .txSendCountFifo => -214
  | .rxFifo => -114
  | .rxPacketSizeZero => -1120
  | .rxArraySize => -1140
  | .bufferParsing => c.errBufferParsing
  | .invalidArgument => c.errInvalidArgument

/-- The conditions a command can meet (R124). -/
inductive Condition where
  | illegalWord
  | instanceUnresolved
  | queueFull
  | busFail
  | modeWord (d : Word)
  | rxHeader (r : RxCheck)
  deriving DecidableEq, Repr

/-- `classify` (R124): the error a condition is, none where the command goes on. -/
def classify : Condition → Option ErrorKind
  | .illegalWord => some .invalidArgument
  | .instanceUnresolved => some .notFound
  | .queueFull => some .invalidArgument
  | .busFail => some .registerIO
  | .modeWord d => if txFifoError d then some .txSendCountFifo else none
  | .rxHeader .zero => some .rxPacketSizeZero
  | .rxHeader .overcap => some .rxArraySize
  | .rxHeader .ok => none

end Sys2Proof.Machine
end

