-- ==== Sys2Proof/Machine/Operands.lean ====
section
/-! DEFINITION. Operand forms: field extraction, the little-endian composition and splitting of
words, and the packing of payload bytes into data words and back (00_scope.md R10, R11; 20_memory.md
R44, R47; 30_encoding.md R59, R62; 40_transmit_packetizer.md R76; 41_receive_deframer.md R92). -/

namespace Sys2Proof.Machine

open Sys2Proof

/-- `nwords(L)` (R11): data-port transactions for a message of `L` bytes. -/
def nwords (len : Nat) : Nat := len / 4 + (if len % 4 ≠ 0 then 1 else 0)

/-- `byte(v, k)` (R10): byte `k` of a word, byte 0 the least significant. -/
def byteOf (v : Word) (k : Nat) : Byte := v.extractLsb' (8 * k) 8

/-- `le32` (R10). -/
def le32 (b0 b1 b2 b3 : Byte) : Word :=
  b0.setWidth 32 ||| (b1.setWidth 32 <<< 8) ||| (b2.setWidth 32 <<< 16) ||| (b3.setWidth 32 <<< 24)

/-- An integer as a two's complement `i32` register value (R12). -/
def i32 (z : Int) : Word := BitVec.ofInt 32 z

/-- `txword` (R76): data word `w` of a message of `len` bytes whose bytes are `b`. The partial last
word is zero above its `len mod 4` bytes. -/
def txWord (b : List Byte) (len w : Nat) : Word :=
  let at4 (j : Nat) : Byte := b.getD (4 * w + j) 0
  if 4 * w + 4 ≤ len then
    le32 (at4 0) (at4 1) (at4 2) (at4 3)
  else
    (at4 0).setWidth 32
      ||| (if 2 ≤ len % 4 then (at4 1).setWidth 32 <<< 8 else 0)
      ||| (if len % 4 = 3 then (at4 2).setWidth 32 <<< 16 else 0)

/-- All data words of a message, in the order FLUSH writes them (R86). -/
def txWords (b : List Byte) (len : Nat) : List Word := (List.range (nwords len)).map (txWord b len)

/-- The bytes a data word carries (R92): the low `min(4, L - 4w)` bytes; the rest are ignored. -/
def unpackWord (d : Word) (len w : Nat) : List Byte :=
  (List.range (min 4 (len - 4 * w))).map (byteOf d)

/-- Unpacking the data words `ds` of a message of `len` bytes, from word `w` on (R92). -/
def unpackFrom (len : Nat) : Nat → List Word → List Byte
  | _, [] => []
  | w, d :: ds => unpackWord d len w ++ unpackFrom len (w + 1) ds

/-- The message bytes of an ENQUEUE's payload (R62): byte `t` is byte `t mod 4` of word `t / 4`. -/
def payloadBytes (len : Nat) (payload : List Word) : List Byte :=
  (List.range len).map fun t => byteOf (payload.getD (t / 4) 0) (t % 4)

/-- `pack_param` (R44), the OR form. -/
def packParamOr (hi lo : Word) : Word :=
  ((hi.extractLsb' 0 16).setWidth 32 <<< 16) ||| (lo.extractLsb' 0 16).setWidth 32

/-- `AND_form` (R44), the firmware-compatible alternative. -/
def packParamAnd (a b : Word) : Word := a &&& (b <<< 16)

end Sys2Proof.Machine
end

