-- ==== Sys2Proof/Machine/Ops.lean ====
section
/-! DEFINITION. The operations every command and step is written from: byte storage, the Write Queue,
completion, rejection at acceptance, the abort (the block's one exception, 60_exceptions.md R126), and
one bus transaction (20_memory.md R36). -/

namespace Sys2Proof.Machine

open Sys2Proof

/-! ### Byte storage -/

/-- The byte at an address; none where it holds no value. -/
def Memory.read : Memory → Nat → Option Byte
  | [], _ => none
  | (b, v) :: m, a => if a = b then some v else Memory.read m a

/-- Writing one byte, keeping the addresses strictly rising. -/
def Memory.write : Memory → Nat → Byte → Memory
  | [], a, v => [(a, v)]
  | (b, x) :: m, a, v =>
    if a < b then (a, v) :: (b, x) :: m
    else if a = b then (a, v) :: m
    else (b, x) :: Memory.write m a v

/-- Writing bytes at rising addresses from `a`. -/
def Memory.writeBytes : Memory → Nat → List Byte → Memory
  | m, _, [] => m
  | m, a, v :: vs => Memory.writeBytes (Memory.write m a v) (a + 1) vs

/-- Every address of the memory is at least `a`, and they strictly rise. -/
def Memory.risingFrom : Memory → Nat → Bool
  | [], _ => true
  | (b, _) :: m, a => a ≤ b && Memory.risingFrom m (b + 1)

/-- The canonical form of `RXBUF`: strictly rising addresses below `RXBUF_BYTES` (R27, R5). -/
def Memory.wf (m : Memory) : Bool := Memory.risingFrom m 0 && m.all fun c => c.1 < rxBufBytes

/-! ### The Write Queue -/

/-- An entry holds a value when each of its `LEN` meaningful bytes does (R23, R24). -/
def QEntry.holds (e : QEntry) : Bool := e.len.toNat ≤ e.data.length

/-- `QE[i][k]`; none where it holds no value. -/
def WriteQueue.entry? (q : WriteQueue) (k : Nat) : Option QEntry :=
  match q.entries[k]? with
  | some e => if e.holds then some e else none
  | none => none

/-- Writing `LEN`, `STN` and `DATA[0..LEN-1]` of entry `QE[i][k]`, `k = QLEN`, and advancing `QLEN`
(42_write_queue.md R108). Bytes of `DATA` at `LEN` and above keep what they held (DEDUCED,
log 13). -/
def WriteQueue.push (q : WriteQueue) (len : Byte) (stn : Station) (bytes : List Byte) : WriteQueue :=
  let k := q.qlen.toNat
  let old := match q.entries[k]? with
    | some e => e.data
    | none => []
  let e : QEntry := { len := len, stn := stn, data := bytes ++ old.drop bytes.length }
  { qlen := BitVec.ofNat 8 (k + 1), entries := q.entries.take k ++ e :: q.entries.drop (k + 1) }

/-- `QLEN[i] <- 0`; the entries keep what they hold (R84, R85). -/
def State.emptyQueue (s : State) (i : Nat) : State :=
  { s with queues := s.queues.modify i fun q => { q with qlen := 0 } }

/-- The queue of the running command's instance. -/
def State.curQueue (s : State) : WriteQueue := s.queues.getD s.curInst.toNat { qlen := 0, entries := [] }

/-- `QE[CUR_INST][TX_M]`, the entry being sent (R25). -/
def State.txEntry (s : State) : Option QEntry := s.curQueue.entry? s.txM.toNat

/-! ### Completion, rejection, abort -/

/-- Successful completion of a running command (R84, R100, R134). -/
def State.complete (s : State) (result : Word) (count : Byte) : State :=
  { s with result := result, count := count, fsm := .idle }

/-- Rejection at acceptance (30_encoding.md R68, R128, 42_write_queue.md R109): `RESULT`, `COUNT` and
`STATUS.CALLER_ERR` are its only writes. -/
def State.reject (s : State) (k : ErrorKind) : State :=
  { s with result := i32 (resultCode s.cfg k), count := 0, callerErr := true }

/-- The states of a running FLUSH (R18). -/
def Fsm.isTx : Fsm → Bool
  | .txData | .txSize | .txStn | .txMode => true
  | .idle | .rxMode | .rxSize | .rxStn | .rxData => false

/-- The states of a running RECEIVE (R18). -/
def Fsm.isRx : Fsm → Bool
  | .rxMode | .rxSize | .rxStn | .rxData => true
  | .idle | .txData | .txSize | .txStn | .txMode => false

/-- The abort procedure (R126): `RESULT` holds the code, `COUNT` the partial count, a FLUSH empties its
queue, and the block is `IDLE`. Nothing else is written. There is no return from it (R132). -/
def State.abort (s : State) (k : ErrorKind) : State :=
  if s.fsm.isTx then
    { s.emptyQueue s.curInst.toNat with
      result := i32 (resultCode s.cfg k), count := s.txSent, fsm := .idle }
  else
    { s with result := i32 (resultCode s.cfg k), count := s.rxCnt, fsm := .idle }

/-! ### Instances and the bus -/

/-- The last acceptance check that all commands share, then the action (R71 item 3, R128). -/
def withInstance (s : State) (inst : BitVec 4) (act : WriteQueue → StepResult) : StepResult :=
  if s.cfg.ni ≤ inst.toNat then .next (s.reject .notFound)
  else match s.queues[inst.toNat]? with
    | none => .fault .noSuchInstance
    | some q => act q

/-- The request a bus operation makes at an instance's register map (R35, R40). -/
def BusOp.request (m : RegMap) : BusOp → BusReq
  | .read r => { kind := .read, addr := m.addr r, data := none }
  | .write r v => { kind := .write, addr := m.addr r, data := some v }

/-- The record of a request and its response (R38; a failed read has no value: DEDUCED, log 9). -/
def BusReq.event (q : BusReq) (r : Response) : Event :=
  { kind := q.kind, addr := q.addr, response := some r
    value := match q.kind, r with
      | .write, _ => q.data
      | .read, .ok d => some d
      | .read, .fail => none }

/-- The record of a request that a reset drops before its response has come (R38, R143; DESIGN CHOICE, log
7). -/
def BusReq.unanswered (q : BusReq) : Event :=
  { kind := q.kind, addr := q.addr, value := q.data, response := none }

/-- A record with a response that comes late put in; one that holds a response keeps it. -/
def Event.late (e : Event) (r : Response) : Event :=
  match e.response with
  | some _ => e
  | none => BusReq.event { kind := e.kind, addr := e.addr, data := e.value } r

/-- The state with a transaction done: its answer used and its record appended (R36, R38). -/
def State.answered (s : State) (q : BusReq) (r : Response) (rest : List Response) : State :=
  { s with responses := rest, outstanding := none, history := s.history ++ [q.event r] }

/-- One bus transaction (R36): issue, await, update. Without an answer the block stays where it is with
the request outstanding (R39; DESIGN CHOICE, log 4). A `Fail` aborts (R79 to R82, R95 to R98); `Ok(d)` goes on. -/
def busStep (s : State) (op : BusOp) (onOk : Word → State → StepResult) : StepResult :=
  match s.cfg.regmap[s.curInst.toNat]? with
  | none => .fault .noSuchInstance
  | some m =>
    match s.responses with
    | [] => .next { s with outstanding := some (op.request m) }
    | .fail :: rest => .next ((s.answered (op.request m) .fail rest).abort .registerIO)
    | .ok d :: rest => onOk d (s.answered (op.request m) (.ok d) rest)

end Sys2Proof.Machine
end

