-- ==== Sys2Proof/Machine/Enqueue.lean ====
section
/-! DEFINITION. ENQUEUE (42_write_queue.md R108, R109). -/

namespace Sys2Proof.Machine

open Sys2Proof

/-- ENQUEUE: the acceptance checks 3 and 4 of R71, then R108. It completes in its acceptance step. -/
def execEnq (inst : BitVec 4) (len : Byte) (stn : Station) (payload : List Word) (s : State) : StepResult :=
  withInstance s inst fun q =>
    if q.qlen.toNat = s.cfg.qcap then .next (s.reject .invalidArgument)
    else .next { s with
      queues := s.queues.set inst.toNat (q.push len stn (payloadBytes len.toNat payload))
      result := 0
      count := BitVec.ofNat 8 (q.qlen.toNat + 1) }

end Sys2Proof.Machine
end

