-- ==== Sys2Proof/Machine/Receive.lean ====
section
/-! DEFINITION. RECEIVE: its acceptance action and the four receive states
(41_receive_deframer.md R91 to R101). Sums are exact and then narrowed to the register (DEDUCED, log 10);
the remainder check of R93 is left out, as R93 allows (log 14). -/

namespace Sys2Proof.Machine

open Sys2Proof

/-- RECEIVE: acceptance check 3 of R71, then R94. -/
def execRecv (inst : BitVec 4) (maxMsg : Byte) (maxLen : Byte) (s : State) : StepResult :=
  withInstance s inst fun _ =>
    .next { s with
      curInst := inst
      rxCap := BitVec.ofNat 16 (maxMsg.toNat * maxLen.toNat)
      rxAcc := 0
      rxCnt := 0
      rxJ := 0
      fsm := .rxMode }

/-- Successful completion of a RECEIVE (R100). -/
def State.recvDone (s : State) : State := s.complete s.rxAcc s.rxCnt

/-- State `RX_MODE` (R95). -/
def stepRxMode (s : State) : StepResult :=
  busStep s (.read .mode) fun d s1 =>
    let s2 := { s1 with rxAvail := rxAvailOf d }
    if rxAvailOf d = 0 then .next s2.recvDone else .next { s2 with fsm := .rxSize }

/-- State `RX_SIZE` (R96). -/
def stepRxSize (s : State) : StepResult :=
  busStep s (.read .rxSizeFifo) fun d s1 => .next { s1 with rxLen := rxLenOf d, fsm := .rxStn }

/-- State `RX_STN` (R97): the zero check, then the capacity check. -/
def stepRxStn (s : State) : StepResult :=
  busStep s (.read .rxStnFifo) fun d s1 =>
    let s2 := { s1 with rxStn := rxStnOf d }
    match classify (.rxHeader (rxCheck s.rxLen.toNat s.rxAcc.toNat s.rxCap.toNat)) with
    | some k => .next (s2.abort k)
    | none => .next { s2 with rxW := 0, fsm := .rxData }

/-- Message completion (R99). The counts are the values after the step. -/
def State.rxRecord (s : State) : StepResult :=
  if s.rxJ.toNat < 31 then
    let j' := s.rxJ.toNat + 1
    let s1 := { s with
      outLen := s.outLen.setIfInBounds s.rxJ.toNat (some s.rxLen)
      outStn := s.outStn.setIfInBounds s.rxJ.toNat (some s.rxStn)
      rxAcc := BitVec.ofNat 32 (s.rxAcc.toNat + s.rxLen.toNat)
      rxCnt := BitVec.ofNat 8 (s.rxCnt.toNat + 1)
      rxJ := BitVec.ofNat 5 j' }
    if j' = s.rxAvail.toNat then .next s1.recvDone else .next { s1 with fsm := .rxSize }
  else .fault .rxEntryOutOfRange

/-- State `RX_DATA` (R98): the bytes go to `RXBUF` as the word is read. -/
def stepRxData (s : State) : StepResult :=
  busStep s (.read .rxData) fun d s1 =>
    let at0 := s.rxAcc.toNat + 4 * s.rxW.toNat
    let bytes := unpackWord d s.rxLen.toNat s.rxW.toNat
    let w' := s.rxW.toNat + 1
    if rxBufBytes < at0 + bytes.length then .fault .rxBufOutOfRange
    else
      let s2 := { s1 with rxBuf := s1.rxBuf.writeBytes at0 bytes, rxW := BitVec.ofNat 7 w' }
      if w' = nwords s.rxLen.toNat then s2.rxRecord else .next s2

end Sys2Proof.Machine
end

