-- ==== Sys2Proof/Machine/Transmit.lean ====
section
/-! DEFINITION. FLUSH: its acceptance action and the four transmit states
(40_transmit_packetizer.md R75 to R85). Sums are exact and then narrowed to the register (DEDUCED, log 10);
the remainder check of R77 is left out, as R77 allows (log 14). -/

namespace Sys2Proof.Machine

open Sys2Proof

/-- The clamp of R78: `min(QLEN, BURST, 16)`. -/
def flushCount (q : WriteQueue) (burst : Byte) : Nat := min (min q.qlen.toNat burst.toNat) maxBurst

/-- The first state of a message (R78, R83): a message of no data words starts with its size. -/
def txStart (len : Byte) : Fsm := if 0 < nwords len.toNat then .txData else .txSize

/-- The registers FLUSH writes at acceptance (R78). -/
def State.flushInit (s : State) (inst : BitVec 4) (n : Nat) : State :=
  { s with curInst := inst, txN := BitVec.ofNat 5 n, txM := 0, txW := 0, txSent := 0, txTot := 0 }

/-- Successful completion of a FLUSH (R84). -/
def State.flushDone (s : State) : State :=
  (s.emptyQueue s.curInst.toNat).complete s.txTot s.txSent

/-- FLUSH: acceptance check 3 of R71, then R78. -/
def execFlush (inst : BitVec 4) (burst : Byte) (s : State) : StepResult :=
  withInstance s inst fun q =>
    let n := flushCount q burst
    let s1 := s.flushInit inst n
    if n = 0 then .next s1.flushDone
    else match q.entry? 0 with
      | none => .fault .queueEntryNoValue
      | some e => .next { s1 with fsm := txStart e.len }

/-- State `TX_DATA` (R79). -/
def stepTxData (s : State) : StepResult :=
  match s.txEntry with
  | none => .fault .queueEntryNoValue
  | some e =>
    busStep s (.write .txData (txWord e.data e.len.toNat s.txW.toNat)) fun _ s1 =>
      let w' := s.txW.toNat + 1
      .next { s1 with
        txW := BitVec.ofNat 7 w'
        fsm := if w' = nwords e.len.toNat then .txSize else .txData }

/-- State `TX_SIZE` (R80). -/
def stepTxSize (s : State) : StepResult :=
  match s.txEntry with
  | none => .fault .queueEntryNoValue
  | some e => busStep s (.write .txSizeFifo (e.len.setWidth 32)) fun _ s1 => .next { s1 with fsm := .txStn }

/-- State `TX_STN` (R81). -/
def stepTxStn (s : State) : StepResult :=
  match s.txEntry with
  | none => .fault .queueEntryNoValue
  | some e => busStep s (.write .txStnFifo (e.stn.setWidth 32)) fun _ s1 => .next { s1 with fsm := .txMode }

/-- The advance to the next message (R83), with the counts of R82 already taken. -/
def State.txAdvance (s : State) : StepResult :=
  let m' := s.txM.toNat + 1
  let s1 := { s with txM := BitVec.ofNat 5 m', txW := 0 }
  if m' = s.txN.toNat then .next s1.flushDone
  else match s.curQueue.entry? m' with
    | none => .fault .queueEntryNoValue
    | some e => .next { s1 with fsm := txStart e.len }

/-- State `TX_MODE` (R82, R83). -/
def stepTxMode (s : State) : StepResult :=
  match s.txEntry with
  | none => .fault .queueEntryNoValue
  | some e => busStep s (.read .mode) fun d s1 =>
    match classify (.modeWord d) with
    | some k => .next (s1.abort k)
    | none => State.txAdvance { s1 with
        txSent := BitVec.ofNat 8 (s1.txSent.toNat + 1)
        txTot := BitVec.ofNat 32 (s1.txTot.toNat + e.len.toNat) }

end Sys2Proof.Machine
end

