-- ==== Sys2Proof/Syntax.lean ====
section
/-! DEFINITION. The commands of 30_encoding.md, one constructor per row of the opcode table, and the
assembly lines of R72 and R73. -/

namespace Sys2Proof

/-- A legal command (R60). The payload of an ENQUEUE is kept as the words the host sent, padding
bytes of the last word included, so that no bit of an encoding is lost. -/
inductive Instr where
  /-- ENQUEUE (R61, R62): `INST`, `LEN`, `STN` and the `nwords(LEN)` payload words. -/
  | enq (inst : BitVec 4) (len : Byte) (stn : Station) (payload : List Word)
  /-- FLUSH (R63): `INST`, `BURST`. -/
  | flush (inst : BitVec 4) (burst : Byte)
  /-- RECEIVE (R64): `INST`, `MAXMSG`, `MAXLEN`. -/
  | recv (inst : BitVec 4) (maxMsg : Byte) (maxLen : Byte)
  deriving DecidableEq, Repr

/-- Field `INST` of a command (R59). -/
def Instr.inst : Instr → BitVec 4
  | .enq inst _ _ _ => inst
  | .flush inst _ => inst
  | .recv inst _ _ => inst

/-- A line of the spec's assembly syntax (R72), and the one pseudo-instruction (R73). Operands are
numbers of any size; one out of its field's range does not assemble. -/
inductive AsmLine where
  | enq (inst stn : Nat) (bytes : List Nat)
  | flush (inst burst : Nat)
  | recv (inst maxMsg maxLen : Nat)
  | word (w : Nat)
  | cycle (inst burst maxMsg maxLen : Nat)
  deriving DecidableEq, Repr

end Sys2Proof
end

