-- ==== Sys2Proof/Machine/Dispatch.lean ====
section
/-! DEFINITION. One arm per command (30_encoding.md R70): its acceptance step. -/

namespace Sys2Proof.Machine

open Sys2Proof

def exec (i : Instr) (s : State) : Host.Outcome State Fault Refusal :=
  match i with
  | .enq inst len stn payload => Sys2Proof.Machine.execEnq inst len stn payload s
  | .flush inst burst => Sys2Proof.Machine.execFlush inst burst s
  | .recv inst maxMsg maxLen => Sys2Proof.Machine.execRecv inst maxMsg maxLen s

end Sys2Proof.Machine
end

