-- ==== Sys2Proof/WellFormed.lean ====
section
/-! DEFINITION. Which terms of `Instr` stand for a command: an ENQUEUE carries exactly `nwords(LEN)`
payload words (30_encoding.md R61, R65). Field widths are in the types. -/

namespace Sys2Proof

/-- R61: "Exactly `nwords(LEN)` payload words follow". FLUSH and RECEIVE have no payload field. -/
def Instr.wellFormed : Instr → Bool
  | .enq _ len _ payload => payload.length == Machine.nwords len.toNat
  | .flush _ _ => true
  | .recv _ _ _ => true

end Sys2Proof
end

