-- ==== Sys2Proof/Decode.lean ====
section
/-! DEFINITION. The decoder of the command stream (30_encoding.md R58 to R71), total on any word list;
after it the encoder, the table-word entry of the host, and the assembler of R72 and R73. -/

namespace Sys2Proof

open Sys2Proof.Machine (nwords le32)

/-- A row of R60's opcode map with the match and mask of R61, R63, R64. -/
structure OpRow where
  op : BitVec 4
  mask : Word
  pattern : Word
  deriving DecidableEq, Repr

/-- The three legal opcodes (R60, R61, R63, R64). -/
def opRows : List OpRow :=
  [⟨0x1, 0xFFE0000F, 0x00000001⟩, ⟨0x2, 0xFFFF000F, 0x00000002⟩, ⟨0x3, 0xFF00000F, 0x00000003⟩]

/-- Field `OP` (R59). -/
def fieldOp (w : Word) : BitVec 4 := w.extractLsb' 0 4
/-- Field `INST` (R59). -/
def fieldInst (w : Word) : BitVec 4 := w.extractLsb' 4 4
/-- Field `A` (R59). -/
def fieldA (w : Word) : Byte := w.extractLsb' 8 8
/-- Field `B` (R59). -/
def fieldB (w : Word) : Byte := w.extractLsb' 16 8
/-- Field `B[4:0]`, the station of an ENQUEUE (R61). -/
def fieldStn (w : Word) : Station := w.extractLsb' 16 5

/-- How many payload words follow a command word (R65), reserved bits and opcodes included. -/
def payloadCount (w : Word) : Nat := if fieldOp w = 0x1 then nwords (fieldA w).toNat else 0

/-- Why a command word is illegal. -/
inductive IllegalReason where
  /-- R66: `OP` is 0x0 or 0x4..0xF. -/
  | reservedOp
  /-- R67: a bit that the opcode's format requires to be 0 is 1. -/
  | reservedBits
  deriving DecidableEq, Repr

/-- R67 in mask terms, for the row of the word's opcode; R66 where no row has it. -/
def illegal? (w : Word) : Option IllegalReason :=
  match opRows.find? fun r => r.op == fieldOp w with
  | none => some .reservedOp
  | some r => if w &&& r.mask = r.pattern then none else some .reservedBits

/-- The command of a legal command word `w` with its payload words (R60 to R64). -/
def assembleFields (w : Word) (payload : List Word) : Instr :=
  if fieldOp w = 0x1 then .enq (fieldInst w) (fieldA w) (fieldStn w) payload
  else if fieldOp w = 0x2 then .flush (fieldInst w) (fieldA w)
  else .recv (fieldInst w) (fieldA w) (fieldB w)

/-- What stands at the head of the command stream. -/
inductive Decoded where
  /-- Not all words of the command are present: it is not taken (R65, R70). -/
  | incomplete
  /-- An illegal command; its words are taken and `rest` follows (R65, R68). -/
  | illegal (why : IllegalReason) (rest : List Word)
  /-- A legal command; `rest` follows. -/
  | command (i : Instr) (rest : List Word)
  deriving DecidableEq, Repr

/-- The decoder: length first (R65), then legality (R66, R67). -/
def decode : List Word → Decoded
  | [] => .incomplete
  | w :: ws =>
    if ws.length < payloadCount w then .incomplete
    else match illegal? w with
      | some why => .illegal why (ws.drop (payloadCount w))
      | none => .command (assembleFields w (ws.take (payloadCount w))) (ws.drop (payloadCount w))

/-- The command word of R61, R63, R64. -/
def encodeWord : Instr → Word
  | .enq inst len stn _ =>
    (stn.setWidth 32 <<< 16) ||| (len.setWidth 32 <<< 8) ||| (inst.setWidth 32 <<< 4) ||| 0x1
  | .flush inst burst => (burst.setWidth 32 <<< 8) ||| (inst.setWidth 32 <<< 4) ||| 0x2
  | .recv inst maxMsg maxLen =>
    (maxLen.setWidth 32 <<< 16) ||| (maxMsg.setWidth 32 <<< 8) ||| (inst.setWidth 32 <<< 4) ||| 0x3

/-- The payload words of a command (R62, R63, R64). -/
def encodePayload : Instr → List Word
  | .enq _ _ _ payload => payload
  | .flush _ _ => []
  | .recv _ _ _ => []

/-- The words of a command, in the order the host sends them (R58). -/
def encode (i : Instr) : List Word := encodeWord i :: encodePayload i

/-- The words of a table row's instruction whose bits are `w` (bit 0 the least significant bit of the
first word), every bit above `nbits` zero: the command word and the payload words R65 gives it. -/
def tableWords (nbits w : Nat) : List Word :=
  let v := w % 2 ^ nbits
  let first := BitVec.ofNat 32 v
  first :: (List.range (payloadCount first)).map fun k => BitVec.ofNat 32 (v >>> (32 * (k + 1)))

/-- The instruction the decoder reads from those words. -/
def decodeTableWord (nbits w : Nat) : Option Instr :=
  match decode (tableWords nbits w) with
  | .command i [] => some i
  | .command _ (_ :: _) => none
  | .illegal _ _ => none
  | .incomplete => none

/-- Payload words of the listed bytes, four a word (R62, R72), zero in the padding (DEDUCED, log 12). -/
def wordsOfBytes : List Byte → List Word
  | [] => []
  | [a] => [le32 a 0 0 0]
  | [a, b] => [le32 a b 0 0]
  | [a, b, c] => [le32 a b c 0]
  | a :: b :: c :: d :: bs => le32 a b c d :: wordsOfBytes bs

/-- The commands an assembly line stands for (R72, R73); none where an operand is out of its field's
range, or for `.word`, which is no command term. -/
def AsmLine.instrs? : AsmLine → Option (List Instr)
  | .enq inst stn bytes =>
    if inst < 16 ∧ stn < 32 ∧ bytes.length < 256 ∧ bytes.all (· < 256) then
      some [.enq (BitVec.ofNat 4 inst) (BitVec.ofNat 8 bytes.length) (BitVec.ofNat 5 stn)
        (wordsOfBytes (bytes.map (BitVec.ofNat 8)))]
    else none
  | .flush inst burst =>
    if inst < 16 ∧ burst < 256 then some [.flush (BitVec.ofNat 4 inst) (BitVec.ofNat 8 burst)]
    else none
  | .recv inst maxMsg maxLen =>
    if inst < 16 ∧ maxMsg < 256 ∧ maxLen < 256 then
      some [.recv (BitVec.ofNat 4 inst) (BitVec.ofNat 8 maxMsg) (BitVec.ofNat 8 maxLen)]
    else none
  | .word _ => none
  | .cycle inst burst maxMsg maxLen =>
    if inst < 16 ∧ burst < 256 ∧ maxMsg < 256 ∧ maxLen < 256 then
      some [.flush (BitVec.ofNat 4 inst) (BitVec.ofNat 8 burst),
        .recv (BitVec.ofNat 4 inst) (BitVec.ofNat 8 maxMsg) (BitVec.ofNat 8 maxLen)]
    else none

/-- The words of an assembly line (R72, R73). -/
def AsmLine.assemble : AsmLine → Option (List Word)
  | .word w => if w < 2 ^ 32 then some [BitVec.ofNat 32 w] else none
  | .enq inst stn bytes => (AsmLine.enq inst stn bytes).instrs?.map (·.flatMap encode)
  | .flush inst burst => (AsmLine.flush inst burst).instrs?.map (·.flatMap encode)
  | .recv inst maxMsg maxLen => (AsmLine.recv inst maxMsg maxLen).instrs?.map (·.flatMap encode)
  | .cycle inst burst maxMsg maxLen =>
    (AsmLine.cycle inst burst maxMsg maxLen).instrs?.map (·.flatMap encode)

end Sys2Proof
end

