-- ==== Sys2Proof/Machine/Fetch.lean ====
section
/-! DEFINITION. Taking a command from the port (30_encoding.md R68, R70). -/

namespace Sys2Proof.Machine

open Sys2Proof

/-- What stands at the head of the command port. -/
def State.nextCommand (s : State) : Decoded := decode s.port

/-- The state with the words before `rest` taken from the port. -/
def State.take (s : State) (rest : List Word) : State := { s with port := rest }

/-- An illegal command completes at acceptance (R68). -/
def illegalStep (rest : List Word) (s : State) : StepResult :=
  .next ((s.take rest).reject .invalidArgument)

/-- An incomplete command, or none, is not taken: the block waits and keeps every value (R70, R141). -/
def idleWait (s : State) : StepResult := .next s

end Sys2Proof.Machine
end

