-- ==== Sys2Proof/Machine/Step.lean ====
section
/-! DEFINITION. The step: command acceptance in `IDLE` (30_encoding.md R70), one transaction in any other
state (10_state.md R18). -/

namespace Sys2Proof.Machine

open Sys2Proof

/-- Command acceptance (R70): a whole command is taken and its acceptance step performed. -/
def acceptStep (s : State) : Host.Outcome State Fault Refusal :=
  match s.nextCommand with
  | .incomplete => idleWait s
  | .illegal _ rest => illegalStep rest s
  | .command i rest => exec i (s.take rest)

/-- One step of the block (R18). -/
def step (s : State) : Host.Outcome State Fault Refusal :=
  match s.fsm with
  | .idle => acceptStep s
  | .txData => stepTxData s
  | .txSize => stepTxSize s
  | .txStn => stepTxStn s
  | .txMode => stepTxMode s
  | .rxMode => stepRxMode s
  | .rxSize => stepRxSize s
  | .rxStn => stepRxStn s
  | .rxData => stepRxData s

/-- `s` with the table row's instruction whose bits are `w` at the head of the command port of an idle
block, so that the next step takes it. It stands for the host's sending of a command (DESIGN
CHOICE, log 6). -/
def State.withFetchWord (s : State) (nbits w : Nat) : State :=
  { s with fsm := .idle, port := tableWords nbits w ++ s.port }

end Sys2Proof.Machine
end

