-- ==== Sys2Proof/Machine/Command.lean ====
section
/-! DEFINITION. FLUSH and RECEIVE as whole algorithms, from the pseudocode of
40_transmit_packetizer.md R75 and 41_receive_deframer.md R91. The machine runs the step rules; these
say what a whole run of them comes to, as a function of the device's answers. -/

namespace Sys2Proof.Machine

open Sys2Proof

/-- What issuing some requests came to. -/
inductive SendEnd where
  /-- Every request was answered `Ok`, with these words. -/
  | done (data : List Word) (events : List Event) (rest : List Response)
  /-- The last request issued was answered `Fail`; the words of the ones before it. -/
  | failed (data : List Word) (events : List Event) (rest : List Response)
  /-- The device gives no further answer (R39). -/
  | unanswered
  deriving DecidableEq, Repr

/-- Issuing requests in order, up to the first `Fail` (R36, R51). -/
def sendAll : List BusReq → List Response → SendEnd
  | [], rs => .done [] [] rs
  | _ :: _, [] => .unanswered
  | q :: _, .fail :: rs => .failed [] [q.event .fail] rs
  | q :: qs, .ok d :: rs =>
    match sendAll qs rs with
    | .done ds evs rest => .done (d :: ds) (q.event (.ok d) :: evs) rest
    | .failed ds evs rest => .failed (d :: ds) (q.event (.ok d) :: evs) rest
    | .unanswered => .unanswered

/-- What a FLUSH came to: its result and count, its transactions, and the answers left over. -/
structure FlushEnd where
  result : Word
  count : Nat
  events : List Event
  rest : List Response
  deriving DecidableEq, Repr

/-- The writes of one message, steps 1 to 4 of R75: its data words, its size, its station. -/
def messageWrites (m : RegMap) (e : QEntry) : List BusReq :=
  (txWords e.data e.len.toNat).map (fun v => (BusOp.write .txData v).request m)
    ++ [(BusOp.write .txSizeFifo (e.len.setWidth 32)).request m,
        (BusOp.write .txStnFifo (e.stn.setWidth 32)).request m]

/-- The loop of R75 over the messages, with `sent` and `tot` so far. None where the device stops
answering. -/
def flushMessages (c : Config) (m : RegMap) : List QEntry → Nat → Nat → List Response → Option FlushEnd
  | [], sent, tot, rs => some { result := BitVec.ofNat 32 tot, count := sent, events := [], rest := rs }
  | e :: es, sent, tot, rs =>
    let io (evs : List Event) (rest : List Response) : Option FlushEnd :=
      some { result := i32 (resultCode c .registerIO), count := sent, events := evs, rest := rest }
    let mode := (BusOp.read .mode).request m
    match sendAll (messageWrites m e) rs with
    | .unanswered => none
    | .failed _ evs rest => io evs rest
    | .done _ evs rest =>
      match rest with
      | [] => none
      | .fail :: rest => io (evs ++ [mode.event .fail]) rest
      | .ok d :: rest =>
        if txFifoError d then
          some { result := i32 (resultCode c .txSendCountFifo), count := sent
                 events := evs ++ [mode.event (.ok d)], rest := rest }
        else
          match flushMessages c m es (sent + 1) (tot + e.len.toNat) rest with
          | none => none
          | some r => some { r with events := evs ++ mode.event (.ok d) :: r.events }

/-- FLUSH of a queue `q` with burst limit `burst` (R75). -/
def flushAlgorithm (c : Config) (m : RegMap) (q : WriteQueue) (burst : Byte) (rs : List Response) :
    Option FlushEnd :=
  flushMessages c m (q.entries.take (min (min q.qlen.toNat burst.toNat) maxBurst)) 0 0 rs

/-- The receive output (R27). -/
structure RxOut where
  outLen : Vector (Option Byte) 31
  outStn : Vector (Option Station) 31
  rxBuf : Memory
  deriving DecidableEq, Repr

/-- The receive output of a state. -/
def State.rxOut (s : State) : RxOut := { outLen := s.outLen, outStn := s.outStn, rxBuf := s.rxBuf }

/-- What a RECEIVE came to. -/
structure RecvEnd where
  result : Word
  count : Nat
  events : List Event
  rest : List Response
  out : RxOut
  deriving DecidableEq, Repr

/-- The loop of R91 over the messages still to drain, at message `j` with `acc` bytes so far. -/
def recvMessages (c : Config) (m : RegMap) (cap : Nat) :
    Nat → Nat → Nat → RxOut → List Response → Option RecvEnd
  | 0, j, acc, out, rs =>
    some { result := BitVec.ofNat 32 acc, count := j, events := [], rest := rs, out := out }
  | n + 1, j, acc, out, rs =>
    let stop (k : ErrorKind) (out : RxOut) (evs : List Event) (rest : List Response) : Option RecvEnd :=
      some { result := i32 (resultCode c k), count := j, events := evs, rest := rest, out := out }
    match sendAll [(BusOp.read .rxSizeFifo).request m, (BusOp.read .rxStnFifo).request m] rs with
    | .unanswered => none
    | .failed _ evs rest => stop .registerIO out evs rest
    | .done ds evs rest =>
      let len := (rxLenOf (ds.getD 0 0)).toNat
      let stn := rxStnOf (ds.getD 1 0)
      if len = 0 then stop .rxPacketSizeZero out evs rest
      else if cap < acc + len then stop .rxArraySize out evs rest
      else
        match sendAll (List.replicate (nwords len) ((BusOp.read .rxData).request m)) rest with
        | .unanswered => none
        | .failed ws evs' rest =>
          stop .registerIO { out with rxBuf := out.rxBuf.writeBytes acc (unpackFrom len 0 ws) }
            (evs ++ evs') rest
        | .done ws evs' rest =>
          let out' : RxOut :=
            { outLen := out.outLen.setIfInBounds j (some (BitVec.ofNat 8 len))
              outStn := out.outStn.setIfInBounds j (some stn)
              rxBuf := out.rxBuf.writeBytes acc (unpackFrom len 0 ws) }
          match recvMessages c m cap n (j + 1) (acc + len) out' rest with
          | none => none
          | some r => some { r with events := evs ++ evs' ++ r.events }

/-- RECEIVE with `maxMsg` and `maxLen` (R91). -/
def recvAlgorithm (c : Config) (m : RegMap) (maxMsg maxLen : Byte) (out : RxOut) (rs : List Response) :
    Option RecvEnd :=
  let mode := (BusOp.read .mode).request m
  match rs with
  | [] => none
  | .fail :: rest =>
    some { result := i32 (resultCode c .registerIO), count := 0, events := [mode.event .fail]
           rest := rest, out := out }
  | .ok d :: rest =>
    match recvMessages c m (maxMsg.toNat * maxLen.toNat) (rxAvailOf d).toNat 0 0 out rest with
    | none => none
    | some r => some { r with events := mode.event (.ok d) :: r.events }

end Sys2Proof.Machine
end

