-- ==== Sys2Proof/Machine/HostSide.lean ====
section
/-! DEFINITION. What stands outside a step: the configuration of the block and its boot
(70_reset_and_hazards.md R145), the reset event (R143), the moves of the host and of the device
(00_scope.md R14, 60_exceptions.md R142), and the host's reads (10_state.md R31). -/

namespace Sys2Proof

open Machine (resultCode packParamOr packParamAnd)

/-! ### Configuration and boot -/

/-- Every address of the register map (R15). -/
def Config.allAddrs (c : Config) : List Nat := c.regmap.flatMap RegMap.addrs

/-- Every result code (R121). -/
def Config.allCodes (c : Config) : List Int :=
  [resultCode c .notFound, resultCode c .memoryExhausted, resultCode c .registerIO,
   resultCode c .txSendCountFifo, resultCode c .rxFifo, resultCode c .rxPacketSizeZero,
   resultCode c .rxArraySize, resultCode c .bufferParsing, resultCode c .invalidArgument]

/-- No element of the list occurs twice. -/
def distinct {α : Type} [BEq α] : List α → Bool
  | [] => true
  | x :: xs => !xs.contains x && distinct xs

/-- `UPARAM_PAIRING` assigns each of the ten names to one half of one register (R44), where given. -/
def Config.pairingOk (c : Config) : Bool :=
  match c.uparamPairing with
  | none => true
  | some p => distinct (p.toList.flatMap fun x => [x.hi, x.lo])

/-- The ranges of R5 and R15 (their refusal is DEDUCED, log 3): parameters in range, codes negative `i32` and distinct (R5, R121), one
register-map row an instance, every address `ADDR_W` bits wide. -/
def Config.inRange (c : Config) : Bool :=
  1 ≤ c.ni && c.ni ≤ 16 && 1 ≤ c.qcap && c.qcap ≤ 255
    && c.regmap.length == c.ni
    && c.allAddrs.all (· < 2 ^ c.addrW)
    && c.allCodes.all (fun z => -2147483648 ≤ z && z < 0)
    && distinct c.allCodes
    && c.pairingOk

/-- R41: the addresses are pairwise distinct, within an instance and across instances. -/
def Config.addrsDistinct (c : Config) : Bool := distinct c.allAddrs

/-- A configuration the model accepts (R5, R41, R42). -/
def Config.valid (c : Config) : Bool :=
  c.layout == .twelveRegisters && c.inRange && c.addrsDistinct

/-- The packing of two setup values into a user-parameter register, in the configured form (R44). That
`a` of `AND_form` is the lower and `b` the upper value is DEDUCED (log 8). -/
def Config.packParam (c : Config) (hi lo : Word) : Word :=
  match c.uparamPackForm with
  | .orForm => packParamOr hi lo
  | .andForm => packParamAnd lo hi

/-- The five words a setup agent writes to `UPARAM0..4` for the named setup values (R43, R44, R145 item
2), where the pairing is given. No command of the block uses them (R43). -/
def Config.uparamWords (c : Config) (value : UparamName → Word) : Option (Vector Word 5) :=
  c.uparamPairing.map fun p => p.map fun x => c.packParam (value x.hi) (value x.lo)

/-- What `HOST_MAP` puts at a host address. -/
def Config.hostLoc (c : Config) (a : Nat) : Option HostLoc := (c.hostMap.find? fun p => p.1 == a).map (·.2)

end Sys2Proof

namespace Sys2Proof.Machine

open Sys2Proof

/-- Configuration and reset, items 1 and 3 of R145: an accepted configuration gives its reset state;
R41 and R42 refuse the others. -/
def configure (c : Config) : StepResult :=
  if c.layout = .tenRegisters then .refused .tenRegisterLayout
  else if c.inRange = false then .refused .parameterOutOfRange
  else if c.addrsDistinct = false then .refused .addressesNotDistinct
  else .next (State.resetWith c)

/-! ### The reset event and the moves of host and device -/

/-- Reset at any time (R143, R144): every block element takes its reset value, a command in progress is
dropped, and the answer to an outstanding request never reaches it. That request is recorded (R38), with its
answer where the device has given one and else with none so far. Words the host has sent and the block has
not taken, the other answers and the history are no block state and stay (DESIGN CHOICE, log 7). -/
def State.applyReset (s : State) : State :=
  let t := { State.resetWith s.cfg with
    port := s.port, responses := s.responses, history := s.history }
  match s.outstanding, s.responses with
  | none, _ => t
  | some q, [] => { t with history := s.history ++ [q.unanswered] }
  | some q, r :: rest => { t with responses := rest, history := s.history ++ [q.event r] }

/-- The host sends words on the command port (R58, R142); they are held until the block takes them. Sending
is not acceptance: until the acceptance step a host read finds `BUSY` 0 and the previous command's results,
R134's "after issuing a command" being read as after its acceptance (DESIGN CHOICE, log 16). -/
def State.hostSends (s : State) (ws : List Word) : State := { s with port := s.port ++ ws }

/-- The device answers a request of the running command (R36, R37). -/
def State.deviceAnswers (s : State) (r : Response) : State :=
  { s with responses := s.responses ++ [r] }

/-- The device answers a request that a reset dropped, the one of record `k`: the block discards the answer
(R143) and the record keeps it (R38). It is a move of its own, so the answer may come at any time or never,
and no answer to a later request is taken for it (DESIGN CHOICE, log 7). -/
def State.lateAnswer (s : State) (k : Nat) (r : Response) : State :=
  { s with history := s.history.modify k fun e => e.late r }

/-- The moves of a run (R14): the block's step, and what the host and the device can do to the block. -/
inductive Move where
  | step
  | hostSends (ws : List Word)
  | deviceAnswers (r : Response)
  | lateAnswer (k : Nat) (r : Response)
  | reset
  deriving DecidableEq, Repr

/-- One move. -/
def State.move (s : State) : Move → StepResult
  | .step => Sys2Proof.Machine.step s
  | .hostSends ws => .next (s.hostSends ws)
  | .deviceAnswers r => .next (s.deviceAnswers r)
  | .lateAnswer k r => .next (s.lateAnswer k r)
  | .reset => .next s.applyReset

/-! ### The host's reads -/

/-- A host read of an element that may hold no value (R31, R148). -/
def readHeld {n : Nat} (v : Option (BitVec n)) : Except Fault Word :=
  match v with
  | some b => .ok (b.setWidth 32)
  | none => .error .hostReadNoValue

/-- Entry `j` of the receive output is in the valid region (R27): the messages rebuilt by the last RECEIVE
that was accepted, which `RX_CNT` counts (DEDUCED, log 5). What lies outside is stale (R148). -/
def State.validEntry (s : State) (j : Nat) : Bool := j < s.rxCnt.toNat

/-- Byte `k` of `RXBUF` is in the valid region (R27), which ends at `RX_ACC` (DEDUCED, log 5). -/
def State.validByte (s : State) (k : Nat) : Bool := k < s.rxAcc.toNat

/-- A host read of an element other than `STATUS`: while `BUSY` is 1 it is no move (R142, I24; log 15). -/
def State.resultRead (s : State) (v : Except Fault Word) : Except Fault Word :=
  if s.busy then .error .hostReadWhileBusy else v

/-- A host read of an element of the receive output: outside the valid region it gives no value (I23). -/
def readValid {n : Nat} (valid : Bool) (v : Option (BitVec n)) : Except Fault Word :=
  if valid then readHeld v else .error .hostReadNoValue

/-- A host read (R31), zero-extended to 32 bits. It changes nothing (R142). -/
def hostRead (s : State) : HostReg → Except Fault Word
  | .status => .ok s.status
  | .result => s.resultRead (.ok s.result)
  | .count => s.resultRead (.ok (s.count.setWidth 32))
  | .qlen i => s.resultRead <|
    match s.queues[i]? with
    | some q => .ok (q.qlen.setWidth 32)
    | none => .error .hostNoSuchElement
  | .rxlen j => s.resultRead <|
    match s.outLen[j]? with
    | some v => readValid (s.validEntry j) v
    | none => .error .hostNoSuchElement
  | .rxstn j => s.resultRead <|
    match s.outStn[j]? with
    | some v => readValid (s.validEntry j) v
    | none => .error .hostNoSuchElement
  | .rxbuf k => s.resultRead <|
    if k < rxBufBytes then readValid (s.validByte k) (s.rxBuf.read k) else .error .hostNoSuchElement

/-- A host load through `HOST_MAP` (R31, R35 item 3). The command port is no readable element (DESIGN
CHOICE, log 11). -/
def hostLoad (s : State) (a : Nat) : Except Fault Word :=
  match s.cfg.hostLoc a with
  | some (.reg r) => hostRead s r
  | some .commandPort => .error .hostNoSuchElement
  | none => .error .hostAddressUnmapped

/-- A host store through `HOST_MAP`: a word for the command port; the host changes block state no other
way (R31, R20; the faults are a DESIGN CHOICE, log 11). -/
def hostStore (s : State) (a : Nat) (w : Word) : Except Fault State :=
  match s.cfg.hostLoc a with
  | some .commandPort => .ok (s.hostSends [w])
  | some (.reg _) => .error .hostNotWritable
  | none => .error .hostAddressUnmapped

/-- The sum of `RXLEN[0..n-1]`, none where one of them holds no value (R27). -/
def State.lenSum (s : State) : Nat → Option Nat
  | 0 => some 0
  | n + 1 =>
    match s.lenSum n, s.outLen[n]? with
    | some t, some (some l) => some (t + l.toNat)
    | _, _ => none

/-- Received message `j` of the ReadBatch (R27): its station and its bytes, none outside the valid region. -/
def State.message? (s : State) (j : Nat) : Option (Station × List Byte) :=
  if s.validEntry j then
    match s.lenSum j, s.outLen[j]?, s.outStn[j]? with
    | some off, some (some l), some (some stn) =>
      ((List.range l.toNat).mapM fun k => s.rxBuf.read (off + k)).map fun b => (stn, b)
    | _, _, _ => none
  else none

end Sys2Proof.Machine
end

