-- ==== Sys2Proof/Safety.lean ====
section
/-! DEFINITION. The invariant of the machine (10_state.md R24, R25, R26, R33; 41_receive_deframer.md
R103), the states a run can reach, the transaction of a state, and what a safe step is. -/

namespace Sys2Proof.Machine

open Sys2Proof

/-- R24 for one queue: at most `QCAP` messages, and every entry below `QLEN` was written. -/
def WriteQueue.ok (q : WriteQueue) (qcap : Nat) : Bool :=
  q.qlen.toNat ≤ qcap && q.qlen.toNat ≤ q.entries.length && q.entries.all QEntry.holds

/-- The byte total of some entries. -/
def lenTotal : List QEntry → Nat
  | [] => 0
  | e :: es => e.len.toNat + lenTotal es

/-- The transmit working registers while a FLUSH runs (R25). -/
structure State.TxOk (s : State) : Prop where
  burst : s.txN.toNat ≤ maxBurst
  queued : s.txN.toNat ≤ s.curQueue.qlen.toNat
  index : s.txM.toNat < s.txN.toNat
  sent : s.txSent.toNat = s.txM.toNat
  total : s.txTot.toNat = lenTotal (s.curQueue.entries.take s.txM.toNat)
  word : ∀ e, s.txEntry = some e →
    if s.fsm = .txData then s.txW.toNat < nwords e.len.toNat else s.txW.toNat = nwords e.len.toNat

/-- The receive working registers and output while a RECEIVE runs (R26, R27, R103). -/
structure State.RxOk (s : State) : Prop where
  cap : s.rxCap.toNat ≤ 65025
  count : s.rxCnt.toNat = s.rxJ.toNat
  start : s.fsm = .rxMode → s.rxJ = 0
  index : s.fsm ≠ .rxMode → s.rxJ.toNat < s.rxAvail.toNat
  accCap : s.rxAcc.toNat ≤ s.rxCap.toNat
  accLen : s.rxAcc.toNat ≤ maxMsgLen * s.rxJ.toNat
  sum : s.lenSum s.rxJ.toNat = some s.rxAcc.toNat
  stations : ∀ j, j < s.rxJ.toNat → ∃ b, s.outStn[j]? = some (some b)
  bytes : ∀ k, k < s.rxAcc.toNat → ∃ b, s.rxBuf.read k = some b
  data : s.fsm = .rxData →
    0 < s.rxLen.toNat ∧ s.rxAcc.toNat + s.rxLen.toNat ≤ s.rxCap.toNat
      ∧ s.rxW.toNat < nwords s.rxLen.toNat
      ∧ ∀ k, k < s.rxAcc.toNat + 4 * s.rxW.toNat → ∃ b, s.rxBuf.read k = some b

/-- The invariant of the machine. -/
structure State.Inv (s : State) : Prop where
  cfg : s.cfg.valid = true
  queueCount : s.queues.length = s.cfg.ni
  queues : ∀ q ∈ s.queues, q.ok s.cfg.qcap = true
  inst : s.curInst.toNat < s.cfg.ni
  buf : s.rxBuf.wf = true
  waiting : s.fsm = .idle → s.outstanding = none
  tx : s.fsm.isTx = true → s.TxOk
  rx : s.fsm.isRx = true → s.RxOk

/-- The states of a run: an accepted configuration after reset (R145), then moves of the block, the host
and the device in any order (R14). -/
inductive Reachable : State → Prop where
  | boot (c : Config) (h : c.valid = true) : Reachable (State.resetWith c)
  | move (s t : State) (m : Move) (hs : Reachable s) (h : s.move m = .next t) : Reachable t

/-! ### The transaction of a state -/

/-- The transaction a state issues next (R18); none in `IDLE`, or where the entry holds no value. -/
def State.nextOp (s : State) : Option BusOp :=
  match s.fsm with
  | .idle => none
  | .txData => s.txEntry.map fun e => .write .txData (txWord e.data e.len.toNat s.txW.toNat)
  | .txSize => s.txEntry.map fun e => .write .txSizeFifo (e.len.setWidth 32)
  | .txStn => s.txEntry.map fun e => .write .txStnFifo (e.stn.setWidth 32)
  | .txMode => s.txEntry.map fun _ => .read .mode
  | .rxMode => some (.read .mode)
  | .rxSize => some (.read .rxSizeFifo)
  | .rxStn => some (.read .rxStnFifo)
  | .rxData => some (.read .rxData)

/-! ### What two states have in common, for frames -/

/-- The transmit working registers (R25) are the same. -/
def State.sameTx (s t : State) : Prop :=
  t.txN = s.txN ∧ t.txM = s.txM ∧ t.txW = s.txW ∧ t.txSent = s.txSent ∧ t.txTot = s.txTot

/-- The receive working registers (R26) are the same. -/
def State.sameRx (s t : State) : Prop :=
  t.rxCap = s.rxCap ∧ t.rxAvail = s.rxAvail ∧ t.rxJ = s.rxJ ∧ t.rxLen = s.rxLen ∧ t.rxStn = s.rxStn
    ∧ t.rxW = s.rxW ∧ t.rxAcc = s.rxAcc ∧ t.rxCnt = s.rxCnt

/-- The receive output (R27) is the same, `RXBUF` byte by byte. -/
def State.sameOut (s t : State) : Prop :=
  t.outLen = s.outLen ∧ t.outStn = s.outStn ∧ ∀ a, t.rxBuf.read a = s.rxBuf.read a

/-- No transaction was issued or answered. -/
def State.sameBus (s t : State) : Prop :=
  t.history = s.history ∧ t.responses = s.responses ∧ t.outstanding = s.outstanding

/-- Every queue but that of instance `i` is the same (R111). -/
def State.sameQueuesBut (s t : State) (i : Nat) : Prop := ∀ j, j ≠ i → t.queues[j]? = s.queues[j]?

/-- The queues with that of instance `i` emptied: `QLEN[i] <- 0`, the entries as they were (R84, R85). -/
def emptied (qs : List WriteQueue) (i : Nat) : List WriteQueue := qs.modify i fun q => { q with qlen := 0 }

/-- A state from which the next step neither faults nor refuses. -/
def State.Safe (s : State) : Prop := ∃ t, step s = .next t

end Sys2Proof.Machine
end

