-- ==== Sys2Proof/Certificates/Slice0/Obligations.lean ====
section
/-! DEFINITION. The statements for the provers. -/

open Sys2Proof Sys2Proof.Machine

/-! ### The command encoding -/

/-- Decoding the words of a well-formed command, whatever follows, gives it back (30_encoding.md
section 2). -/
def Obligations.DecodeOfEncodeIsTheCommand : Prop :=
  ∀ (i : Instr) (rest : List Word), i.wellFormed = true → decode (encode i ++ rest) = .command i rest

/-- A decoded command is well-formed and its words are the ones decoded: no bit is dropped. -/
def Obligations.DecodedWordsAreTheEncoding : Prop :=
  ∀ (ws rest : List Word) (i : Instr),
    decode ws = .command i rest → i.wellFormed = true ∧ ws = encode i ++ rest

/-- R65: how many words a command has follows from its first word alone, reserved bits and opcodes
included; and a command is taken or left as a whole. -/
def Obligations.CommandLengthIsFixedByFirstWord : Prop :=
  ∀ (w : Word) (ws : List Word) (n : Nat),
    n = (if w.toNat % 16 = 1 then nwords (w.toNat / 256 % 256) else 0) →
      (ws.length < n → decode (w :: ws) = .incomplete)
        ∧ (n ≤ ws.length → (∃ i, decode (w :: ws) = .command i (ws.drop n))
            ∨ ∃ why, decode (w :: ws) = .illegal why (ws.drop n))

/-- R67 (with R66): a complete command is legal exactly when its word matches a row under its mask. -/
def Obligations.CommandIsLegalExactlyWhenMaskMatches : Prop :=
  ∀ (w : Word) (ws : List Word), decode (w :: ws) ≠ .incomplete →
    ((∃ i rest, decode (w :: ws) = .command i rest) ↔
      (w &&& 0xFFE0000F = 0x00000001 ∨ w &&& 0xFFFF000F = 0x00000002 ∨ w &&& 0xFF00000F = 0x00000003))

/-- Words written out from R61, R63, R64 and 95_test_vectors.md V-ENC decode to what they stand for. -/
def Obligations.WrittenOutWordsDecode : Prop :=
  decode [0x00020501, 0x44332211, 0x00000055] = .command (.enq 0 5 2 [0x44332211, 0x00000055]) []
    ∧ decode [0x001F0031] = .command (.enq 3 0 31 []) []
    ∧ decode [0x0000FFF2] = .command (.flush 15 255) []
    ∧ decode [0x000A0203] = .command (.recv 0 2 10) []
    ∧ decode [0x00000000] = .illegal .reservedOp []
    ∧ decode [0x00010002] = .illegal .reservedBits []
    ∧ decode [0x00020501, 0x44332211] = .incomplete

/-- R73: `CYCLE` is `FLUSH` followed by `RECV`. -/
def Obligations.CycleIsFlushThenRecv : Prop :=
  ∀ (inst burst maxMsg maxLen : Nat) (ws us : List Word),
    (AsmLine.flush inst burst).assemble = some ws → (AsmLine.recv inst maxMsg maxLen).assemble = some us →
      (AsmLine.cycle inst burst maxMsg maxLen).assemble = some (ws ++ us)

/-! ### The step -/

/-- In `IDLE` a whole legal command at the port is taken and run: the step is `exec` of it, with its
words taken from the port. -/
def Obligations.IdleStepRunsTheDecodedCommand : Prop :=
  ∀ (s : State) (i : Instr) (rest : List Word), s.fsm = .idle → i.wellFormed = true →
    s.port = encode i ++ rest → step s = exec i { s with port := rest }

/-- R68: an illegal command completes at acceptance; its only writes are these three, and its words are
taken. -/
def Obligations.IllegalCommandOnlyReports : Prop :=
  ∀ (s : State) (why : IllegalReason) (rest : List Word), s.fsm = .idle →
    decode s.port = .illegal why rest →
      step s = .next { s with
        port := rest, result := i32 s.cfg.errInvalidArgument, count := 0, callerErr := true }

/-- R70: an incomplete command is not taken and nothing changes; a running command leaves the port
alone. -/
def Obligations.PortIsHeldUntilTaken : Prop :=
  (∀ s : State, s.fsm = .idle → decode s.port = .incomplete → step s = .next s)
    ∧ ∀ s t : State, s.fsm ≠ .idle → step s = .next t → t.port = s.port

/-- The model's choice (DESIGN CHOICE, log 4), not R39's words: R39 gives the block no step until a response
comes, where the model answers a step that repeats the state. With no answer from the device every number of
steps leaves the state as it is, `BUSY` among it, with the request outstanding that the state names at the
running command's instance. -/
def Obligations.UnansweredRequestHangsTheBlock : Prop :=
  ∀ s : State, s.Inv → s.fsm ≠ .idle → s.responses = [] →
    ∃ m op, s.cfg.regmap[s.curInst.toNat]? = some m ∧ s.nextOp = some op ∧ ∀ k : Nat,
      Host.Core.run Sys2Proof.core (k + 1) s = .next { s with outstanding := some (op.request m) }

/-- R18: a state's step issues exactly the one transaction the state names, at the running command's
instance, with the answer the device gives; and it becomes the last record of the history. -/
def Obligations.EachStateIssuesItsOneTransaction : Prop :=
  ∀ (s : State) (r : Response) (rest : List Response), s.Inv → s.fsm ≠ .idle → s.responses = r :: rest →
    ∃ t m e, step s = .next t ∧ s.cfg.regmap[s.curInst.toNat]? = some m
      ∧ t.history = s.history ++ [e] ∧ e.response = some r ∧ t.responses = rest ∧ t.outstanding = none
      ∧ (e.kind, e.addr) = (match s.fsm with
          | .txData => (BusKind.write, m.txData)
          | .txSize => (BusKind.write, m.txSizeFifo)
          | .txStn => (BusKind.write, m.txStnFifo)
          | .txMode => (BusKind.read, m.mode)
          | .rxMode => (BusKind.read, m.mode)
          | .rxSize => (BusKind.read, m.rxSizeFifo)
          | .rxStn => (BusKind.read, m.rxStnFifo)
          | .rxData => (BusKind.read, m.rxData)
          | .idle => (BusKind.read, m.mode))

/-- R36: at most one transaction a step, issued only by a step that is not in `IDLE`, its record the only
change of the history. -/
def Obligations.AtMostOneTransactionPerStep : Prop :=
  ∀ s t : State, step s = .next t →
    (t.history = s.history ∧ t.responses = s.responses)
      ∨ (s.fsm ≠ .idle ∧ ∃ e r, s.responses = r :: t.responses ∧ e.response = some r
          ∧ t.history = s.history ++ [e])

/-! ### ENQUEUE -/

/-- R108: ENQUEUE on an instance with room completes; the message stands behind the queued ones, whose
entries are as they were. -/
def Obligations.EnqAppendsTheMessage : Prop :=
  ∀ (s : State) (inst : BitVec 4) (len : Byte) (stn : Station) (payload : List Word) (q : WriteQueue),
    inst.toNat < s.cfg.ni → s.queues[inst.toNat]? = some q → q.ok s.cfg.qcap = true → s.cfg.qcap ≤ 255 →
    q.qlen.toNat ≠ s.cfg.qcap →
      ∃ t q' e, exec (.enq inst len stn payload) s = .next t
        ∧ t.queues[inst.toNat]? = some q' ∧ q'.qlen.toNat = q.qlen.toNat + 1
        ∧ q'.entry? q.qlen.toNat = some e ∧ e.len = len ∧ e.stn = stn
        ∧ (∀ k, k < len.toNat → e.data[k]? = some (byteOf (payload.getD (k / 4) 0) (k % 4)))
        ∧ (∀ k, k < q.qlen.toNat → q'.entry? k = q.entry? k)
        ∧ t.result = 0 ∧ t.count.toNat = q.qlen.toNat + 1 ∧ t.fsm = s.fsm ∧ t.callerErr = s.callerErr

/-- What an ENQUEUE leaves unchanged, whichever way it completes. -/
def Obligations.EnqFrame : Prop :=
  ∀ (s t : State) (inst : BitVec 4) (len : Byte) (stn : Station) (payload : List Word),
    exec (.enq inst len stn payload) s = .next t →
      t.cfg = s.cfg ∧ t.fsm = s.fsm ∧ t.curInst = s.curInst ∧ s.sameTx t ∧ s.sameRx t ∧ s.sameOut t
        ∧ s.sameBus t ∧ t.port = s.port ∧ s.sameQueuesBut t inst.toNat
        ∧ (t.callerErr = s.callerErr ∨ (t.callerErr = true ∧ t.queues = s.queues))
        ∧ ∀ q q' k, s.queues[inst.toNat]? = some q → t.queues[inst.toNat]? = some q' →
            q.qlen.toNat ≤ q.entries.length → k ≠ q.qlen.toNat → q'.entry? k = q.entry? k

/-- R109 and R128: a legal command on an instance that is not served, and an ENQUEUE on a full queue,
complete at acceptance with these three writes; the queues are unchanged. -/
def Obligations.RejectedCommandsOnlyReport : Prop :=
  (∀ (s : State) (i : Instr), s.cfg.ni ≤ i.inst.toNat →
      exec i s = .next { s with result := i32 s.cfg.errNotFound, count := 0, callerErr := true })
    ∧ ∀ (s : State) (inst : BitVec 4) (len : Byte) (stn : Station) (payload : List Word) (q : WriteQueue),
      inst.toNat < s.cfg.ni → s.queues[inst.toNat]? = some q → q.qlen.toNat = s.cfg.qcap →
        exec (.enq inst len stn payload) s
          = .next { s with result := i32 s.cfg.errInvalidArgument, count := 0, callerErr := true }

/-! ### FLUSH: acceptance -/

/-- R78: a FLUSH with something to send initialises the transmit registers and starts the first
message. -/
def Obligations.FlushAcceptStartsTheFirstMessage : Prop :=
  ∀ (s : State) (inst : BitVec 4) (burst : Byte) (q : WriteQueue) (n : Nat),
    inst.toNat < s.cfg.ni → s.queues[inst.toNat]? = some q → q.ok s.cfg.qcap = true →
    n = min (min q.qlen.toNat burst.toNat) 16 → n ≠ 0 →
      ∃ e, q.entry? 0 = some e
        ∧ exec (.flush inst burst) s = .next { s with
            curInst := inst, txN := BitVec.ofNat 5 n, txM := 0, txW := 0, txSent := 0, txTot := 0
            fsm := if 0 < nwords e.len.toNat then .txData else .txSize }

/-- R78 with R84: a FLUSH with nothing to send completes in its acceptance step without a transaction,
and still empties the queue. -/
def Obligations.FlushOfNothingCompletesAtOnce : Prop :=
  ∀ (s : State) (inst : BitVec 4) (burst : Byte) (q : WriteQueue),
    inst.toNat < s.cfg.ni → s.queues[inst.toNat]? = some q → (q.qlen = 0 ∨ burst = 0) →
      exec (.flush inst burst) s = .next { s with
        curInst := inst, txN := 0, txM := 0, txW := 0, txSent := 0, txTot := 0
        queues := emptied s.queues inst.toNat, result := 0, count := 0, fsm := .idle }

/-- What a FLUSH's acceptance leaves unchanged. -/
def Obligations.FlushAcceptFrame : Prop :=
  ∀ (s t : State) (inst : BitVec 4) (burst : Byte), exec (.flush inst burst) s = .next t →
    t.cfg = s.cfg ∧ s.sameRx t ∧ s.sameOut t ∧ s.sameBus t ∧ t.port = s.port
      ∧ s.sameQueuesBut t inst.toNat
      ∧ (∀ q q' k, s.queues[inst.toNat]? = some q → t.queues[inst.toNat]? = some q' →
          q'.entry? k = q.entry? k)
      ∧ (inst.toNat < s.cfg.ni → t.callerErr = s.callerErr)
      ∧ (s.cfg.ni ≤ inst.toNat → s.sameTx t ∧ t.curInst = s.curInst ∧ t.queues = s.queues)

/-! ### RECEIVE: acceptance -/

/-- R94: RECEIVE on a served instance latches the exact capacity and starts the poll. -/
def Obligations.RecvAcceptStartsThePoll : Prop :=
  ∀ (s : State) (inst : BitVec 4) (maxMsg maxLen : Byte),
    inst.toNat < s.cfg.ni → s.queues.length = s.cfg.ni →
      ∃ cap : BitVec 16, cap.toNat = maxMsg.toNat * maxLen.toNat
        ∧ exec (.recv inst maxMsg maxLen) s = .next { s with
            curInst := inst, rxCap := cap, rxAcc := 0, rxCnt := 0, rxJ := 0, fsm := .rxMode }

/-- What a RECEIVE's acceptance leaves unchanged: the queues and the output among it. -/
def Obligations.RecvAcceptFrame : Prop :=
  ∀ (s t : State) (inst : BitVec 4) (maxMsg maxLen : Byte), exec (.recv inst maxMsg maxLen) s = .next t →
    t.cfg = s.cfg ∧ s.sameTx t ∧ s.sameOut t ∧ s.sameBus t ∧ t.port = s.port ∧ t.queues = s.queues
      ∧ t.rxAvail = s.rxAvail ∧ t.rxLen = s.rxLen ∧ t.rxStn = s.rxStn ∧ t.rxW = s.rxW
      ∧ (inst.toNat < s.cfg.ni → t.callerErr = s.callerErr ∧ t.result = s.result ∧ t.count = s.count)
      ∧ (s.cfg.ni ≤ inst.toNat → s.sameRx t ∧ t.curInst = s.curInst ∧ t.fsm = s.fsm)

/-! ### The transmit steps -/

/-- R79: a data word is written and the word index advances; the last word of the message leads to its
size. Nothing else changes. -/
def Obligations.TxDataStepWritesOneWord : Prop :=
  ∀ (s : State) (d : Word) (rest : List Response), s.Inv → s.fsm = .txData → s.responses = .ok d :: rest →
    ∃ m e, s.cfg.regmap[s.curInst.toNat]? = some m ∧ s.txEntry = some e
      ∧ step s = .next { s with
          responses := rest, outstanding := none
          history := s.history ++
            [⟨.write, m.txData, some (txWord e.data e.len.toNat s.txW.toNat), some (.ok d)⟩]
          txW := s.txW + 1
          fsm := if s.txW.toNat + 1 = nwords e.len.toNat then .txSize else .txData }

/-- R80 and R81: the size, then the station, each alone in a 32-bit word. -/
def Obligations.TxSizeAndStationSteps : Prop :=
  ∀ (s : State) (d : Word) (rest : List Response), s.Inv → s.responses = .ok d :: rest →
    (s.fsm = .txSize → ∃ m e v, s.cfg.regmap[s.curInst.toNat]? = some m ∧ s.txEntry = some e
      ∧ BitVec.toNat (w := 32) v = e.len.toNat
      ∧ step s = .next { s with
          responses := rest, outstanding := none, fsm := .txStn
          history := s.history ++ [⟨.write, m.txSizeFifo, some v, some (.ok d)⟩] })
    ∧ (s.fsm = .txStn → ∃ m e v, s.cfg.regmap[s.curInst.toNat]? = some m ∧ s.txEntry = some e
      ∧ BitVec.toNat (w := 32) v = e.stn.toNat
      ∧ step s = .next { s with
          responses := rest, outstanding := none, fsm := .txMode
          history := s.history ++ [⟨.write, m.txStnFifo, some v, some (.ok d)⟩] })

/-- R82 and R83: a clear mode word counts the message and starts the next one. -/
def Obligations.TxModeStepStartsTheNextMessage : Prop :=
  ∀ (s : State) (d : Word) (rest : List Response), s.Inv → s.fsm = .txMode →
    s.responses = .ok d :: rest → d.getLsbD 4 = false → s.txM.toNat + 1 ≠ s.txN.toNat →
      ∃ m e e', s.cfg.regmap[s.curInst.toNat]? = some m ∧ s.txEntry = some e
        ∧ s.curQueue.entry? (s.txM.toNat + 1) = some e'
        ∧ step s = .next { s with
            responses := rest, outstanding := none
            history := s.history ++ [⟨.read, m.mode, some d, some (.ok d)⟩]
            txSent := s.txSent + 1, txTot := s.txTot + e.len.setWidth 32, txM := s.txM + 1, txW := 0
            fsm := if 0 < nwords e'.len.toNat then .txData else .txSize }

/-- R84 (with R82, R83): the last message's clear mode word completes the FLUSH with the number of
messages and the sum of their lengths. -/
def Obligations.LastTxModeStepCompletesTheFlush : Prop :=
  ∀ (s : State) (d : Word) (rest : List Response), s.Inv → s.fsm = .txMode →
    s.responses = .ok d :: rest → d.getLsbD 4 = false → s.txM.toNat + 1 = s.txN.toNat →
      ∃ t, step s = .next t ∧ t.fsm = .idle ∧ t.count.toNat = s.txN.toNat
        ∧ t.result.toNat = lenTotal (s.curQueue.entries.take s.txN.toNat)
        ∧ t.queues = emptied s.queues s.curInst.toNat
        ∧ t.callerErr = s.callerErr ∧ t.port = s.port ∧ t.cfg = s.cfg ∧ s.sameRx t ∧ s.sameOut t

/-- R82 and R126: a set bit 4 aborts the FLUSH with -214; the message is not counted, the queue is
emptied, and nothing else changes. -/
def Obligations.TxModeErrorBitAbortsTheFlush : Prop :=
  ∀ (s : State) (d : Word) (rest : List Response), s.Inv → s.fsm = .txMode →
    s.responses = .ok d :: rest → d.getLsbD 4 = true →
      ∃ m, s.cfg.regmap[s.curInst.toNat]? = some m
        ∧ step s = .next { s with
            responses := rest, outstanding := none
            history := s.history ++ [⟨.read, m.mode, some d, some (.ok d)⟩]
            result := i32 (-214), count := s.txSent, fsm := .idle
            queues := emptied s.queues s.curInst.toNat }

/-- R76: byte `k` of data word `w` is payload byte `4w + k`, and the bytes past the message's end are
zero. -/
def Obligations.DataWordIsLittleEndianAndZeroPadded : Prop :=
  ∀ (b : List Byte) (len w k : Nat), w < nwords len → k < 4 →
    byteOf (txWord b len w) k = if 4 * w + k < len then b.getD (4 * w + k) 0 else 0

/-! ### The abort -/

/-- R126: a `Fail` at any transaction ends the command in that step with `ERR_REGISTER_IO` and the partial
count, and a FLUSH empties its queue. Nothing else changes but the bus record. -/
def Obligations.BusFailureAbortsTheCommand : Prop :=
  ∀ (s : State) (rest : List Response), s.Inv → s.fsm ≠ .idle → s.responses = .fail :: rest →
    ∃ e : Event, e.response = some .fail
      ∧ step s = .next { s with
          responses := rest, outstanding := none, history := s.history ++ [e]
          result := i32 s.cfg.errRegisterIO
          count := if s.fsm.isTx then s.txSent else s.rxCnt
          queues := if s.fsm.isTx then emptied s.queues s.curInst.toNat else s.queues
          fsm := .idle }

/-! ### The receive steps -/

/-- R95: the mode word's count is latched; zero completes with nothing received, any other count starts
the first message. -/
def Obligations.RxModeStepLatchesTheCount : Prop :=
  ∀ (s : State) (d : Word) (rest : List Response), s.Inv → s.fsm = .rxMode → s.responses = .ok d :: rest →
    ∃ m, s.cfg.regmap[s.curInst.toNat]? = some m
      ∧ (d.toNat / 65536 % 32 = 0 → step s = .next { s with
          responses := rest, outstanding := none
          history := s.history ++ [⟨.read, m.mode, some d, some (.ok d)⟩]
          rxAvail := 0, result := 0, count := 0, fsm := .idle })
      ∧ (d.toNat / 65536 % 32 ≠ 0 → step s = .next { s with
          responses := rest, outstanding := none
          history := s.history ++ [⟨.read, m.mode, some d, some (.ok d)⟩]
          rxAvail := BitVec.ofNat 5 (d.toNat / 65536), fsm := .rxSize })

/-- R96: the size word's low byte is the length. -/
def Obligations.RxSizeStepTakesTheLength : Prop :=
  ∀ (s : State) (d : Word) (rest : List Response), s.Inv → s.fsm = .rxSize → s.responses = .ok d :: rest →
    ∃ m, s.cfg.regmap[s.curInst.toNat]? = some m
      ∧ step s = .next { s with
          responses := rest, outstanding := none
          history := s.history ++ [⟨.read, m.rxSizeFifo, some d, some (.ok d)⟩]
          rxLen := BitVec.ofNat 8 d.toNat, fsm := .rxStn }

/-- R97: the station is taken; a zero length aborts with -1120 before the capacity is looked at, a total
above the capacity with -1140, and any other message goes on to its data. -/
def Obligations.RxStationStepChecksTheHeader : Prop :=
  ∀ (s : State) (d : Word) (rest : List Response), s.Inv → s.fsm = .rxStn → s.responses = .ok d :: rest →
    ∃ m, s.cfg.regmap[s.curInst.toNat]? = some m
      ∧ (s.rxLen.toNat = 0 → step s = .next { s with
          responses := rest, outstanding := none
          history := s.history ++ [⟨.read, m.rxStnFifo, some d, some (.ok d)⟩]
          rxStn := BitVec.ofNat 5 d.toNat
          result := i32 (-1120), count := s.rxCnt, fsm := .idle })
      ∧ (s.rxLen.toNat ≠ 0 → s.rxCap.toNat < s.rxAcc.toNat + s.rxLen.toNat → step s = .next { s with
          responses := rest, outstanding := none
          history := s.history ++ [⟨.read, m.rxStnFifo, some d, some (.ok d)⟩]
          rxStn := BitVec.ofNat 5 d.toNat
          result := i32 (-1140), count := s.rxCnt, fsm := .idle })
      ∧ (s.rxLen.toNat ≠ 0 → s.rxAcc.toNat + s.rxLen.toNat ≤ s.rxCap.toNat → step s = .next { s with
          responses := rest, outstanding := none
          history := s.history ++ [⟨.read, m.rxStnFifo, some d, some (.ok d)⟩]
          rxStn := BitVec.ofNat 5 d.toNat, rxW := 0, fsm := .rxData })

/-- R98: the word's bytes that the message has go to `RXBUF` at their places, the others of the word are
ignored, and every other byte reads as before; short of the last word the step stays in `RX_DATA`. -/
def Obligations.RxDataStepStoresTheBytes : Prop :=
  ∀ (s : State) (d : Word) (rest : List Response), s.Inv → s.fsm = .rxData → s.responses = .ok d :: rest →
    ∃ t, step s = .next t
      ∧ t.rxW.toNat = s.rxW.toNat + 1
      ∧ (∀ a, t.rxBuf.read a =
          if s.rxAcc.toNat + 4 * s.rxW.toNat ≤ a
              ∧ a < s.rxAcc.toNat + min (4 * s.rxW.toNat + 4) s.rxLen.toNat then
            some (byteOf d (a - (s.rxAcc.toNat + 4 * s.rxW.toNat)))
          else s.rxBuf.read a)
      ∧ (s.rxW.toNat + 1 ≠ nwords s.rxLen.toNat →
          t.fsm = .rxData ∧ t.outLen = s.outLen ∧ t.outStn = s.outStn ∧ t.result = s.result
            ∧ t.count = s.count ∧ t.rxAcc = s.rxAcc ∧ t.rxCnt = s.rxCnt ∧ t.rxJ = s.rxJ)
      ∧ t.cfg = s.cfg ∧ t.curInst = s.curInst ∧ t.queues = s.queues ∧ t.callerErr = s.callerErr
      ∧ t.port = s.port ∧ s.sameTx t ∧ t.rxCap = s.rxCap ∧ t.rxAvail = s.rxAvail ∧ t.rxLen = s.rxLen
      ∧ t.rxStn = s.rxStn

/-- R99 and R100: the last word of a message records it and advances the counts; after the last message
the RECEIVE completes with the number of messages and the sum of their lengths. -/
def Obligations.LastRxDataStepRecordsTheMessage : Prop :=
  ∀ (s : State) (d : Word) (rest : List Response), s.Inv → s.fsm = .rxData → s.responses = .ok d :: rest →
    s.rxW.toNat + 1 = nwords s.rxLen.toNat →
      ∃ t, step s = .next t
        ∧ (∀ j, j < 31 → t.outLen[j]? = if j = s.rxJ.toNat then some (some s.rxLen) else s.outLen[j]?)
        ∧ (∀ j, j < 31 → t.outStn[j]? = if j = s.rxJ.toNat then some (some s.rxStn) else s.outStn[j]?)
        ∧ t.rxAcc.toNat = s.rxAcc.toNat + s.rxLen.toNat ∧ t.rxCnt.toNat = s.rxCnt.toNat + 1
        ∧ t.rxJ.toNat = s.rxJ.toNat + 1 ∧ t.queues = s.queues
        ∧ (t.rxJ ≠ s.rxAvail → t.fsm = .rxSize ∧ t.result = s.result ∧ t.count = s.count)
        ∧ (t.rxJ = s.rxAvail → t.fsm = .idle ∧ t.count.toNat = s.rxAvail.toNat ∧ t.result = t.rxAcc
            ∧ t.lenSum t.count.toNat = some t.result.toNat)

/-! ### Classifier and packing -/

/-- R115, R116, R118, R119: the decoders pick their fields of any word. -/
def Obligations.DecodersPickTheirFields : Prop :=
  ∀ d : Word,
    (txFifoError d = true ↔ d.toNat / 16 % 2 = 1)
      ∧ (rxAvailOf d).toNat = d.toNat / 65536 % 32
      ∧ (rxLenOf d).toNat = d.toNat % 256
      ∧ (rxPktFlags d).toNat = d.toNat / 512 % 8
      ∧ (rxStnOf d).toNat = d.toNat % 32

/-- R121 with R5: in an accepted configuration the nine codes are negative, survive in the 32-bit
register, and are pairwise distinct there. -/
def Obligations.ResultCodesAreNegativeAndDistinct : Prop :=
  ∀ c : Config, c.valid = true →
    (∀ k : ErrorKind, (i32 (resultCode c k)).toInt = resultCode c k ∧ resultCode c k < 0)
      ∧ ∀ k k' : ErrorKind, i32 (resultCode c k) = i32 (resultCode c k') → k = k'

/-- The source's packing round trip (95_test_vectors.md V-SRC-1): unpacking the packed data words of a
message gives its bytes back, for every length. -/
def Obligations.UnpackingPackedWordsGivesTheBytes : Prop :=
  ∀ b : List Byte, unpackFrom b.length 0 (txWords b b.length) = b

/-- The data words FLUSH writes of an enqueued message are its payload words, with the padding bytes of the
last one zero (R62, R76). -/
def Obligations.FlushWritesTheEnqueuedWords : Prop :=
  ∀ (len : Byte) (payload : List Word) (w k : Nat),
    payload.length = nwords len.toNat → w < nwords len.toNat → k < 4 →
      byteOf (txWord (payloadBytes len.toNat payload) len.toNat w) k
        = if 4 * w + k < len.toNat then byteOf (payload.getD w 0) k else 0

/-- R44: the OR form puts one value's low half above the other's. -/
def Obligations.PackedSetupValuesKeepTheirHalves : Prop :=
  ∀ hi lo : Word, (packParamOr hi lo).toNat = hi.toNat % 65536 * 65536 + lo.toNat % 65536

/-! ### Reset and configuration -/

/-- R34: the values the spec gives reset, and the elements that hold no value. -/
def Obligations.ResetStateHasTheSpecifiedValues : Prop :=
  ∀ c : Config, let s := State.resetWith c
    s.fsm = .idle ∧ s.curInst = 0 ∧ s.status = 0 ∧ s.result = 0 ∧ s.count = 0
      ∧ s.queues.length = c.ni
      ∧ (∀ (i : Nat) (q : WriteQueue), s.queues[i]? = some q → q.qlen = 0 ∧ ∀ k, q.entry? k = none)
      ∧ (∀ j, j < 31 → s.outLen[j]? = some none ∧ s.outStn[j]? = some none)
      ∧ ∀ k, s.rxBuf.read k = none

/-- A configuration is given its reset state exactly where it is accepted. The ten-register layout (R42) and
coinciding addresses (R41) are refused; that a parameter out of its range is refused is the model's inference
(DEDUCED, log 3). -/
def Obligations.ConfigurationIsAcceptedOrRefused : Prop :=
  (∀ c : Config, c.valid = true → configure c = .next (State.resetWith c))
    ∧ (∀ (c : Config) (t : State), configure c = .next t → c.valid = true ∧ t = State.resetWith c)
    ∧ (∀ c : Config, c.layout = .tenRegisters → configure c = .refused .tenRegisterLayout)
    ∧ (∀ c : Config, c.layout = .twelveRegisters → c.inRange = false →
        configure c = .refused .parameterOutOfRange)
    ∧ ∀ c : Config, c.layout = .twelveRegisters → c.inRange = true → ¬ c.allAddrs.Nodup →
        configure c = .refused .addressesNotDistinct

/-- R143 and R144: reset puts the block, whatever it was doing, into the reset state of its configuration and
issues no transaction; a running command ends without a completion. The model's choices in it: the zeros of
the working registers (log 1); the words at the port, the other answers and the history stay (log 7); and a
request outstanding at reset is recorded, with its answer where the device had given one, else with none until
a late answer puts it in, which changes nothing else (log 7). -/
def Obligations.ResetEventDropsTheCommand : Prop :=
  ∀ s : State,
    let base := { State.resetWith s.cfg with
      port := s.port, responses := s.responses, history := s.history }
    (s.outstanding = none → s.applyReset = base)
      ∧ (∀ q, s.outstanding = some q → s.responses = [] →
          s.applyReset = { base with history := s.history ++ [⟨q.kind, q.addr, q.data, none⟩] })
      ∧ (∀ q r rest, s.outstanding = some q → s.responses = r :: rest →
          s.applyReset = { base with responses := rest, history := s.history ++ [q.event r] })
      ∧ ∀ k r, ∃ h, s.lateAnswer k r = { s with history := h } ∧ h.length = s.history.length
          ∧ (∀ j, j ≠ k → h[j]? = s.history[j]?)
          ∧ (∀ e, s.history[k]? = some e → e.response ≠ none → h = s.history)
          ∧ ∀ q : BusReq, s.history[k]? = some ⟨q.kind, q.addr, q.data, none⟩ →
              h[k]? = some (q.event r)

/-- The reset state of the default configuration, and of every accepted one, has the invariant. -/
def Obligations.ResetHasTheInvariant : Prop :=
  State.reset.Inv ∧ ∀ c : Config, c.valid = true → (State.resetWith c).Inv

/-! ### Invariants and safety -/

/-- A step from any state with the invariant leads to a state with the invariant. -/
def Obligations.StepKeepsTheInvariant : Prop := ∀ s t : State, s.Inv → step s = .next t → t.Inv

/-- From any state with the invariant the next step neither faults nor refuses. -/
def Obligations.InvariantStatesNeverStop : Prop := ∀ s : State, s.Inv → s.Safe

/-- Every move of the block, the host and the device keeps the invariant, and so no run from an accepted
configuration ever stops. Which moves there are, and when, is the model's choice (DESIGN CHOICE, logs 7 and
15). -/
def Obligations.ReachableStatesNeverStop : Prop :=
  (∀ (s t : State) (m : Move), s.Inv → s.move m = .next t → t.Inv)
    ∧ ∀ s : State, Reachable s → s.Inv ∧ s.Safe

/-- R16: no step changes the configuration. -/
def Obligations.NoStepChangesTheConfiguration : Prop := ∀ s t : State, step s = .next t → t.cfg = s.cfg

/-- R134: `RESULT` and `COUNT` are written only by a step that leaves the block in `IDLE`, and not by one
that takes no command. -/
def Obligations.ResultsAreWrittenOnlyAtCompletion : Prop :=
  ∀ s t : State, step s = .next t →
    t.fsm ≠ .idle ∨ (s.fsm = .idle ∧ decode s.port = .incomplete) →
      t.result = s.result ∧ t.count = s.count

/-- R129: no step clears `CALLER_ERR`, and exactly an illegal command, an unresolved instance and an ENQUEUE
on a full queue set it; reset clears it. -/
def Obligations.CallerErrIsStickyAndSetByThreeCompletions : Prop :=
  ∀ s t : State, step s = .next t →
    (s.callerErr = true → t.callerErr = true)
      ∧ (s.callerErr = false → (t.callerErr = true ↔
          s.fsm = .idle ∧
            ((∃ why rest, decode s.port = .illegal why rest)
              ∨ ∃ i rest, decode s.port = .command i rest
                  ∧ (s.cfg.ni ≤ i.inst.toNat
                      ∨ ∃ inst len stn p q, i = .enq inst len stn p ∧ s.queues[inst.toNat]? = some q
                          ∧ q.qlen.toNat = s.cfg.qcap))))
      ∧ s.applyReset.callerErr = false

/-- R111: a step changes the queue of an instance only by an ENQUEUE or a FLUSH of that instance; a
running FLUSH only empties it, and no RECEIVE touches a queue. -/
def Obligations.QueuesChangeOnlyByTheirCommands : Prop :=
  ∀ (s t : State) (j : Nat), step s = .next t → t.queues[j]? ≠ s.queues[j]? →
    (s.fsm = .idle ∧ ∃ i rest, decode s.port = .command i rest ∧ i.inst.toNat = j
        ∧ ∀ inst a b, i ≠ .recv inst a b)
      ∨ (s.fsm.isTx = true ∧ s.curInst.toNat = j ∧ t.fsm = .idle
          ∧ t.queues[j]? = (s.queues[j]?).map fun q => { q with qlen := 0 })

/-- R122: a completing step leaves a byte total of at most 4080 or 7905, or one of the negative codes a
running command can meet. -/
def Obligations.CompletionResultTellsSuccessFromFailure : Prop :=
  ∀ s t : State, s.Inv → s.fsm ≠ .idle → step s = .next t → t.fsm = .idle →
    (s.fsm.isTx = true → (0 ≤ t.result.toInt ∧ t.result.toInt ≤ 4080)
        ∨ t.result.toInt = s.cfg.errRegisterIO ∨ t.result.toInt = -214)
      ∧ (s.fsm.isRx = true → (0 ≤ t.result.toInt ∧ t.result.toInt ≤ 7905)
        ∨ t.result.toInt = s.cfg.errRegisterIO ∨ t.result.toInt = -1120 ∨ t.result.toInt = -1140)

/-- R123: no step produces RxFifoError, MemoryExhausted or BufferParsingError. -/
def Obligations.ReservedCodesAreNeverProduced : Prop :=
  ∀ s t : State, s.Inv → step s = .next t → t.result ≠ s.result →
    t.result ≠ i32 (resultCode s.cfg .rxFifo) ∧ t.result ≠ i32 (resultCode s.cfg .memoryExhausted)
      ∧ t.result ≠ i32 (resultCode s.cfg .bufferParsing)

/-- R103: `RX_ACC` is within the capacity and the buffer while a RECEIVE runs, and a byte of `RXBUF` that a
step changes lies below the announced end of the running message, which is within both. -/
def Obligations.RxWritesStayBelowTheCapacity : Prop :=
  ∀ s : State, s.Inv →
    (s.fsm.isRx = true → s.rxAcc.toNat ≤ s.rxCap.toNat ∧ s.rxAcc.toNat ≤ 7905)
      ∧ ∀ (t : State) (a : Nat), step s = .next t → t.rxBuf.read a ≠ s.rxBuf.read a →
          s.fsm = .rxData ∧ s.rxAcc.toNat ≤ a ∧ a < s.rxAcc.toNat + s.rxLen.toNat
            ∧ s.rxAcc.toNat + s.rxLen.toNat ≤ s.rxCap.toNat ∧ a < 7905

/-- R107 (and R117 for the transmit side): bits of a device word outside the fields its state decodes have
no effect but on the record of what was read. -/
def Obligations.UndecodedBitsHaveNoEffect : Prop :=
  ∀ (s t : State) (d d' : Word) (rest : List Response), s.responses = .ok d :: rest → s.fsm ≠ .idle →
    (s.fsm = .txMode → d.getLsbD 4 = d'.getLsbD 4) →
    (s.fsm = .rxMode → d.toNat / 65536 % 32 = d'.toNat / 65536 % 32) →
    (s.fsm = .rxSize → d.toNat % 256 = d'.toNat % 256) →
    (s.fsm = .rxStn → d.toNat % 32 = d'.toNat % 32) →
    (s.fsm = .rxData → ∀ k, k < 4 → 4 * s.rxW.toNat + k < s.rxLen.toNat → byteOf d k = byteOf d' k) →
    step s = .next t →
      ∃ h, step { s with responses := .ok d' :: rest } = .next { t with history := h }

/-- R27 with R101: after a RECEIVE ends, by success or abort, every message below `COUNT` is there to be
read: its length, its station and all its bytes, by the host's reads too. -/
def Obligations.ReceivedMessagesAreReadable : Prop :=
  ∀ s t : State, s.Inv → s.fsm.isRx = true → step s = .next t → t.fsm = .idle →
    ∀ j, j < t.count.toNat → ∃ stn bytes l off, t.message? j = some (stn, bytes)
      ∧ t.outLen[j]? = some (some l) ∧ bytes.length = l.toNat ∧ t.lenSum j = some off
      ∧ hostRead t (.rxlen j) = .ok (l.setWidth 32) ∧ hostRead t (.rxstn j) = .ok (stn.setWidth 32)
      ∧ ∀ k b, bytes[k]? = some b → hostRead t (.rxbuf (off + k)) = .ok (b.setWidth 32)

/-! ### Host reads -/

/-- R20: `STATUS` reads `BUSY` in bit 0 exactly outside `IDLE`, `CALLER_ERR` in bit 1, and zero above. -/
def Obligations.StatusReadsBusyAndCallerErr : Prop :=
  ∀ s : State, ∃ v, hostRead s .status = .ok v
    ∧ v.toNat = (if s.fsm = .idle then 0 else 1) + (if s.callerErr then 2 else 0)

/-- R31, R142, R148: in `IDLE` the host reads `RESULT`, `COUNT`, every served queue's length and the receive
output of the valid region; a stale element and one that holds no value give a fault, and so does an index
that no element has. While `BUSY` is 1 only `STATUS` is read. That these reads are faults and that `RX_CNT` and
`RX_ACC` bound the valid region is the model's reading (logs 5 and 15). -/
def Obligations.HostReadsElementsOrFaults : Prop :=
  ∀ s : State,
    (∀ r, s.fsm ≠ .idle → r ≠ .status → hostRead s r = .error .hostReadWhileBusy)
    ∧ (s.fsm = .idle →
      hostRead s .result = .ok s.result
      ∧ (∃ v, hostRead s .count = .ok v ∧ v.toNat = s.count.toNat)
      ∧ (∀ i q, s.queues[i]? = some q → ∃ v, hostRead s (.qlen i) = .ok v ∧ v.toNat = q.qlen.toNat)
      ∧ (∀ i, s.queues.length ≤ i → hostRead s (.qlen i) = .error .hostNoSuchElement)
      ∧ (∀ k, 7905 ≤ k → hostRead s (.rxbuf k) = .error .hostNoSuchElement)
      ∧ (∀ k, k < 7905 → (s.rxAcc.toNat ≤ k ∨ s.rxBuf.read k = none) →
          hostRead s (.rxbuf k) = .error .hostReadNoValue)
      ∧ (∀ k b, k < 7905 → k < s.rxAcc.toNat → s.rxBuf.read k = some b →
          ∃ v, hostRead s (.rxbuf k) = .ok v ∧ v.toNat = b.toNat)
      ∧ (∀ j, 31 ≤ j → hostRead s (.rxlen j) = .error .hostNoSuchElement
          ∧ hostRead s (.rxstn j) = .error .hostNoSuchElement)
      ∧ (∀ j, j < 31 → (s.rxCnt.toNat ≤ j ∨ s.outLen[j]? = some none) →
          hostRead s (.rxlen j) = .error .hostReadNoValue)
      ∧ (∀ j, j < 31 → (s.rxCnt.toNat ≤ j ∨ s.outStn[j]? = some none) →
          hostRead s (.rxstn j) = .error .hostReadNoValue)
      ∧ (∀ j b, j < s.rxCnt.toNat → s.outLen[j]? = some (some b) →
          ∃ v, hostRead s (.rxlen j) = .ok v ∧ v.toNat = b.toNat)
      ∧ ∀ j b, j < s.rxCnt.toNat → s.outStn[j]? = some (some b) →
          ∃ v, hostRead s (.rxstn j) = .ok v ∧ v.toNat = b.toNat)

/-! ### Whole commands -/

/-- R75: a FLUSH, from acceptance on and one step a transaction, does what the algorithm of R75 says of
the device's answers: its result, its count, its transactions, the queue emptied. -/
def Obligations.FlushRunIsItsAlgorithm : Prop :=
  ∀ (s : State) (inst : BitVec 4) (burst : Byte) (q : WriteQueue) (m : RegMap) (r : FlushEnd),
    s.Inv → s.fsm = .idle → s.queues[inst.toNat]? = some q → s.cfg.regmap[inst.toNat]? = some m →
    flushAlgorithm s.cfg m q burst s.responses = some r →
      ∃ s1 t : State, exec (.flush inst burst) s = .next s1
        ∧ Host.Core.run Sys2Proof.core r.events.length s1 = .next t
        ∧ t.fsm = .idle ∧ t.result = r.result ∧ t.count.toNat = r.count
        ∧ t.history = s.history ++ r.events ∧ t.responses = r.rest
        ∧ t.queues = emptied s.queues inst.toNat
        ∧ t.callerErr = s.callerErr ∧ t.port = s.port ∧ t.cfg = s.cfg ∧ s.sameRx t ∧ s.sameOut t

/-- R91: a RECEIVE, from acceptance on and one step a transaction, does what the algorithm of R91 says of
the device's answers: its result, its count, its transactions, its output. -/
def Obligations.RecvRunIsItsAlgorithm : Prop :=
  ∀ (s : State) (inst : BitVec 4) (maxMsg maxLen : Byte) (m : RegMap) (r : RecvEnd),
    s.Inv → s.fsm = .idle → s.cfg.regmap[inst.toNat]? = some m →
    recvAlgorithm s.cfg m maxMsg maxLen s.rxOut s.responses = some r →
      ∃ s1 t : State, exec (.recv inst maxMsg maxLen) s = .next s1
        ∧ Host.Core.run Sys2Proof.core r.events.length s1 = .next t
        ∧ t.fsm = .idle ∧ t.result = r.result ∧ t.count.toNat = r.count
        ∧ t.history = s.history ++ r.events ∧ t.responses = r.rest ∧ t.rxOut = r.out
        ∧ t.queues = s.queues
        ∧ t.callerErr = s.callerErr ∧ t.port = s.port ∧ t.cfg = s.cfg ∧ s.sameTx t

/-- R86: a FLUSH whose `COUNT` is the number of messages it was to send has issued, message by message, its
data writes, one size write, one station write and one mode read, and no others: these are the records that
its steps, up to its completion, append to the history. The premise that the algorithm of R75 ends says that
the device answers. -/
def Obligations.SuccessfulFlushTransactions : Prop :=
  ∀ (s : State) (inst : BitVec 4) (burst : Byte) (q : WriteQueue) (m : RegMap) (r : FlushEnd),
    let msgs := q.entries.take (min (min q.qlen.toNat burst.toNat) 16)
    s.Inv → s.fsm = .idle → s.queues[inst.toNat]? = some q → s.cfg.regmap[inst.toNat]? = some m →
    flushAlgorithm s.cfg m q burst s.responses = some r →
      ∃ (s1 t : State) (evs : List Event), exec (.flush inst burst) s = .next s1
        ∧ Host.Core.run Sys2Proof.core evs.length s1 = .next t ∧ t.fsm = .idle
        ∧ t.history = s.history ++ evs
        ∧ (t.count.toNat = msgs.length →
            evs.map (fun e => (e.kind, e.addr)) = msgs.flatMap fun e =>
              List.replicate (nwords e.len.toNat) (BusKind.write, m.txData)
                ++ [(.write, m.txSizeFifo), (.write, m.txStnFifo), (.read, m.mode)])

/-- R87: `COUNT` after a FLUSH is the number of mode reads, among the records its steps append to the history,
that returned a word with bit 4 clear. The premise that the algorithm of R75 ends says that the device
answers. -/
def Obligations.FlushCountIsTheClearModeReads : Prop :=
  ∀ (s : State) (inst : BitVec 4) (burst : Byte) (q : WriteQueue) (m : RegMap) (r : FlushEnd),
    s.Inv → s.fsm = .idle → s.queues[inst.toNat]? = some q → s.cfg.regmap[inst.toNat]? = some m →
    flushAlgorithm s.cfg m q burst s.responses = some r →
      ∃ (s1 t : State) (evs : List Event), exec (.flush inst burst) s = .next s1
        ∧ Host.Core.run Sys2Proof.core evs.length s1 = .next t ∧ t.fsm = .idle
        ∧ t.history = s.history ++ evs
        ∧ t.count.toNat = (evs.filter fun e => match e.kind, e.response with
            | .read, some (.ok d) => !d.getLsbD 4
            | .read, some .fail => false
            | .read, none => false
            | .write, _ => false).length

/-- R105: a RECEIVE whose `COUNT` is the available number has read the mode once, then for each message its
size, its station and its data words, and nothing else: these are the records that its steps, up to its
completion, append to the history. The premise that the algorithm of R91 ends says that the device answers. -/
def Obligations.SuccessfulRecvTransactions : Prop :=
  ∀ (s : State) (inst : BitVec 4) (maxMsg maxLen : Byte) (m : RegMap) (d : Word) (rs : List Response)
    (r : RecvEnd),
    s.Inv → s.fsm = .idle → s.cfg.regmap[inst.toNat]? = some m → s.responses = .ok d :: rs →
    recvAlgorithm s.cfg m maxMsg maxLen s.rxOut s.responses = some r →
      ∃ (s1 t : State) (evs : List Event), exec (.recv inst maxMsg maxLen) s = .next s1
        ∧ Host.Core.run Sys2Proof.core evs.length s1 = .next t ∧ t.fsm = .idle
        ∧ t.history = s.history ++ evs
        ∧ (t.count.toNat = (rxAvailOf d).toNat →
            evs.map (fun e => (e.kind, e.addr))
              = (BusKind.read, m.mode) :: (List.range t.count.toNat).flatMap fun j =>
                  [(.read, m.rxSizeFifo), (.read, m.rxStnFifo)]
                    ++ List.replicate
                        (nwords (match t.outLen[j]? with
                          | some (some l) => l.toNat
                          | some none => 0
                          | none => 0))
                        (.read, m.rxData))
end

