-- ==== Sys2Proof/Laws/Algorithms.lean ====
section
/-! SUPPORT. What issuing a list of requests records: its transactions, when all are answered `Ok`. -/

namespace Sys2Proof.Machine

open Sys2Proof

/-- Requests that all succeed are recorded in order, each at its address (R38, R51). -/
theorem sendAll_done {qs : List BusReq} {rs rest : List Response} {ds : List Word} {evs : List Event}
    (h : sendAll qs rs = .done ds evs rest) :
    evs.map (fun e => (e.kind, e.addr)) = qs.map (fun q => (q.kind, q.addr)) := by
  induction qs generalizing rs ds evs rest with
  | nil => cases h; rfl
  | cons q qs ih =>
    cases rs with
    | nil => cases h
    | cons r rs =>
      cases r with
      | fail => cases h
      | ok d =>
        simp only [sendAll] at h
        split at h <;> cases h
        rename_i hd
        simp [ih hd, BusReq.event]

theorem messageWrites_write (m : RegMap) (e : QEntry) : ∀ q ∈ messageWrites m e, q.kind = .write := by
  intro q hq
  simp only [messageWrites, List.mem_append, List.mem_map, List.mem_cons, List.not_mem_nil,
    or_false] at hq
  rcases hq with ⟨v, _, rfl⟩ | rfl | rfl <;> rfl

end Sys2Proof.Machine
end

