-- ==== Sys2Proof/Laws/Operands.lean ====
section
/-! SUPPORT. Word counts, byte selection, and the two directions of packing. -/

namespace Sys2Proof.Machine

open Sys2Proof

theorem nwords_zero : nwords 0 = 0 := rfl

theorem nwords_pos {n : Nat} : 0 < nwords n ↔ 0 < n := by
  unfold nwords; split <;> omega

/-- `nwords` is the number of words that covers the bytes. -/
theorem nwords_bounds (n : Nat) : n ≤ 4 * nwords n ∧ 4 * nwords n < n + 4 := by
  unfold nwords; split <;> omega

theorem nwords_le_64 (b : Byte) : nwords b.toNat ≤ 64 := by
  have := b.isLt; have := nwords_bounds b.toNat; omega

@[simp] theorem length_payloadBytes (n : Nat) (p : List Word) : (payloadBytes n p).length = n := by
  simp [payloadBytes]

theorem getElem?_payloadBytes {n t : Nat} (p : List Word) (h : t < n) :
    (payloadBytes n p)[t]? = some (byteOf (p.getD (t / 4) 0) (t % 4)) := by
  simp [payloadBytes, h]

@[simp] theorem length_unpackWord (d : Word) (len w : Nat) :
    (unpackWord d len w).length = min 4 (len - 4 * w) := by
  simp [unpackWord]

theorem getElem?_unpackWord {d : Word} {len w k : Nat} (h : k < min 4 (len - 4 * w)) :
    (unpackWord d len w)[k]? = some (byteOf d k) := by
  simp only [unpackWord, List.getElem?_map, List.getElem?_range h, Option.map_some]

@[simp] theorem length_txWords (b : List Byte) (n : Nat) : (txWords b n).length = nwords n := by
  simp [txWords]

theorem byteOf_le32_0 (a b c d : Byte) : byteOf (le32 a b c d) 0 = a := by
  ext i hi
  simp only [byteOf, le32, BitVec.getElem_extractLsb', BitVec.getLsbD_or, BitVec.getLsbD_shiftLeft,
    BitVec.getLsbD_setWidth, Nat.mul_zero, Nat.zero_add]
  have h2 : i < 16 := by omega
  have h3 : i < 24 := by omega
  have h4 : i < 32 := by omega
  simp [h2, h3, h4, hi, BitVec.getLsbD_eq_getElem]

theorem byteOf_le32_1 (a b c d : Byte) : byteOf (le32 a b c d) 1 = b := by
  ext i hi
  simp only [byteOf, le32, BitVec.getElem_extractLsb', BitVec.getLsbD_or, BitVec.getLsbD_shiftLeft,
    BitVec.getLsbD_setWidth]
  have e : 8 * 1 + i - 8 = i := by omega
  have h1 : ¬ 8 * 1 + i < 8 := by omega
  have h2 : 8 * 1 + i < 16 := by omega
  have h3 : 8 * 1 + i < 24 := by omega
  have h4 : 8 * 1 + i < 32 := by omega
  have h5 : i < 32 := by omega
  simp [e, h1, h2, h3, h4, h5, BitVec.getLsbD_eq_getElem, hi]

theorem byteOf_le32_2 (a b c d : Byte) : byteOf (le32 a b c d) 2 = c := by
  ext i hi
  simp only [byteOf, le32, BitVec.getElem_extractLsb', BitVec.getLsbD_or, BitVec.getLsbD_shiftLeft,
    BitVec.getLsbD_setWidth]
  have e : 8 * 2 + i - 16 = i := by omega
  have h1 : ¬ 8 * 2 + i < 8 := by omega
  have h2 : ¬ 8 * 2 + i < 16 := by omega
  have h3 : 8 * 2 + i < 24 := by omega
  have h4 : 8 * 2 + i < 32 := by omega
  have h5 : i < 32 := by omega
  have h6 : a.getLsbD (8 * 2 + i) = false := BitVec.getLsbD_of_ge _ _ (by omega)
  have h7 : b.getLsbD (8 * 2 + i - 8) = false := BitVec.getLsbD_of_ge _ _ (by omega)
  simp [e, h1, h2, h3, h4, h5, h6, h7, BitVec.getLsbD_eq_getElem, hi]

theorem byteOf_le32_3 (a b c d : Byte) : byteOf (le32 a b c d) 3 = d := by
  ext i hi
  simp only [byteOf, le32, BitVec.getElem_extractLsb', BitVec.getLsbD_or, BitVec.getLsbD_shiftLeft,
    BitVec.getLsbD_setWidth]
  have e : 8 * 3 + i - 24 = i := by omega
  have h1 : ¬ 8 * 3 + i < 8 := by omega
  have h2 : ¬ 8 * 3 + i < 16 := by omega
  have h3 : ¬ 8 * 3 + i < 24 := by omega
  have h4 : 8 * 3 + i < 32 := by omega
  have h5 : i < 32 := by omega
  have h6 : a.getLsbD (8 * 3 + i) = false := BitVec.getLsbD_of_ge _ _ (by omega)
  have h7 : b.getLsbD (8 * 3 + i - 8) = false := BitVec.getLsbD_of_ge _ _ (by omega)
  have h8 : c.getLsbD (8 * 3 + i - 16) = false := BitVec.getLsbD_of_ge _ _ (by omega)
  simp [e, h1, h2, h3, h4, h5, h6, h7, h8, BitVec.getLsbD_eq_getElem, hi]

/-- The partial word is a full word with zero bytes (R76). -/
theorem txWord_eq_le32 (b : List Byte) (len w : Nat) :
    txWord b len w
      = if 4 * w + 4 ≤ len then
          le32 (b.getD (4 * w) 0) (b.getD (4 * w + 1) 0) (b.getD (4 * w + 2) 0) (b.getD (4 * w + 3) 0)
        else
          le32 (b.getD (4 * w) 0) (if 2 ≤ len % 4 then b.getD (4 * w + 1) 0 else 0)
            (if len % 4 = 3 then b.getD (4 * w + 2) 0 else 0) 0 := by
  unfold txWord
  by_cases h : 4 * w + 4 ≤ len
  · simp [h]
  · simp only [h, if_false, Nat.add_zero]
    unfold le32
    by_cases h2 : 2 ≤ len % 4 <;> by_cases h3 : len % 4 = 3 <;> simp [h2, h3]

/-- Byte `k` of data word `w` is payload byte `4w + k`, for the bytes the message has (R47, R76). -/
theorem byteOf_txWord {b : List Byte} {len w k : Nat} (hk : k < 4) (hl : 4 * w + k < len) :
    byteOf (txWord b len w) k = b.getD (4 * w + k) 0 := by
  rw [txWord_eq_le32]
  by_cases h : 4 * w + 4 ≤ len
  · rw [if_pos h]
    match k, hk with
    | 0, _ => exact byteOf_le32_0 ..
    | 1, _ => exact byteOf_le32_1 ..
    | 2, _ => exact byteOf_le32_2 ..
    | 3, _ => exact byteOf_le32_3 ..
  · rw [if_neg h]
    match k, hk with
    | 0, _ => exact byteOf_le32_0 ..
    | 1, _ => rw [byteOf_le32_1, if_pos (by omega)]
    | 2, _ => rw [byteOf_le32_2, if_pos (by omega)]
    | 3, _ => omega

/-- Unpacking a packed data word gives the bytes it carries. -/
theorem unpackWord_txWord {b : List Byte} {len w : Nat} (hlen : len ≤ b.length) :
    unpackWord (txWord b len w) len w = (b.drop (4 * w)).take (min 4 (len - 4 * w)) := by
  have hb := nwords_bounds len
  apply List.ext_getElem?
  intro k
  by_cases hk : k < min 4 (len - 4 * w)
  · rw [getElem?_unpackWord hk, byteOf_txWord (by omega) (by omega)]
    rw [List.getElem?_take_of_lt hk, List.getElem?_drop]
    have : 4 * w + k < b.length := by omega
    simp [List.getD_eq_getElem?_getD, List.getElem?_eq_getElem this]
  · rw [List.getElem?_eq_none (by rw [length_unpackWord]; omega), List.getElem?_eq_none (by simp; omega)]

/-- A number that fits a register is kept by it. -/
theorem toNat_ofNat_lt {w n : Nat} (h : n < 2 ^ w) : (BitVec.ofNat w n).toNat = n := by
  simp [Nat.mod_eq_of_lt h]

end Sys2Proof.Machine
end

