-- ==== Sys2Proof/Laws/Decode.lean ====
section
/-! SUPPORT. The fields of an encoded command word, and a legal word's fields put back together. -/

namespace Sys2Proof

open Machine (nwords)

@[simp] theorem fieldOp_enq (inst : BitVec 4) (len : Byte) (stn : Station) (p : List Word) :
    fieldOp (encodeWord (.enq inst len stn p)) = 1#4 := by
  ext i hi
  simp only [fieldOp, encodeWord, BitVec.getElem_extractLsb']
  interval_cases i <;> simp

@[simp] theorem fieldOp_flush (inst : BitVec 4) (burst : Byte) :
    fieldOp (encodeWord (.flush inst burst)) = 2#4 := by
  ext i hi
  simp only [fieldOp, encodeWord, BitVec.getElem_extractLsb']
  interval_cases i <;> simp

@[simp] theorem fieldOp_recv (inst : BitVec 4) (maxMsg maxLen : Byte) :
    fieldOp (encodeWord (.recv inst maxMsg maxLen)) = 3#4 := by
  ext i hi
  simp only [fieldOp, encodeWord, BitVec.getElem_extractLsb']
  interval_cases i <;> simp

@[simp] theorem fieldInst_enq (inst : BitVec 4) (len : Byte) (stn : Station) (p : List Word) :
    fieldInst (encodeWord (.enq inst len stn p)) = inst := by
  ext i hi
  simp only [fieldInst, encodeWord, BitVec.getElem_extractLsb']
  interval_cases i <;> simp [BitVec.getLsbD_eq_getElem]

@[simp] theorem fieldInst_flush (inst : BitVec 4) (burst : Byte) :
    fieldInst (encodeWord (.flush inst burst)) = inst := by
  ext i hi
  simp only [fieldInst, encodeWord, BitVec.getElem_extractLsb']
  interval_cases i <;> simp [BitVec.getLsbD_eq_getElem]

@[simp] theorem fieldInst_recv (inst : BitVec 4) (maxMsg maxLen : Byte) :
    fieldInst (encodeWord (.recv inst maxMsg maxLen)) = inst := by
  ext i hi
  simp only [fieldInst, encodeWord, BitVec.getElem_extractLsb']
  interval_cases i <;> simp [BitVec.getLsbD_eq_getElem]

@[simp] theorem fieldA_enq (inst : BitVec 4) (len : Byte) (stn : Station) (p : List Word) :
    fieldA (encodeWord (.enq inst len stn p)) = len := by
  ext i hi
  simp only [fieldA, encodeWord, BitVec.getElem_extractLsb']
  interval_cases i <;> simp [BitVec.getLsbD_eq_getElem]

@[simp] theorem fieldA_flush (inst : BitVec 4) (burst : Byte) :
    fieldA (encodeWord (.flush inst burst)) = burst := by
  ext i hi
  simp only [fieldA, encodeWord, BitVec.getElem_extractLsb']
  interval_cases i <;> simp [BitVec.getLsbD_eq_getElem]

@[simp] theorem fieldA_recv (inst : BitVec 4) (maxMsg maxLen : Byte) :
    fieldA (encodeWord (.recv inst maxMsg maxLen)) = maxMsg := by
  ext i hi
  simp only [fieldA, encodeWord, BitVec.getElem_extractLsb']
  interval_cases i <;> simp [BitVec.getLsbD_eq_getElem]

@[simp] theorem fieldStn_enq (inst : BitVec 4) (len : Byte) (stn : Station) (p : List Word) :
    fieldStn (encodeWord (.enq inst len stn p)) = stn := by
  ext i hi
  simp only [fieldStn, encodeWord, BitVec.getElem_extractLsb']
  interval_cases i <;> simp [BitVec.getLsbD_eq_getElem]

@[simp] theorem fieldB_recv (inst : BitVec 4) (maxMsg maxLen : Byte) :
    fieldB (encodeWord (.recv inst maxMsg maxLen)) = maxLen := by
  ext i hi
  simp only [fieldB, encodeWord, BitVec.getElem_extractLsb']
  interval_cases i <;> simp [BitVec.getLsbD_eq_getElem]

/-- The reserved bits of an encoded command word are zero and its opcode stands (R67). -/
theorem mask_enq (inst : BitVec 4) (len : Byte) (stn : Station) (p : List Word) :
    encodeWord (.enq inst len stn p) &&& 0xFFE0000F#32 = 1#32 := by
  ext i hi
  simp only [encodeWord]
  interval_cases i <;> simp

theorem mask_flush (inst : BitVec 4) (burst : Byte) :
    encodeWord (.flush inst burst) &&& 0xFFFF000F#32 = 2#32 := by
  ext i hi
  simp only [encodeWord]
  interval_cases i <;> simp

theorem mask_recv (inst : BitVec 4) (maxMsg maxLen : Byte) :
    encodeWord (.recv inst maxMsg maxLen) &&& 0xFF00000F#32 = 3#32 := by
  ext i hi
  simp only [encodeWord]
  interval_cases i <;> simp

/-- `illegal?` by cases on the opcode (R66, R67). -/
theorem illegal?_eq (w : Word) :
    illegal? w
      = if fieldOp w = 1#4 then (if w &&& 0xFFE0000F#32 = 1#32 then none else some .reservedBits)
        else if fieldOp w = 2#4 then (if w &&& 0xFFFF000F#32 = 2#32 then none else some .reservedBits)
        else if fieldOp w = 3#4 then (if w &&& 0xFF00000F#32 = 3#32 then none else some .reservedBits)
        else some .reservedOp := by
  unfold illegal? opRows
  by_cases h1 : fieldOp w = 1#4
  · simp [h1]
  · by_cases h2 : fieldOp w = 2#4
    · simp [h2]
    · by_cases h3 : fieldOp w = 3#4
      · simp [h3]
      · have e1 : ((0x1 : BitVec 4) == fieldOp w) = false := beq_eq_false_iff_ne.mpr (Ne.symm h1)
        have e2 : ((0x2 : BitVec 4) == fieldOp w) = false := beq_eq_false_iff_ne.mpr (Ne.symm h2)
        have e3 : ((0x3 : BitVec 4) == fieldOp w) = false := beq_eq_false_iff_ne.mpr (Ne.symm h3)
        rw [if_neg h1, if_neg h2, if_neg h3]
        simp only [List.find?, e1, e2, e3]

/-- A word that matches a row has that row's opcode. -/
theorem fieldOp_of_mask {w m : Word} {k : BitVec 4} (hm : m.extractLsb' 0 4 = 0xF#4)
    (h : w &&& m = k.setWidth 32) : fieldOp w = k := by
  have h' : (w &&& m).extractLsb' 0 4 = (k.setWidth 32).extractLsb' 0 4 := by rw [h]
  have e1 : (w &&& m).extractLsb' 0 4 = w.extractLsb' 0 4 &&& m.extractLsb' 0 4 := by
    ext i hi; simp
  have e2 : (k.setWidth 32).extractLsb' 0 4 = k := by
    ext i hi
    have : i < 32 := by omega
    simp [hi, this, BitVec.getLsbD_eq_getElem]
  rw [e1, hm, e2] at h'
  rw [← h', fieldOp]
  ext i hi
  have : i < 32 := by omega
  simp only [BitVec.getElem_extractLsb', BitVec.getElem_and]
  interval_cases i <;> simp

theorem encodeWord_enq_fields {w : Word} (h : w &&& 0xFFE0000F#32 = 1#32) (p : List Word) :
    encodeWord (.enq (fieldInst w) (fieldA w) (fieldStn w) p) = w := by
  ext i hi
  have hb : (w &&& 0xFFE0000F#32)[i] = (1#32)[i] := by simp only [h]
  simp only [encodeWord, fieldInst, fieldA, fieldStn]
  rw [BitVec.getElem_and] at hb
  interval_cases i <;> simp_all [BitVec.getLsbD_eq_getElem]

theorem encodeWord_flush_fields {w : Word} (h : w &&& 0xFFFF000F#32 = 2#32) :
    encodeWord (.flush (fieldInst w) (fieldA w)) = w := by
  ext i hi
  have hb : (w &&& 0xFFFF000F#32)[i] = (2#32)[i] := by simp only [h]
  simp only [encodeWord, fieldInst, fieldA]
  rw [BitVec.getElem_and] at hb
  interval_cases i <;> simp_all [BitVec.getLsbD_eq_getElem]

theorem encodeWord_recv_fields {w : Word} (h : w &&& 0xFF00000F#32 = 3#32) :
    encodeWord (.recv (fieldInst w) (fieldA w) (fieldB w)) = w := by
  ext i hi
  have hb : (w &&& 0xFF00000F#32)[i] = (3#32)[i] := by simp only [h]
  simp only [encodeWord, fieldInst, fieldA, fieldB]
  rw [BitVec.getElem_and] at hb
  interval_cases i <;> simp_all [BitVec.getLsbD_eq_getElem]

/-- Decoding by the length of what is present (R65, R70). -/
theorem decode_cons (w : Word) (ws : List Word) :
    decode (w :: ws)
      = if ws.length < payloadCount w then .incomplete
        else match illegal? w with
          | some why => .illegal why (ws.drop (payloadCount w))
          | none =>
            .command (assembleFields w (ws.take (payloadCount w))) (ws.drop (payloadCount w)) := rfl

end Sys2Proof
end

