-- ==== Sys2Proof/Laws/Flags.lean ====
section
/-! SUPPORT. The classifier's decoders as numbers. -/

namespace Sys2Proof.Machine

open Sys2Proof

theorem rxAvailOf_toNat (d : Word) : (rxAvailOf d).toNat = d.toNat / 65536 % 32 := by
  simp [rxAvailOf, BitVec.extractLsb'_toNat, Nat.shiftRight_eq_div_pow]

theorem rxLenOf_toNat (d : Word) : (rxLenOf d).toNat = d.toNat % 256 := by
  simp [rxLenOf, BitVec.extractLsb'_toNat]

theorem rxStnOf_toNat (d : Word) : (rxStnOf d).toNat = d.toNat % 32 := by
  simp [rxStnOf, BitVec.extractLsb'_toNat]

theorem rxPktFlags_toNat (d : Word) : (rxPktFlags d).toNat = d.toNat / 512 % 8 := by
  simp [rxPktFlags, BitVec.extractLsb'_toNat, Nat.shiftRight_eq_div_pow]

theorem rxAvailOf_eq (d : Word) : rxAvailOf d = BitVec.ofNat 5 (d.toNat / 65536) := by
  apply BitVec.eq_of_toNat_eq; rw [rxAvailOf_toNat]; simp

theorem rxLenOf_eq (d : Word) : rxLenOf d = BitVec.ofNat 8 d.toNat := by
  apply BitVec.eq_of_toNat_eq; rw [rxLenOf_toNat]; simp

theorem rxStnOf_eq (d : Word) : rxStnOf d = BitVec.ofNat 5 d.toNat := by
  apply BitVec.eq_of_toNat_eq; rw [rxStnOf_toNat]; simp

/-- `STATUS` as a number (R20). -/
theorem status_toNat (s : State) :
    s.status.toNat = (if s.fsm = .idle then 0 else 1) + (if s.callerErr then 2 else 0) := by
  unfold State.status State.busy
  cases h : s.fsm <;> cases hc : s.callerErr <;> decide

/-- A code in `i32` range survives in the register (R12). -/
theorem i32_toInt {z : Int} (h1 : -2147483648 ≤ z) (h2 : z < 2147483648) : (i32 z).toInt = z := by
  unfold i32
  rw [BitVec.toInt_ofInt]
  exact Int.bmod_eq_of_le (by omega) (by omega)

end Sys2Proof.Machine
end

