-- ==== Sys2Proof/Laws/HostSide.lean ====
section
/-! SUPPORT. The host's reads in each state of the block, and the record of a request that a reset drops. -/

namespace Sys2Proof.Machine

open Sys2Proof

theorem State.busy_eq_true_iff (s : State) : s.busy = true ↔ s.fsm ≠ .idle := by
  simp [State.busy]

theorem State.resultRead_idle {s : State} (h : s.fsm = .idle) (v : Except Fault Word) :
    s.resultRead v = v := by
  simp [State.resultRead, State.busy, h]

theorem State.resultRead_busy {s : State} (h : s.fsm ≠ .idle) (v : Except Fault Word) :
    s.resultRead v = .error .hostReadWhileBusy := by
  simp [State.resultRead, State.busy, h]

/-- A read of a receive-output element, by the valid region and what the element holds (R27, R31, I23). -/
theorem readValid_eq {n : Nat} (valid : Bool) (v : Option (BitVec n)) :
    readValid valid v = match valid, v with
      | true, some b => .ok (b.setWidth 32)
      | true, none => .error .hostReadNoValue
      | false, _ => .error .hostReadNoValue := by
  cases valid <;> cases v <;> rfl

@[simp] theorem State.lateAnswer_eq (s : State) (k : Nat) (r : Response) :
    s.lateAnswer k r = { s with history := s.history.modify k fun e => e.late r } := rfl

/-- A late answer completes the record of a dropped request (R38). -/
@[simp] theorem BusReq.late_unanswered (q : BusReq) (r : Response) : q.unanswered.late r = q.event r := rfl

/-- A record that holds a response keeps it. -/
theorem Event.late_of_answered {e : Event} (h : e.response ≠ none) (r : Response) : e.late r = e := by
  unfold Event.late
  split
  · rfl
  · contradiction

end Sys2Proof.Machine
end

