-- ==== Sys2Proof/Laws/Memory.lean ====
section
/-! SUPPORT. The byte storage: read after write, and the canonical form under every operation. -/

namespace Sys2Proof.Machine

open Sys2Proof

@[simp] theorem Memory.read_nil (a : Nat) : Memory.read [] a = none := rfl

@[simp] theorem Memory.writeBytes_nil (m : Memory) (a : Nat) : Memory.writeBytes m a [] = m := by
  cases m <;> rfl

@[simp] theorem Memory.writeBytes_cons (m : Memory) (a : Nat) (v : Byte) (vs : List Byte) :
    Memory.writeBytes m a (v :: vs) = Memory.writeBytes (Memory.write m a v) (a + 1) vs := by
  cases m <;> rfl

theorem Memory.read_below {m : Memory} {a b : Nat} (h : Memory.risingFrom m b = true) (hab : a < b) :
    Memory.read m a = none := by
  induction m generalizing b with
  | nil => rfl
  | cons c m ih =>
    obtain ⟨x, v⟩ := c
    simp only [Memory.risingFrom, Bool.and_eq_true, decide_eq_true_eq] at h
    have hx : a ≠ x := by omega
    simp only [Memory.read, hx, if_false]
    exact ih h.2 (by omega)

theorem Memory.read_write {m : Memory} {b : Nat} (h : Memory.risingFrom m b = true) (a x : Nat) (v : Byte) :
    Memory.read (Memory.write m a v) x = if x = a then some v else Memory.read m x := by
  induction m generalizing b with
  | nil => simp [Memory.write, Memory.read]
  | cons c m ih =>
    obtain ⟨y, w⟩ := c
    simp only [Memory.risingFrom, Bool.and_eq_true, decide_eq_true_eq] at h
    by_cases h1 : a < y
    · simp only [Memory.write, h1, if_true, Memory.read]
    · by_cases h2 : a = y
      · subst h2
        simp only [Memory.write, Nat.lt_irrefl, if_false, if_true, Memory.read]
        by_cases hx : x = a <;> simp [hx]
      · simp only [Memory.write, h1, h2, if_false, Memory.read, ih h.2]
        by_cases hx : x = y
        · subst hx; simp [Ne.symm h2]
        · simp [hx]

theorem Memory.risingFrom_write {m : Memory} {b : Nat} (h : Memory.risingFrom m b = true) {a : Nat}
    (hab : b ≤ a) (v : Byte) : Memory.risingFrom (Memory.write m a v) b = true := by
  induction m generalizing b with
  | nil => simp [Memory.write, Memory.risingFrom, hab]
  | cons c m ih =>
    obtain ⟨y, w⟩ := c
    simp only [Memory.risingFrom, Bool.and_eq_true, decide_eq_true_eq] at h
    by_cases h1 : a < y
    · simp only [Memory.write, h1, if_true, Memory.risingFrom, Bool.and_eq_true, decide_eq_true_eq]
      exact ⟨hab, by omega, h.2⟩
    · by_cases h2 : a = y
      · subst h2
        simp [Memory.write, Memory.risingFrom, h]
      · simp only [Memory.write, h1, h2, if_false, Memory.risingFrom, Bool.and_eq_true,
          decide_eq_true_eq]
        exact ⟨h.1, ih h.2 (by omega)⟩

theorem Memory.all_write {m : Memory} {p : Nat → Bool} (h : m.all (fun c => p c.1) = true) {a : Nat}
    (ha : p a = true) (v : Byte) : (Memory.write m a v).all (fun c => p c.1) = true := by
  induction m with
  | nil => simp [Memory.write, ha]
  | cons c m ih =>
    obtain ⟨y, w⟩ := c
    simp only [List.all_cons, Bool.and_eq_true] at h
    by_cases h1 : a < y
    · simp [Memory.write, h1, ha, h.1, h.2]
    · by_cases h2 : a = y
      · simp [Memory.write, h2, h.1, h.2]
      · simp [Memory.write, h1, h2, h.1, ih h.2]

/-- A write below `RXBUF_BYTES` keeps the canonical form. -/
theorem Memory.wf_write {m : Memory} (h : m.wf = true) {a : Nat} (ha : a < rxBufBytes) (v : Byte) :
    (Memory.write m a v).wf = true := by
  simp only [Memory.wf, Bool.and_eq_true] at h ⊢
  exact ⟨Memory.risingFrom_write h.1 (Nat.zero_le _) v,
    Memory.all_write (p := fun x => decide (x < rxBufBytes)) h.2 (by simpa using ha) v⟩

theorem Memory.wf_rising {m : Memory} (h : m.wf = true) : Memory.risingFrom m 0 = true := by
  simp only [Memory.wf, Bool.and_eq_true] at h; exact h.1

/-- A byte that is read is listed. -/
theorem Memory.mem_of_read {m : Memory} {a : Nat} {v : Byte} (h : m.read a = some v) : (a, v) ∈ m := by
  induction m with
  | nil => cases h
  | cons c m ih =>
    obtain ⟨b, x⟩ := c
    unfold Memory.read at h
    split at h
    · rename_i e; cases h; subst e; exact List.mem_cons_self ..
    · exact List.mem_cons_of_mem _ (ih h)

/-- A byte that `RXBUF` holds lies inside it. -/
theorem Memory.lt_of_read {m : Memory} (hw : m.wf = true) {a : Nat} {v : Byte} (h : m.read a = some v) :
    a < rxBufBytes := by
  simp only [Memory.wf, Bool.and_eq_true, List.all_eq_true, decide_eq_true_eq] at hw
  exact hw.2 _ (Memory.mem_of_read h)

/-- Writing bytes that end at or below `RXBUF_BYTES` keeps the canonical form. -/
theorem Memory.wf_writeBytes {m : Memory} (h : m.wf = true) {a : Nat} {vs : List Byte}
    (ha : a + vs.length ≤ rxBufBytes) : (Memory.writeBytes m a vs).wf = true := by
  induction vs generalizing m a with
  | nil => simpa using h
  | cons v vs ih =>
    simp only [List.length_cons] at ha
    rw [Memory.writeBytes_cons]
    exact ih (Memory.wf_write h (by omega) v) (by omega)

/-- What reading one byte gives after writing bytes. -/
theorem Memory.read_writeBytes {m : Memory} (h : Memory.risingFrom m 0 = true) (a x : Nat) (vs : List Byte) :
    Memory.read (Memory.writeBytes m a vs) x
      = if a ≤ x ∧ x < a + vs.length then vs[x - a]? else Memory.read m x := by
  induction vs generalizing m a with
  | nil =>
    have : ¬ (a ≤ x ∧ x < a + ([] : List Byte).length) := by simp only [List.length_nil]; omega
    rw [Memory.writeBytes_nil, if_neg this]
  | cons v vs ih =>
    rw [Memory.writeBytes_cons, ih (Memory.risingFrom_write h (Nat.zero_le _) v), Memory.read_write h]
    simp only [List.length_cons]
    by_cases hx : x = a
    · subst hx
      have h1 : ¬ (x + 1 ≤ x ∧ x < x + 1 + vs.length) := by omega
      have h2 : x ≤ x ∧ x < x + (vs.length + 1) := by omega
      rw [if_neg h1, if_pos rfl, if_pos h2]; simp
    · rw [if_neg hx]
      by_cases h1 : a + 1 ≤ x ∧ x < a + 1 + vs.length
      · have h2 : a ≤ x ∧ x < a + (vs.length + 1) := by omega
        rw [if_pos h1, if_pos h2]
        have : x - a = (x - (a + 1)) + 1 := by omega
        rw [this, List.getElem?_cons_succ]
      · have h2 : ¬ (a ≤ x ∧ x < a + (vs.length + 1)) := by omega
        rw [if_neg h1, if_neg h2]

/-- A byte outside the written range reads as before. -/
theorem Memory.read_writeBytes_outside {m : Memory} (h : Memory.risingFrom m 0 = true) {a x : Nat}
    {vs : List Byte} (hx : x < a ∨ a + vs.length ≤ x) :
    Memory.read (Memory.writeBytes m a vs) x = Memory.read m x := by
  rw [Memory.read_writeBytes h, if_neg (by omega)]

/-- A byte that held a value still holds one after writes. -/
theorem Memory.held_writeBytes {m : Memory} (h : Memory.risingFrom m 0 = true) {a x : Nat} {vs : List Byte}
    (hx : ∃ b, Memory.read m x = some b) : ∃ b, Memory.read (Memory.writeBytes m a vs) x = some b := by
  rw [Memory.read_writeBytes h]
  split
  · rename_i hc
    have : x - a < vs.length := by omega
    exact ⟨_, List.getElem?_eq_getElem this⟩
  · exact hx

theorem Memory.writeBytes_append (m : Memory) (a : Nat) (u v : List Byte) :
    Memory.writeBytes m a (u ++ v) = Memory.writeBytes (Memory.writeBytes m a u) (a + u.length) v := by
  induction u generalizing m a with
  | nil => simp
  | cons x u ih =>
    simp only [List.cons_append, Memory.writeBytes_cons, ih, List.length_cons]
    congr 1; omega

end Sys2Proof.Machine
end

