-- ==== Sys2Proof/Laws/State.lean ====
section
/-! SUPPORT. One lemma per field for each named update of the state. -/

namespace Sys2Proof.Machine

open Sys2Proof

@[simp] theorem State.emptyQueue_cfg (s : State) (i : Nat) :
    (s.emptyQueue i).cfg = s.cfg := rfl
@[simp] theorem State.emptyQueue_fsm (s : State) (i : Nat) :
    (s.emptyQueue i).fsm = s.fsm := rfl
@[simp] theorem State.emptyQueue_curInst (s : State) (i : Nat) :
    (s.emptyQueue i).curInst = s.curInst := rfl
@[simp] theorem State.emptyQueue_callerErr (s : State) (i : Nat) :
    (s.emptyQueue i).callerErr = s.callerErr := rfl
@[simp] theorem State.emptyQueue_result (s : State) (i : Nat) :
    (s.emptyQueue i).result = s.result := rfl
@[simp] theorem State.emptyQueue_count (s : State) (i : Nat) :
    (s.emptyQueue i).count = s.count := rfl
@[simp] theorem State.emptyQueue_queues (s : State) (i : Nat) :
    (s.emptyQueue i).queues = s.queues.modify i fun q => { q with qlen := 0 } := rfl
@[simp] theorem State.emptyQueue_txN (s : State) (i : Nat) :
    (s.emptyQueue i).txN = s.txN := rfl
@[simp] theorem State.emptyQueue_txM (s : State) (i : Nat) :
    (s.emptyQueue i).txM = s.txM := rfl
@[simp] theorem State.emptyQueue_txW (s : State) (i : Nat) :
    (s.emptyQueue i).txW = s.txW := rfl
@[simp] theorem State.emptyQueue_txSent (s : State) (i : Nat) :
    (s.emptyQueue i).txSent = s.txSent := rfl
@[simp] theorem State.emptyQueue_txTot (s : State) (i : Nat) :
    (s.emptyQueue i).txTot = s.txTot := rfl
@[simp] theorem State.emptyQueue_rxCap (s : State) (i : Nat) :
    (s.emptyQueue i).rxCap = s.rxCap := rfl
@[simp] theorem State.emptyQueue_rxAvail (s : State) (i : Nat) :
    (s.emptyQueue i).rxAvail = s.rxAvail := rfl
@[simp] theorem State.emptyQueue_rxJ (s : State) (i : Nat) :
    (s.emptyQueue i).rxJ = s.rxJ := rfl
@[simp] theorem State.emptyQueue_rxLen (s : State) (i : Nat) :
    (s.emptyQueue i).rxLen = s.rxLen := rfl
@[simp] theorem State.emptyQueue_rxStn (s : State) (i : Nat) :
    (s.emptyQueue i).rxStn = s.rxStn := rfl
@[simp] theorem State.emptyQueue_rxW (s : State) (i : Nat) :
    (s.emptyQueue i).rxW = s.rxW := rfl
@[simp] theorem State.emptyQueue_rxAcc (s : State) (i : Nat) :
    (s.emptyQueue i).rxAcc = s.rxAcc := rfl
@[simp] theorem State.emptyQueue_rxCnt (s : State) (i : Nat) :
    (s.emptyQueue i).rxCnt = s.rxCnt := rfl
@[simp] theorem State.emptyQueue_outLen (s : State) (i : Nat) :
    (s.emptyQueue i).outLen = s.outLen := rfl
@[simp] theorem State.emptyQueue_outStn (s : State) (i : Nat) :
    (s.emptyQueue i).outStn = s.outStn := rfl
@[simp] theorem State.emptyQueue_rxBuf (s : State) (i : Nat) :
    (s.emptyQueue i).rxBuf = s.rxBuf := rfl
@[simp] theorem State.emptyQueue_port (s : State) (i : Nat) :
    (s.emptyQueue i).port = s.port := rfl
@[simp] theorem State.emptyQueue_responses (s : State) (i : Nat) :
    (s.emptyQueue i).responses = s.responses := rfl
@[simp] theorem State.emptyQueue_outstanding (s : State) (i : Nat) :
    (s.emptyQueue i).outstanding = s.outstanding := rfl
@[simp] theorem State.emptyQueue_history (s : State) (i : Nat) :
    (s.emptyQueue i).history = s.history := rfl

@[simp] theorem State.complete_cfg (s : State) (r : Word) (n : Byte) :
    (s.complete r n).cfg = s.cfg := rfl
@[simp] theorem State.complete_fsm (s : State) (r : Word) (n : Byte) :
    (s.complete r n).fsm = .idle := rfl
@[simp] theorem State.complete_curInst (s : State) (r : Word) (n : Byte) :
    (s.complete r n).curInst = s.curInst := rfl
@[simp] theorem State.complete_callerErr (s : State) (r : Word) (n : Byte) :
    (s.complete r n).callerErr = s.callerErr := rfl
@[simp] theorem State.complete_result (s : State) (r : Word) (n : Byte) :
    (s.complete r n).result = r := rfl
@[simp] theorem State.complete_count (s : State) (r : Word) (n : Byte) :
    (s.complete r n).count = n := rfl
@[simp] theorem State.complete_queues (s : State) (r : Word) (n : Byte) :
    (s.complete r n).queues = s.queues := rfl
@[simp] theorem State.complete_txN (s : State) (r : Word) (n : Byte) :
    (s.complete r n).txN = s.txN := rfl
@[simp] theorem State.complete_txM (s : State) (r : Word) (n : Byte) :
    (s.complete r n).txM = s.txM := rfl
@[simp] theorem State.complete_txW (s : State) (r : Word) (n : Byte) :
    (s.complete r n).txW = s.txW := rfl
@[simp] theorem State.complete_txSent (s : State) (r : Word) (n : Byte) :
    (s.complete r n).txSent = s.txSent := rfl
@[simp] theorem State.complete_txTot (s : State) (r : Word) (n : Byte) :
    (s.complete r n).txTot = s.txTot := rfl
@[simp] theorem State.complete_rxCap (s : State) (r : Word) (n : Byte) :
    (s.complete r n).rxCap = s.rxCap := rfl
@[simp] theorem State.complete_rxAvail (s : State) (r : Word) (n : Byte) :
    (s.complete r n).rxAvail = s.rxAvail := rfl
@[simp] theorem State.complete_rxJ (s : State) (r : Word) (n : Byte) :
    (s.complete r n).rxJ = s.rxJ := rfl
@[simp] theorem State.complete_rxLen (s : State) (r : Word) (n : Byte) :
    (s.complete r n).rxLen = s.rxLen := rfl
@[simp] theorem State.complete_rxStn (s : State) (r : Word) (n : Byte) :
    (s.complete r n).rxStn = s.rxStn := rfl
@[simp] theorem State.complete_rxW (s : State) (r : Word) (n : Byte) :
    (s.complete r n).rxW = s.rxW := rfl
@[simp] theorem State.complete_rxAcc (s : State) (r : Word) (n : Byte) :
    (s.complete r n).rxAcc = s.rxAcc := rfl
@[simp] theorem State.complete_rxCnt (s : State) (r : Word) (n : Byte) :
    (s.complete r n).rxCnt = s.rxCnt := rfl
@[simp] theorem State.complete_outLen (s : State) (r : Word) (n : Byte) :
    (s.complete r n).outLen = s.outLen := rfl
@[simp] theorem State.complete_outStn (s : State) (r : Word) (n : Byte) :
    (s.complete r n).outStn = s.outStn := rfl
@[simp] theorem State.complete_rxBuf (s : State) (r : Word) (n : Byte) :
    (s.complete r n).rxBuf = s.rxBuf := rfl
@[simp] theorem State.complete_port (s : State) (r : Word) (n : Byte) :
    (s.complete r n).port = s.port := rfl
@[simp] theorem State.complete_responses (s : State) (r : Word) (n : Byte) :
    (s.complete r n).responses = s.responses := rfl
@[simp] theorem State.complete_outstanding (s : State) (r : Word) (n : Byte) :
    (s.complete r n).outstanding = s.outstanding := rfl
@[simp] theorem State.complete_history (s : State) (r : Word) (n : Byte) :
    (s.complete r n).history = s.history := rfl

@[simp] theorem State.reject_cfg (s : State) (k : ErrorKind) :
    (s.reject k).cfg = s.cfg := rfl
@[simp] theorem State.reject_fsm (s : State) (k : ErrorKind) :
    (s.reject k).fsm = s.fsm := rfl
@[simp] theorem State.reject_curInst (s : State) (k : ErrorKind) :
    (s.reject k).curInst = s.curInst := rfl
@[simp] theorem State.reject_callerErr (s : State) (k : ErrorKind) :
    (s.reject k).callerErr = true := rfl
@[simp] theorem State.reject_result (s : State) (k : ErrorKind) :
    (s.reject k).result = i32 (resultCode s.cfg k) := rfl
@[simp] theorem State.reject_count (s : State) (k : ErrorKind) :
    (s.reject k).count = 0 := rfl
@[simp] theorem State.reject_queues (s : State) (k : ErrorKind) :
    (s.reject k).queues = s.queues := rfl
@[simp] theorem State.reject_txN (s : State) (k : ErrorKind) :
    (s.reject k).txN = s.txN := rfl
@[simp] theorem State.reject_txM (s : State) (k : ErrorKind) :
    (s.reject k).txM = s.txM := rfl
@[simp] theorem State.reject_txW (s : State) (k : ErrorKind) :
    (s.reject k).txW = s.txW := rfl
@[simp] theorem State.reject_txSent (s : State) (k : ErrorKind) :
    (s.reject k).txSent = s.txSent := rfl
@[simp] theorem State.reject_txTot (s : State) (k : ErrorKind) :
    (s.reject k).txTot = s.txTot := rfl
@[simp] theorem State.reject_rxCap (s : State) (k : ErrorKind) :
    (s.reject k).rxCap = s.rxCap := rfl
@[simp] theorem State.reject_rxAvail (s : State) (k : ErrorKind) :
    (s.reject k).rxAvail = s.rxAvail := rfl
@[simp] theorem State.reject_rxJ (s : State) (k : ErrorKind) :
    (s.reject k).rxJ = s.rxJ := rfl
@[simp] theorem State.reject_rxLen (s : State) (k : ErrorKind) :
    (s.reject k).rxLen = s.rxLen := rfl
@[simp] theorem State.reject_rxStn (s : State) (k : ErrorKind) :
    (s.reject k).rxStn = s.rxStn := rfl
@[simp] theorem State.reject_rxW (s : State) (k : ErrorKind) :
    (s.reject k).rxW = s.rxW := rfl
@[simp] theorem State.reject_rxAcc (s : State) (k : ErrorKind) :
    (s.reject k).rxAcc = s.rxAcc := rfl
@[simp] theorem State.reject_rxCnt (s : State) (k : ErrorKind) :
    (s.reject k).rxCnt = s.rxCnt := rfl
@[simp] theorem State.reject_outLen (s : State) (k : ErrorKind) :
    (s.reject k).outLen = s.outLen := rfl
@[simp] theorem State.reject_outStn (s : State) (k : ErrorKind) :
    (s.reject k).outStn = s.outStn := rfl
@[simp] theorem State.reject_rxBuf (s : State) (k : ErrorKind) :
    (s.reject k).rxBuf = s.rxBuf := rfl
@[simp] theorem State.reject_port (s : State) (k : ErrorKind) :
    (s.reject k).port = s.port := rfl
@[simp] theorem State.reject_responses (s : State) (k : ErrorKind) :
    (s.reject k).responses = s.responses := rfl
@[simp] theorem State.reject_outstanding (s : State) (k : ErrorKind) :
    (s.reject k).outstanding = s.outstanding := rfl
@[simp] theorem State.reject_history (s : State) (k : ErrorKind) :
    (s.reject k).history = s.history := rfl

@[simp] theorem State.answered_cfg (s : State) (q : BusReq) (r : Response) (rest : List Response) :
    (s.answered q r rest).cfg = s.cfg := rfl
@[simp] theorem State.answered_fsm (s : State) (q : BusReq) (r : Response) (rest : List Response) :
    (s.answered q r rest).fsm = s.fsm := rfl
@[simp] theorem State.answered_curInst (s : State) (q : BusReq) (r : Response) (rest : List Response) :
    (s.answered q r rest).curInst = s.curInst := rfl
@[simp] theorem State.answered_callerErr (s : State) (q : BusReq) (r : Response) (rest : List Response) :
    (s.answered q r rest).callerErr = s.callerErr := rfl
@[simp] theorem State.answered_result (s : State) (q : BusReq) (r : Response) (rest : List Response) :
    (s.answered q r rest).result = s.result := rfl
@[simp] theorem State.answered_count (s : State) (q : BusReq) (r : Response) (rest : List Response) :
    (s.answered q r rest).count = s.count := rfl
@[simp] theorem State.answered_queues (s : State) (q : BusReq) (r : Response) (rest : List Response) :
    (s.answered q r rest).queues = s.queues := rfl
@[simp] theorem State.answered_txN (s : State) (q : BusReq) (r : Response) (rest : List Response) :
    (s.answered q r rest).txN = s.txN := rfl
@[simp] theorem State.answered_txM (s : State) (q : BusReq) (r : Response) (rest : List Response) :
    (s.answered q r rest).txM = s.txM := rfl
@[simp] theorem State.answered_txW (s : State) (q : BusReq) (r : Response) (rest : List Response) :
    (s.answered q r rest).txW = s.txW := rfl
@[simp] theorem State.answered_txSent (s : State) (q : BusReq) (r : Response) (rest : List Response) :
    (s.answered q r rest).txSent = s.txSent := rfl
@[simp] theorem State.answered_txTot (s : State) (q : BusReq) (r : Response) (rest : List Response) :
    (s.answered q r rest).txTot = s.txTot := rfl
@[simp] theorem State.answered_rxCap (s : State) (q : BusReq) (r : Response) (rest : List Response) :
    (s.answered q r rest).rxCap = s.rxCap := rfl
@[simp] theorem State.answered_rxAvail (s : State) (q : BusReq) (r : Response) (rest : List Response) :
    (s.answered q r rest).rxAvail = s.rxAvail := rfl
@[simp] theorem State.answered_rxJ (s : State) (q : BusReq) (r : Response) (rest : List Response) :
    (s.answered q r rest).rxJ = s.rxJ := rfl
@[simp] theorem State.answered_rxLen (s : State) (q : BusReq) (r : Response) (rest : List Response) :
    (s.answered q r rest).rxLen = s.rxLen := rfl
@[simp] theorem State.answered_rxStn (s : State) (q : BusReq) (r : Response) (rest : List Response) :
    (s.answered q r rest).rxStn = s.rxStn := rfl
@[simp] theorem State.answered_rxW (s : State) (q : BusReq) (r : Response) (rest : List Response) :
    (s.answered q r rest).rxW = s.rxW := rfl
@[simp] theorem State.answered_rxAcc (s : State) (q : BusReq) (r : Response) (rest : List Response) :
    (s.answered q r rest).rxAcc = s.rxAcc := rfl
@[simp] theorem State.answered_rxCnt (s : State) (q : BusReq) (r : Response) (rest : List Response) :
    (s.answered q r rest).rxCnt = s.rxCnt := rfl
@[simp] theorem State.answered_outLen (s : State) (q : BusReq) (r : Response) (rest : List Response) :
    (s.answered q r rest).outLen = s.outLen := rfl
@[simp] theorem State.answered_outStn (s : State) (q : BusReq) (r : Response) (rest : List Response) :
    (s.answered q r rest).outStn = s.outStn := rfl
@[simp] theorem State.answered_rxBuf (s : State) (q : BusReq) (r : Response) (rest : List Response) :
    (s.answered q r rest).rxBuf = s.rxBuf := rfl
@[simp] theorem State.answered_port (s : State) (q : BusReq) (r : Response) (rest : List Response) :
    (s.answered q r rest).port = s.port := rfl
@[simp] theorem State.answered_responses (s : State) (q : BusReq) (r : Response) (rest : List Response) :
    (s.answered q r rest).responses = rest := rfl
@[simp] theorem State.answered_outstanding (s : State) (q : BusReq) (r : Response) (rest : List Response) :
    (s.answered q r rest).outstanding = none := rfl
@[simp] theorem State.answered_history (s : State) (q : BusReq) (r : Response) (rest : List Response) :
    (s.answered q r rest).history = s.history ++ [q.event r] := rfl

@[simp] theorem State.take_cfg (s : State) (rest : List Word) :
    (s.take rest).cfg = s.cfg := rfl
@[simp] theorem State.take_fsm (s : State) (rest : List Word) :
    (s.take rest).fsm = s.fsm := rfl
@[simp] theorem State.take_curInst (s : State) (rest : List Word) :
    (s.take rest).curInst = s.curInst := rfl
@[simp] theorem State.take_callerErr (s : State) (rest : List Word) :
    (s.take rest).callerErr = s.callerErr := rfl
@[simp] theorem State.take_result (s : State) (rest : List Word) :
    (s.take rest).result = s.result := rfl
@[simp] theorem State.take_count (s : State) (rest : List Word) :
    (s.take rest).count = s.count := rfl
@[simp] theorem State.take_queues (s : State) (rest : List Word) :
    (s.take rest).queues = s.queues := rfl
@[simp] theorem State.take_txN (s : State) (rest : List Word) :
    (s.take rest).txN = s.txN := rfl
@[simp] theorem State.take_txM (s : State) (rest : List Word) :
    (s.take rest).txM = s.txM := rfl
@[simp] theorem State.take_txW (s : State) (rest : List Word) :
    (s.take rest).txW = s.txW := rfl
@[simp] theorem State.take_txSent (s : State) (rest : List Word) :
    (s.take rest).txSent = s.txSent := rfl
@[simp] theorem State.take_txTot (s : State) (rest : List Word) :
    (s.take rest).txTot = s.txTot := rfl
@[simp] theorem State.take_rxCap (s : State) (rest : List Word) :
    (s.take rest).rxCap = s.rxCap := rfl
@[simp] theorem State.take_rxAvail (s : State) (rest : List Word) :
    (s.take rest).rxAvail = s.rxAvail := rfl
@[simp] theorem State.take_rxJ (s : State) (rest : List Word) :
    (s.take rest).rxJ = s.rxJ := rfl
@[simp] theorem State.take_rxLen (s : State) (rest : List Word) :
    (s.take rest).rxLen = s.rxLen := rfl
@[simp] theorem State.take_rxStn (s : State) (rest : List Word) :
    (s.take rest).rxStn = s.rxStn := rfl
@[simp] theorem State.take_rxW (s : State) (rest : List Word) :
    (s.take rest).rxW = s.rxW := rfl
@[simp] theorem State.take_rxAcc (s : State) (rest : List Word) :
    (s.take rest).rxAcc = s.rxAcc := rfl
@[simp] theorem State.take_rxCnt (s : State) (rest : List Word) :
    (s.take rest).rxCnt = s.rxCnt := rfl
@[simp] theorem State.take_outLen (s : State) (rest : List Word) :
    (s.take rest).outLen = s.outLen := rfl
@[simp] theorem State.take_outStn (s : State) (rest : List Word) :
    (s.take rest).outStn = s.outStn := rfl
@[simp] theorem State.take_rxBuf (s : State) (rest : List Word) :
    (s.take rest).rxBuf = s.rxBuf := rfl
@[simp] theorem State.take_port (s : State) (rest : List Word) :
    (s.take rest).port = rest := rfl
@[simp] theorem State.take_responses (s : State) (rest : List Word) :
    (s.take rest).responses = s.responses := rfl
@[simp] theorem State.take_outstanding (s : State) (rest : List Word) :
    (s.take rest).outstanding = s.outstanding := rfl
@[simp] theorem State.take_history (s : State) (rest : List Word) :
    (s.take rest).history = s.history := rfl

@[simp] theorem State.flushInit_cfg (s : State) (j : BitVec 4) (n : Nat) :
    (s.flushInit j n).cfg = s.cfg := rfl
@[simp] theorem State.flushInit_fsm (s : State) (j : BitVec 4) (n : Nat) :
    (s.flushInit j n).fsm = s.fsm := rfl
@[simp] theorem State.flushInit_curInst (s : State) (j : BitVec 4) (n : Nat) :
    (s.flushInit j n).curInst = j := rfl
@[simp] theorem State.flushInit_callerErr (s : State) (j : BitVec 4) (n : Nat) :
    (s.flushInit j n).callerErr = s.callerErr := rfl
@[simp] theorem State.flushInit_result (s : State) (j : BitVec 4) (n : Nat) :
    (s.flushInit j n).result = s.result := rfl
@[simp] theorem State.flushInit_count (s : State) (j : BitVec 4) (n : Nat) :
    (s.flushInit j n).count = s.count := rfl
@[simp] theorem State.flushInit_queues (s : State) (j : BitVec 4) (n : Nat) :
    (s.flushInit j n).queues = s.queues := rfl
@[simp] theorem State.flushInit_txN (s : State) (j : BitVec 4) (n : Nat) :
    (s.flushInit j n).txN = BitVec.ofNat 5 n := rfl
@[simp] theorem State.flushInit_txM (s : State) (j : BitVec 4) (n : Nat) :
    (s.flushInit j n).txM = 0 := rfl
@[simp] theorem State.flushInit_txW (s : State) (j : BitVec 4) (n : Nat) :
    (s.flushInit j n).txW = 0 := rfl
@[simp] theorem State.flushInit_txSent (s : State) (j : BitVec 4) (n : Nat) :
    (s.flushInit j n).txSent = 0 := rfl
@[simp] theorem State.flushInit_txTot (s : State) (j : BitVec 4) (n : Nat) :
    (s.flushInit j n).txTot = 0 := rfl
@[simp] theorem State.flushInit_rxCap (s : State) (j : BitVec 4) (n : Nat) :
    (s.flushInit j n).rxCap = s.rxCap := rfl
@[simp] theorem State.flushInit_rxAvail (s : State) (j : BitVec 4) (n : Nat) :
    (s.flushInit j n).rxAvail = s.rxAvail := rfl
@[simp] theorem State.flushInit_rxJ (s : State) (j : BitVec 4) (n : Nat) :
    (s.flushInit j n).rxJ = s.rxJ := rfl
@[simp] theorem State.flushInit_rxLen (s : State) (j : BitVec 4) (n : Nat) :
    (s.flushInit j n).rxLen = s.rxLen := rfl
@[simp] theorem State.flushInit_rxStn (s : State) (j : BitVec 4) (n : Nat) :
    (s.flushInit j n).rxStn = s.rxStn := rfl
@[simp] theorem State.flushInit_rxW (s : State) (j : BitVec 4) (n : Nat) :
    (s.flushInit j n).rxW = s.rxW := rfl
@[simp] theorem State.flushInit_rxAcc (s : State) (j : BitVec 4) (n : Nat) :
    (s.flushInit j n).rxAcc = s.rxAcc := rfl
@[simp] theorem State.flushInit_rxCnt (s : State) (j : BitVec 4) (n : Nat) :
    (s.flushInit j n).rxCnt = s.rxCnt := rfl
@[simp] theorem State.flushInit_outLen (s : State) (j : BitVec 4) (n : Nat) :
    (s.flushInit j n).outLen = s.outLen := rfl
@[simp] theorem State.flushInit_outStn (s : State) (j : BitVec 4) (n : Nat) :
    (s.flushInit j n).outStn = s.outStn := rfl
@[simp] theorem State.flushInit_rxBuf (s : State) (j : BitVec 4) (n : Nat) :
    (s.flushInit j n).rxBuf = s.rxBuf := rfl
@[simp] theorem State.flushInit_port (s : State) (j : BitVec 4) (n : Nat) :
    (s.flushInit j n).port = s.port := rfl
@[simp] theorem State.flushInit_responses (s : State) (j : BitVec 4) (n : Nat) :
    (s.flushInit j n).responses = s.responses := rfl
@[simp] theorem State.flushInit_outstanding (s : State) (j : BitVec 4) (n : Nat) :
    (s.flushInit j n).outstanding = s.outstanding := rfl
@[simp] theorem State.flushInit_history (s : State) (j : BitVec 4) (n : Nat) :
    (s.flushInit j n).history = s.history := rfl

@[simp] theorem State.flushDone_cfg (s : State) :
    (s.flushDone).cfg = s.cfg := rfl
@[simp] theorem State.flushDone_fsm (s : State) :
    (s.flushDone).fsm = .idle := rfl
@[simp] theorem State.flushDone_curInst (s : State) :
    (s.flushDone).curInst = s.curInst := rfl
@[simp] theorem State.flushDone_callerErr (s : State) :
    (s.flushDone).callerErr = s.callerErr := rfl
@[simp] theorem State.flushDone_result (s : State) :
    (s.flushDone).result = s.txTot := rfl
@[simp] theorem State.flushDone_count (s : State) :
    (s.flushDone).count = s.txSent := rfl
@[simp] theorem State.flushDone_queues (s : State) :
    (s.flushDone).queues = s.queues.modify s.curInst.toNat fun q => { q with qlen := 0 } := rfl
@[simp] theorem State.flushDone_txN (s : State) :
    (s.flushDone).txN = s.txN := rfl
@[simp] theorem State.flushDone_txM (s : State) :
    (s.flushDone).txM = s.txM := rfl
@[simp] theorem State.flushDone_txW (s : State) :
    (s.flushDone).txW = s.txW := rfl
@[simp] theorem State.flushDone_txSent (s : State) :
    (s.flushDone).txSent = s.txSent := rfl
@[simp] theorem State.flushDone_txTot (s : State) :
    (s.flushDone).txTot = s.txTot := rfl
@[simp] theorem State.flushDone_rxCap (s : State) :
    (s.flushDone).rxCap = s.rxCap := rfl
@[simp] theorem State.flushDone_rxAvail (s : State) :
    (s.flushDone).rxAvail = s.rxAvail := rfl
@[simp] theorem State.flushDone_rxJ (s : State) :
    (s.flushDone).rxJ = s.rxJ := rfl
@[simp] theorem State.flushDone_rxLen (s : State) :
    (s.flushDone).rxLen = s.rxLen := rfl
@[simp] theorem State.flushDone_rxStn (s : State) :
    (s.flushDone).rxStn = s.rxStn := rfl
@[simp] theorem State.flushDone_rxW (s : State) :
    (s.flushDone).rxW = s.rxW := rfl
@[simp] theorem State.flushDone_rxAcc (s : State) :
    (s.flushDone).rxAcc = s.rxAcc := rfl
@[simp] theorem State.flushDone_rxCnt (s : State) :
    (s.flushDone).rxCnt = s.rxCnt := rfl
@[simp] theorem State.flushDone_outLen (s : State) :
    (s.flushDone).outLen = s.outLen := rfl
@[simp] theorem State.flushDone_outStn (s : State) :
    (s.flushDone).outStn = s.outStn := rfl
@[simp] theorem State.flushDone_rxBuf (s : State) :
    (s.flushDone).rxBuf = s.rxBuf := rfl
@[simp] theorem State.flushDone_port (s : State) :
    (s.flushDone).port = s.port := rfl
@[simp] theorem State.flushDone_responses (s : State) :
    (s.flushDone).responses = s.responses := rfl
@[simp] theorem State.flushDone_outstanding (s : State) :
    (s.flushDone).outstanding = s.outstanding := rfl
@[simp] theorem State.flushDone_history (s : State) :
    (s.flushDone).history = s.history := rfl

@[simp] theorem State.recvDone_cfg (s : State) :
    (s.recvDone).cfg = s.cfg := rfl
@[simp] theorem State.recvDone_fsm (s : State) :
    (s.recvDone).fsm = .idle := rfl
@[simp] theorem State.recvDone_curInst (s : State) :
    (s.recvDone).curInst = s.curInst := rfl
@[simp] theorem State.recvDone_callerErr (s : State) :
    (s.recvDone).callerErr = s.callerErr := rfl
@[simp] theorem State.recvDone_result (s : State) :
    (s.recvDone).result = s.rxAcc := rfl
@[simp] theorem State.recvDone_count (s : State) :
    (s.recvDone).count = s.rxCnt := rfl
@[simp] theorem State.recvDone_queues (s : State) :
    (s.recvDone).queues = s.queues := rfl
@[simp] theorem State.recvDone_txN (s : State) :
    (s.recvDone).txN = s.txN := rfl
@[simp] theorem State.recvDone_txM (s : State) :
    (s.recvDone).txM = s.txM := rfl
@[simp] theorem State.recvDone_txW (s : State) :
    (s.recvDone).txW = s.txW := rfl
@[simp] theorem State.recvDone_txSent (s : State) :
    (s.recvDone).txSent = s.txSent := rfl
@[simp] theorem State.recvDone_txTot (s : State) :
    (s.recvDone).txTot = s.txTot := rfl
@[simp] theorem State.recvDone_rxCap (s : State) :
    (s.recvDone).rxCap = s.rxCap := rfl
@[simp] theorem State.recvDone_rxAvail (s : State) :
    (s.recvDone).rxAvail = s.rxAvail := rfl
@[simp] theorem State.recvDone_rxJ (s : State) :
    (s.recvDone).rxJ = s.rxJ := rfl
@[simp] theorem State.recvDone_rxLen (s : State) :
    (s.recvDone).rxLen = s.rxLen := rfl
@[simp] theorem State.recvDone_rxStn (s : State) :
    (s.recvDone).rxStn = s.rxStn := rfl
@[simp] theorem State.recvDone_rxW (s : State) :
    (s.recvDone).rxW = s.rxW := rfl
@[simp] theorem State.recvDone_rxAcc (s : State) :
    (s.recvDone).rxAcc = s.rxAcc := rfl
@[simp] theorem State.recvDone_rxCnt (s : State) :
    (s.recvDone).rxCnt = s.rxCnt := rfl
@[simp] theorem State.recvDone_outLen (s : State) :
    (s.recvDone).outLen = s.outLen := rfl
@[simp] theorem State.recvDone_outStn (s : State) :
    (s.recvDone).outStn = s.outStn := rfl
@[simp] theorem State.recvDone_rxBuf (s : State) :
    (s.recvDone).rxBuf = s.rxBuf := rfl
@[simp] theorem State.recvDone_port (s : State) :
    (s.recvDone).port = s.port := rfl
@[simp] theorem State.recvDone_responses (s : State) :
    (s.recvDone).responses = s.responses := rfl
@[simp] theorem State.recvDone_outstanding (s : State) :
    (s.recvDone).outstanding = s.outstanding := rfl
@[simp] theorem State.recvDone_history (s : State) :
    (s.recvDone).history = s.history := rfl

@[simp] theorem State.abort_cfg (s : State) (k : ErrorKind) :
    (s.abort k).cfg = s.cfg := by
  unfold State.abort; split <;> rfl
@[simp] theorem State.abort_fsm (s : State) (k : ErrorKind) :
    (s.abort k).fsm = .idle := by
  unfold State.abort; split <;> rfl
@[simp] theorem State.abort_curInst (s : State) (k : ErrorKind) :
    (s.abort k).curInst = s.curInst := by
  unfold State.abort; split <;> rfl
@[simp] theorem State.abort_callerErr (s : State) (k : ErrorKind) :
    (s.abort k).callerErr = s.callerErr := by
  unfold State.abort; split <;> rfl
@[simp] theorem State.abort_result (s : State) (k : ErrorKind) :
    (s.abort k).result = i32 (resultCode s.cfg k) := by
  unfold State.abort; split <;> rfl
@[simp] theorem State.abort_count (s : State) (k : ErrorKind) :
    (s.abort k).count = if s.fsm.isTx then s.txSent else s.rxCnt := by
  unfold State.abort; split <;> rfl
@[simp] theorem State.abort_queues (s : State) (k : ErrorKind) :
    (s.abort k).queues = if s.fsm.isTx then s.queues.modify s.curInst.toNat (fun q => { q with qlen := 0 }) else s.queues := by
  unfold State.abort; split <;> rfl
@[simp] theorem State.abort_txN (s : State) (k : ErrorKind) :
    (s.abort k).txN = s.txN := by
  unfold State.abort; split <;> rfl
@[simp] theorem State.abort_txM (s : State) (k : ErrorKind) :
    (s.abort k).txM = s.txM := by
  unfold State.abort; split <;> rfl
@[simp] theorem State.abort_txW (s : State) (k : ErrorKind) :
    (s.abort k).txW = s.txW := by
  unfold State.abort; split <;> rfl
@[simp] theorem State.abort_txSent (s : State) (k : ErrorKind) :
    (s.abort k).txSent = s.txSent := by
  unfold State.abort; split <;> rfl
@[simp] theorem State.abort_txTot (s : State) (k : ErrorKind) :
    (s.abort k).txTot = s.txTot := by
  unfold State.abort; split <;> rfl
@[simp] theorem State.abort_rxCap (s : State) (k : ErrorKind) :
    (s.abort k).rxCap = s.rxCap := by
  unfold State.abort; split <;> rfl
@[simp] theorem State.abort_rxAvail (s : State) (k : ErrorKind) :
    (s.abort k).rxAvail = s.rxAvail := by
  unfold State.abort; split <;> rfl
@[simp] theorem State.abort_rxJ (s : State) (k : ErrorKind) :
    (s.abort k).rxJ = s.rxJ := by
  unfold State.abort; split <;> rfl
@[simp] theorem State.abort_rxLen (s : State) (k : ErrorKind) :
    (s.abort k).rxLen = s.rxLen := by
  unfold State.abort; split <;> rfl
@[simp] theorem State.abort_rxStn (s : State) (k : ErrorKind) :
    (s.abort k).rxStn = s.rxStn := by
  unfold State.abort; split <;> rfl
@[simp] theorem State.abort_rxW (s : State) (k : ErrorKind) :
    (s.abort k).rxW = s.rxW := by
  unfold State.abort; split <;> rfl
@[simp] theorem State.abort_rxAcc (s : State) (k : ErrorKind) :
    (s.abort k).rxAcc = s.rxAcc := by
  unfold State.abort; split <;> rfl
@[simp] theorem State.abort_rxCnt (s : State) (k : ErrorKind) :
    (s.abort k).rxCnt = s.rxCnt := by
  unfold State.abort; split <;> rfl
@[simp] theorem State.abort_outLen (s : State) (k : ErrorKind) :
    (s.abort k).outLen = s.outLen := by
  unfold State.abort; split <;> rfl
@[simp] theorem State.abort_outStn (s : State) (k : ErrorKind) :
    (s.abort k).outStn = s.outStn := by
  unfold State.abort; split <;> rfl
@[simp] theorem State.abort_rxBuf (s : State) (k : ErrorKind) :
    (s.abort k).rxBuf = s.rxBuf := by
  unfold State.abort; split <;> rfl
@[simp] theorem State.abort_port (s : State) (k : ErrorKind) :
    (s.abort k).port = s.port := by
  unfold State.abort; split <;> rfl
@[simp] theorem State.abort_responses (s : State) (k : ErrorKind) :
    (s.abort k).responses = s.responses := by
  unfold State.abort; split <;> rfl
@[simp] theorem State.abort_outstanding (s : State) (k : ErrorKind) :
    (s.abort k).outstanding = s.outstanding := by
  unfold State.abort; split <;> rfl
@[simp] theorem State.abort_history (s : State) (k : ErrorKind) :
    (s.abort k).history = s.history := by
  unfold State.abort; split <;> rfl

end Sys2Proof.Machine
end

