-- ==== Sys2Proof/Laws/Ops.lean ====
section
/-! SUPPORT. What the shared operations can do: the queue, an acceptance check, one bus transaction. -/

namespace Sys2Proof.Machine

open Sys2Proof

/-! ### The Write Queue -/

theorem WriteQueue.ok_iff (q : WriteQueue) (c : Nat) :
    q.ok c = true ↔ q.qlen.toNat ≤ c ∧ q.qlen.toNat ≤ q.entries.length
      ∧ ∀ e ∈ q.entries, e.len.toNat ≤ e.data.length := by
  simp [WriteQueue.ok, QEntry.holds, and_assoc]

/-- An entry below `QLEN` of a good queue holds a value. -/
theorem WriteQueue.entry?_of_ok {q : WriteQueue} {c k : Nat} (h : q.ok c = true) (hk : k < q.entries.length) :
    q.entry? k = some q.entries[k] := by
  have he := ((WriteQueue.ok_iff q c).1 h).2.2 q.entries[k] (List.getElem_mem hk)
  simp [WriteQueue.entry?, List.getElem?_eq_getElem hk, QEntry.holds, he]

theorem WriteQueue.entry?_some {q : WriteQueue} {k : Nat} {e : QEntry} (h : q.entry? k = some e) :
    q.entries[k]? = some e ∧ e.len.toNat ≤ e.data.length := by
  unfold WriteQueue.entry? at h
  split at h
  · rename_i e' he
    split at h
    · rename_i hh
      cases h
      exact ⟨he, by simpa [QEntry.holds] using hh⟩
    · cases h
  · cases h

@[simp] theorem WriteQueue.entry?_emptied (q : WriteQueue) (n : Byte) (k : Nat) :
    WriteQueue.entry? { q with qlen := n } k = q.entry? k := rfl

/-- Emptying a good queue leaves a good queue. -/
theorem WriteQueue.ok_emptied {q : WriteQueue} {c : Nat} (h : q.ok c = true) :
    WriteQueue.ok { q with qlen := 0 } c = true := by
  rw [WriteQueue.ok_iff] at h ⊢
  exact ⟨Nat.zero_le _, Nat.zero_le _, h.2.2⟩

@[simp] theorem WriteQueue.push_qlen (q : WriteQueue) (len : Byte) (stn : Station) (b : List Byte) :
    (q.push len stn b).qlen = BitVec.ofNat 8 (q.qlen.toNat + 1) := rfl

theorem WriteQueue.push_entries (q : WriteQueue) (len : Byte) (stn : Station) (b : List Byte) :
    ∃ rest, (q.push len stn b).entries
      = q.entries.take q.qlen.toNat ++ { len := len, stn := stn, data := b ++ rest }
          :: q.entries.drop (q.qlen.toNat + 1) :=
  ⟨_, rfl⟩

/-- The pushed entry stands at index `QLEN` and holds the message. -/
theorem WriteQueue.push_entry_new {q : WriteQueue} {len : Byte} {b : List Byte}
    (hq : q.qlen.toNat ≤ q.entries.length) (hb : b.length = len.toNat) (stn : Station) :
    ∃ rest, (q.push len stn b).entry? q.qlen.toNat = some { len := len, stn := stn, data := b ++ rest } := by
  obtain ⟨rest, h⟩ := q.push_entries len stn b
  refine ⟨rest, ?_⟩
  unfold WriteQueue.entry?
  rw [h, List.getElem?_append_right (by simp), List.length_take, Nat.min_eq_left hq, Nat.sub_self]
  simp [QEntry.holds, hb]

/-- Every entry but the one at `QLEN` is as before. -/
theorem WriteQueue.push_entry_old {q : WriteQueue} (hq : q.qlen.toNat ≤ q.entries.length) (len : Byte)
    (stn : Station) (b : List Byte) {k : Nat} (hk : k ≠ q.qlen.toNat) :
    (q.push len stn b).entry? k = q.entry? k := by
  obtain ⟨rest, h⟩ := q.push_entries len stn b
  have : (q.push len stn b).entries[k]? = q.entries[k]? := by
    rw [h]
    rcases Nat.lt_or_gt_of_ne hk with hlt | hgt
    · rw [List.getElem?_append_left (by simp; omega), List.getElem?_take_of_lt hlt]
    · rw [List.getElem?_append_right (by simp; omega), List.length_take, Nat.min_eq_left hq]
      obtain ⟨j, rfl⟩ : ∃ j, k = q.qlen.toNat + 1 + j := ⟨k - (q.qlen.toNat + 1), by omega⟩
      have : q.qlen.toNat + 1 + j - q.qlen.toNat = j + 1 := by omega
      rw [this, List.getElem?_cons_succ, List.getElem?_drop]
  simp only [WriteQueue.entry?, this]

/-- Pushing onto a good queue that is not full leaves a good queue. -/
theorem WriteQueue.ok_push {q : WriteQueue} {c : Nat} (h : q.ok c = true) (hc : c ≤ 255)
    (hf : q.qlen.toNat ≠ c) {len : Byte} {b : List Byte} (hb : b.length = len.toNat) (stn : Station) :
    (q.push len stn b).ok c = true := by
  rw [WriteQueue.ok_iff] at h ⊢
  obtain ⟨h1, h2, h3⟩ := h
  obtain ⟨rest, he⟩ := q.push_entries len stn b
  have hq : (BitVec.ofNat 8 (q.qlen.toNat + 1)).toNat = q.qlen.toNat + 1 := by
    simp only [BitVec.toNat_ofNat]; omega
  rw [WriteQueue.push_qlen, hq, he]
  refine ⟨by omega, by simp; omega, ?_⟩
  intro e hm
  simp only [List.mem_append, List.mem_cons] at hm
  rcases hm with hm | rfl | hm
  · exact h3 e (List.mem_of_mem_take hm)
  · simp [hb]
  · exact h3 e (List.mem_of_mem_drop hm)

/-- A property of every queue that emptying keeps is kept when one queue is emptied. -/
theorem forall_mem_modify_empty {qs : List WriteQueue} {P : WriteQueue → Prop} (h : ∀ q ∈ qs, P q)
    (he : ∀ q, P q → P { q with qlen := 0 }) (i : Nat) :
    ∀ q ∈ qs.modify i (fun q => { q with qlen := 0 }), P q := by
  intro q hq
  obtain ⟨k, hk⟩ := List.getElem?_of_mem hq
  rw [List.getElem?_modify] at hk
  cases hg : qs[k]? with
  | none => simp [hg] at hk
  | some q0 =>
    have h0 := h q0 (List.mem_of_getElem? hg)
    simp only [hg, Option.map_eq_map, Option.map_some, Option.some.injEq] at hk
    subst hk
    split
    · exact he q0 h0
    · exact h0

/-- The queues after one is emptied. -/
theorem getElem?_emptied (qs : List WriteQueue) (i j : Nat) :
    (emptied qs i)[j]? = if j = i then (qs[j]?).map (fun q => { q with qlen := 0 }) else qs[j]? := by
  unfold emptied
  rw [List.getElem?_modify]
  by_cases h : j = i
  · subst h; simp
  · have h' : i ≠ j := fun e => h e.symm
    simp [h, h']

theorem length_emptied (qs : List WriteQueue) (i : Nat) : (emptied qs i).length = qs.length := by
  simp [emptied]

/-! ### Acceptance and the bus -/

/-- What the instance check answers (R71 item 3). -/
theorem withInstance_next {s t : State} {i : BitVec 4} {act : WriteQueue → StepResult}
    (h : withInstance s i act = .next t) :
    (s.cfg.ni ≤ i.toNat ∧ t = s.reject .notFound)
      ∨ (i.toNat < s.cfg.ni ∧ ∃ q, s.queues[i.toNat]? = some q ∧ act q = .next t) := by
  unfold withInstance at h
  split at h
  · rename_i hn; cases h; exact .inl ⟨hn, rfl⟩
  · rename_i hn
    split at h
    · cases h
    · rename_i q hq; exact .inr ⟨by omega, q, hq, h⟩

theorem withInstance_resolved {s : State} {i : BitVec 4} {q : WriteQueue} (act : WriteQueue → StepResult)
    (hi : i.toNat < s.cfg.ni) (hq : s.queues[i.toNat]? = some q) : withInstance s i act = act q := by
  unfold withInstance
  rw [if_neg (by omega), hq]

theorem withInstance_unresolved {s : State} {i : BitVec 4} (act : WriteQueue → StepResult)
    (hi : s.cfg.ni ≤ i.toNat) : withInstance s i act = .next (s.reject .notFound) := by
  unfold withInstance
  rw [if_pos hi]

/-- What one bus transaction answers (R36, R39). -/
theorem busStep_next {s t : State} {op : BusOp} {k : Word → State → StepResult}
    (h : busStep s op k = .next t) :
    ∃ m, s.cfg.regmap[s.curInst.toNat]? = some m ∧
      ((s.responses = [] ∧ t = { s with outstanding := some (op.request m) })
        ∨ (∃ rest, s.responses = .fail :: rest
            ∧ t = (s.answered (op.request m) .fail rest).abort .registerIO)
        ∨ (∃ d rest, s.responses = .ok d :: rest
            ∧ k d (s.answered (op.request m) (.ok d) rest) = .next t)) := by
  unfold busStep at h
  split at h
  · cases h
  · rename_i m hm
    refine ⟨m, hm, ?_⟩
    split at h
    · rename_i hr; cases h; exact .inl ⟨hr, rfl⟩
    · rename_i rest hr; cases h; exact .inr (.inl ⟨rest, hr, rfl⟩)
    · rename_i d rest hr; exact .inr (.inr ⟨d, rest, hr, h⟩)

theorem busStep_unanswered {s : State} {m : RegMap} (op : BusOp) (k : Word → State → StepResult)
    (hm : s.cfg.regmap[s.curInst.toNat]? = some m) (hr : s.responses = []) :
    busStep s op k = .next { s with outstanding := some (op.request m) } := by
  unfold busStep; rw [hm, hr]

theorem busStep_fail {s : State} {m : RegMap} {rest : List Response} (op : BusOp)
    (k : Word → State → StepResult) (hm : s.cfg.regmap[s.curInst.toNat]? = some m)
    (hr : s.responses = .fail :: rest) :
    busStep s op k = .next ((s.answered (op.request m) .fail rest).abort .registerIO) := by
  unfold busStep; rw [hm, hr]

theorem busStep_ok {s : State} {m : RegMap} {d : Word} {rest : List Response} (op : BusOp)
    (k : Word → State → StepResult) (hm : s.cfg.regmap[s.curInst.toNat]? = some m)
    (hr : s.responses = .ok d :: rest) :
    busStep s op k = k d (s.answered (op.request m) (.ok d) rest) := by
  unfold busStep; rw [hm, hr]

/-! ### Byte totals -/

theorem lenTotal_take_succ (l : List QEntry) (k : Nat) (h : k < l.length) :
    lenTotal (l.take (k + 1)) = lenTotal (l.take k) + l[k].len.toNat := by
  induction l generalizing k with
  | nil => simp at h
  | cons x l ih =>
    cases k with
    | zero => simp [lenTotal]
    | succ k =>
      simp only [List.take_succ_cons, lenTotal, List.getElem_cons_succ]
      rw [ih k (by simpa using h)]
      omega

theorem lenTotal_le (l : List QEntry) : lenTotal l ≤ maxMsgLen * l.length := by
  unfold maxMsgLen
  induction l with
  | nil => simp [lenTotal]
  | cons x l ih =>
    have := x.len.isLt
    simp only [lenTotal, List.length_cons]
    omega

/-! ### Reset -/

/-- Reset leaves the reset state of the configuration but for the words sent, the answers still good and the
history (R143, R144). -/
theorem State.applyReset_eq (s : State) :
    ∃ rs h, s.applyReset = { State.resetWith s.cfg with
      port := s.port, responses := rs, history := h } := by
  unfold State.applyReset
  split <;> exact ⟨_, _, rfl⟩

end Sys2Proof.Machine
end

