-- ==== Sys2Proof/Laws/Step.lean ====
section
/-! SUPPORT. What a step can do: its transaction, what follows the answer, and the
inversion of a step and of a command. -/

namespace Sys2Proof.Machine

open Sys2Proof

/-- What follows the answer `Ok(d)`; `s1` is the state with the transaction done. -/
def State.onOk (s : State) (d : Word) (s1 : State) : StepResult :=
  match s.fsm with
  | .idle => .next s1
  | .txData =>
    match s.txEntry with
    | none => .fault .queueEntryNoValue
    | some e =>
      .next { s1 with
        txW := BitVec.ofNat 7 (s.txW.toNat + 1)
        fsm := if s.txW.toNat + 1 = nwords e.len.toNat then .txSize else .txData }
  | .txSize => .next { s1 with fsm := .txStn }
  | .txStn => .next { s1 with fsm := .txMode }
  | .txMode =>
    match s.txEntry with
    | none => .fault .queueEntryNoValue
    | some e =>
      if txFifoError d then .next (s1.abort .txSendCountFifo)
      else State.txAdvance { s1 with
        txSent := BitVec.ofNat 8 (s1.txSent.toNat + 1)
        txTot := BitVec.ofNat 32 (s1.txTot.toNat + e.len.toNat) }
  | .rxMode =>
    if rxAvailOf d = 0 then .next (State.recvDone { s1 with rxAvail := rxAvailOf d })
    else .next { s1 with rxAvail := rxAvailOf d, fsm := .rxSize }
  | .rxSize => .next { s1 with rxLen := rxLenOf d, fsm := .rxStn }
  | .rxStn =>
    if s.rxLen.toNat = 0 then .next (State.abort { s1 with rxStn := rxStnOf d } .rxPacketSizeZero)
    else if s.rxCap.toNat < s.rxAcc.toNat + s.rxLen.toNat then
      .next (State.abort { s1 with rxStn := rxStnOf d } .rxArraySize)
    else .next { s1 with rxStn := rxStnOf d, rxW := 0, fsm := .rxData }
  | .rxData =>
    if rxBufBytes < s.rxAcc.toNat + 4 * s.rxW.toNat + min 4 (s.rxLen.toNat - 4 * s.rxW.toNat) then
      .fault .rxBufOutOfRange
    else
      let s2 := { s1 with
        rxBuf := s1.rxBuf.writeBytes (s.rxAcc.toNat + 4 * s.rxW.toNat)
          (unpackWord d s.rxLen.toNat s.rxW.toNat)
        rxW := BitVec.ofNat 7 (s.rxW.toNat + 1) }
      if s.rxW.toNat + 1 = nwords s.rxLen.toNat then s2.rxRecord else .next s2

theorem step_idle {s : State} (h : s.fsm = .idle) : step s = acceptStep s := by
  unfold step; rw [h]

/-- Outside `IDLE` a step is the transaction of its state (R18). -/
theorem step_busy {s : State} (h : s.fsm ≠ .idle) :
    step s = match s.nextOp with
      | none => .fault .queueEntryNoValue
      | some op => busStep s op s.onOk := by
  unfold step State.nextOp
  cases hf : s.fsm with
  | idle => exact absurd hf h
  | txData =>
    cases he : s.txEntry with
    | none => simp [stepTxData, he]
    | some e => simp [stepTxData, he]; congr 1; funext d s1; simp [State.onOk, hf, he]
  | txSize =>
    cases he : s.txEntry with
    | none => simp [stepTxSize, he]
    | some e => simp [stepTxSize, he]; congr 1; funext d s1; simp [State.onOk, hf]
  | txStn =>
    cases he : s.txEntry with
    | none => simp [stepTxStn, he]
    | some e => simp [stepTxStn, he]; congr 1; funext d s1; simp [State.onOk, hf]
  | txMode =>
    cases he : s.txEntry with
    | none => simp [stepTxMode, he]
    | some e =>
      simp [stepTxMode, he]; congr 1; funext d s1
      by_cases hd : txFifoError d <;> simp [State.onOk, hf, he, classify, hd]
  | rxMode => simp [stepRxMode]; congr 1; funext d s1; simp [State.onOk, hf]
  | rxSize => simp [stepRxSize]; congr 1; funext d s1; simp [State.onOk, hf]
  | rxStn =>
    simp only [stepRxStn]; congr 1; funext d s1
    simp only [State.onOk, hf, rxCheck]
    by_cases h0 : s.rxLen.toNat = 0
    · simp [h0, classify]
    · by_cases h1 : s.rxCap.toNat < s.rxAcc.toNat + s.rxLen.toNat <;> simp [h0, h1, classify]
  | rxData => simp [stepRxData]; congr 1; funext d s1; simp [State.onOk, hf]

/-- What a step outside `IDLE` answers. -/
theorem step_busy_next {s t : State} (hf : s.fsm ≠ .idle) (h : step s = .next t) :
    ∃ m op, s.cfg.regmap[s.curInst.toNat]? = some m ∧ s.nextOp = some op ∧
      ((s.responses = [] ∧ t = { s with outstanding := some (op.request m) })
        ∨ (∃ rest, s.responses = .fail :: rest
            ∧ t = (s.answered (op.request m) .fail rest).abort .registerIO)
        ∨ (∃ d rest, s.responses = .ok d :: rest
            ∧ s.onOk d (s.answered (op.request m) (.ok d) rest) = .next t)) := by
  rw [step_busy hf] at h
  cases ho : s.nextOp with
  | none => simp [ho] at h
  | some op =>
    rw [ho] at h
    obtain ⟨m, hm, hc⟩ := busStep_next h
    exact ⟨m, op, hm, rfl, hc⟩

/-- What a step in `IDLE` answers (R70). -/
theorem step_idle_next {s t : State} (hf : s.fsm = .idle) (h : step s = .next t) :
    (decode s.port = .incomplete ∧ t = s)
      ∨ (∃ why rest, decode s.port = .illegal why rest ∧ t = (s.take rest).reject .invalidArgument)
      ∨ (∃ i rest, decode s.port = .command i rest ∧ exec i (s.take rest) = .next t) := by
  rw [step_idle hf] at h
  unfold acceptStep State.nextCommand at h
  split at h
  · rename_i hd; cases h; exact .inl ⟨hd, rfl⟩
  · rename_i why rest hd; cases h; exact .inr (.inl ⟨why, rest, hd, rfl⟩)
  · rename_i i rest hd; exact .inr (.inr ⟨i, rest, hd, h⟩)

/-- What ENQUEUE answers (R71, R108, R109). -/
theorem execEnq_next {s t : State} {i : BitVec 4} {len : Byte} {stn : Station} {p : List Word}
    (h : execEnq i len stn p s = .next t) :
    (s.cfg.ni ≤ i.toNat ∧ t = s.reject .notFound)
      ∨ (∃ q, s.queues[i.toNat]? = some q ∧ i.toNat < s.cfg.ni ∧ q.qlen.toNat = s.cfg.qcap
          ∧ t = s.reject .invalidArgument)
      ∨ ∃ q, s.queues[i.toNat]? = some q ∧ i.toNat < s.cfg.ni ∧ q.qlen.toNat ≠ s.cfg.qcap
          ∧ t = { s with
              queues := s.queues.set i.toNat (q.push len stn (payloadBytes len.toNat p))
              result := 0
              count := BitVec.ofNat 8 (q.qlen.toNat + 1) } := by
  rcases withInstance_next h with ⟨hn, rfl⟩ | ⟨hi, q, hq, ha⟩
  · exact .inl ⟨hn, rfl⟩
  · split at ha
    · rename_i hc; cases ha; exact .inr (.inl ⟨q, hq, hi, hc, rfl⟩)
    · rename_i hc; cases ha; exact .inr (.inr ⟨q, hq, hi, hc, rfl⟩)

/-- What FLUSH's acceptance answers (R71, R78). -/
theorem execFlush_next {s t : State} {i : BitVec 4} {burst : Byte} (h : execFlush i burst s = .next t) :
    (s.cfg.ni ≤ i.toNat ∧ t = s.reject .notFound)
      ∨ ∃ q, s.queues[i.toNat]? = some q ∧ i.toNat < s.cfg.ni ∧
          ((flushCount q burst = 0 ∧ t = (s.flushInit i 0).flushDone)
            ∨ (flushCount q burst ≠ 0 ∧ ∃ e, q.entry? 0 = some e
                ∧ t = { s.flushInit i (flushCount q burst) with fsm := txStart e.len })) := by
  rcases withInstance_next h with ⟨hn, rfl⟩ | ⟨hi, q, hq, ha⟩
  · exact .inl ⟨hn, rfl⟩
  · refine .inr ⟨q, hq, hi, ?_⟩
    dsimp only at ha
    split at ha
    · rename_i h0; cases ha; rw [h0]; exact .inl ⟨rfl, rfl⟩
    · rename_i h0
      split at ha
      · cases ha
      · rename_i e he; cases ha; exact .inr ⟨h0, e, he, rfl⟩

/-- What RECEIVE's acceptance answers (R71, R94). -/
theorem execRecv_next {s t : State} {i : BitVec 4} {a b : Byte} (h : execRecv i a b s = .next t) :
    (s.cfg.ni ≤ i.toNat ∧ t = s.reject .notFound)
      ∨ (i.toNat < s.cfg.ni ∧ t = { s with
          curInst := i, rxCap := BitVec.ofNat 16 (a.toNat * b.toNat), rxAcc := 0, rxCnt := 0, rxJ := 0
          fsm := .rxMode }) := by
  rcases withInstance_next h with ⟨hn, rfl⟩ | ⟨hi, q, hq, ha⟩
  · exact .inl ⟨hn, rfl⟩
  · cases ha; exact .inr ⟨hi, rfl⟩

/-- What the advance of R83 answers. -/
theorem txAdvance_next {s t : State} (h : s.txAdvance = .next t) :
    (s.txM.toNat + 1 = s.txN.toNat
        ∧ t = State.flushDone { s with txM := BitVec.ofNat 5 (s.txM.toNat + 1), txW := 0 })
      ∨ (s.txM.toNat + 1 ≠ s.txN.toNat ∧ ∃ e, s.curQueue.entry? (s.txM.toNat + 1) = some e
          ∧ t = { s with txM := BitVec.ofNat 5 (s.txM.toNat + 1), txW := 0, fsm := txStart e.len }) := by
  unfold State.txAdvance at h
  dsimp only at h
  split at h
  · rename_i hm; cases h; exact .inl ⟨hm, rfl⟩
  · rename_i hm
    split at h
    · cases h
    · rename_i e he; cases h; exact .inr ⟨hm, e, he, rfl⟩

theorem txAdvance_last {s : State} (h : s.txM.toNat + 1 = s.txN.toNat) :
    s.txAdvance = .next (State.flushDone { s with txM := BitVec.ofNat 5 (s.txM.toNat + 1), txW := 0 }) := by
  unfold State.txAdvance
  simp only [h, if_true]

theorem txAdvance_more {s : State} {e : QEntry} (h : s.txM.toNat + 1 ≠ s.txN.toNat)
    (he : s.curQueue.entry? (s.txM.toNat + 1) = some e) :
    s.txAdvance
      = .next { s with txM := BitVec.ofNat 5 (s.txM.toNat + 1), txW := 0, fsm := txStart e.len } := by
  unfold State.txAdvance
  simp only [h, if_false, he]

/-- The abort of a FLUSH (R85, R126). -/
theorem abort_tx {s : State} (h : s.fsm.isTx = true) (k : ErrorKind) :
    s.abort k = { s with
      queues := emptied s.queues s.curInst.toNat
      result := i32 (resultCode s.cfg k), count := s.txSent, fsm := .idle } := by
  unfold State.abort
  rw [if_pos h]
  rfl

/-- The abort of a RECEIVE (R101, R126). -/
theorem abort_rx {s : State} (h : s.fsm.isTx = false) (k : ErrorKind) :
    s.abort k = { s with result := i32 (resultCode s.cfg k), count := s.rxCnt, fsm := .idle } := by
  unfold State.abort
  rw [if_neg (by simp [h])]

/-- The state in which a received message has been recorded (R99). -/
def State.rxRecorded (s : State) : State :=
  { s with
    outLen := s.outLen.setIfInBounds s.rxJ.toNat (some s.rxLen)
    outStn := s.outStn.setIfInBounds s.rxJ.toNat (some s.rxStn)
    rxAcc := BitVec.ofNat 32 (s.rxAcc.toNat + s.rxLen.toNat)
    rxCnt := BitVec.ofNat 8 (s.rxCnt.toNat + 1)
    rxJ := BitVec.ofNat 5 (s.rxJ.toNat + 1) }

theorem rxRecord_eq (s : State) :
    s.rxRecord = if s.rxJ.toNat < 31 then
      (if s.rxJ.toNat + 1 = s.rxAvail.toNat then .next s.rxRecorded.recvDone
        else .next { s.rxRecorded with fsm := .rxSize })
      else .fault .rxEntryOutOfRange := rfl

/-- What message completion answers (R99). -/
theorem rxRecord_next {s t : State} (h : s.rxRecord = .next t) :
    s.rxJ.toNat < 31
      ∧ ((s.rxJ.toNat + 1 = s.rxAvail.toNat ∧ t = s.rxRecorded.recvDone)
        ∨ (s.rxJ.toNat + 1 ≠ s.rxAvail.toNat ∧ t = { s.rxRecorded with fsm := .rxSize })) := by
  unfold State.rxRecord at h
  split at h
  · rename_i hj
    refine ⟨hj, ?_⟩
    dsimp only at h
    split at h
    · rename_i hm; cases h; exact .inl ⟨hm, rfl⟩
    · rename_i hm; cases h; exact .inr ⟨hm, rfl⟩
  · cases h

/-- What no step of a running command changes after its transaction. -/
theorem onOk_frame {s s1 t : State} {d : Word} (h : s.onOk d s1 = .next t) :
    t.cfg = s1.cfg ∧ t.curInst = s1.curInst ∧ t.callerErr = s1.callerErr ∧ t.port = s1.port
      ∧ t.history = s1.history ∧ t.responses = s1.responses ∧ t.outstanding = s1.outstanding := by
  unfold State.onOk at h
  cases hs : s.fsm <;> simp only [hs] at h
  case txData => split at h <;> cases h; simp
  case txMode =>
    split at h
    · cases h
    · split at h
      · cases h; simp
      · rcases txAdvance_next h with ⟨_, rfl⟩ | ⟨_, e, _, rfl⟩ <;> simp
  case rxMode => split at h <;> cases h <;> simp
  case rxStn =>
    split at h
    · cases h; simp
    · split at h <;> cases h <;> simp
  case rxData =>
    split at h
    · cases h
    · split at h
      · rcases rxRecord_next h with ⟨_, ⟨_, rfl⟩ | ⟨_, rfl⟩⟩ <;> simp [State.rxRecorded]
      · cases h; simp
  all_goals cases h; simp

end Sys2Proof.Machine
end

