-- ==== Sys2Proof/Laws/Inv.lean ====
section
/-! SUPPORT. What the invariant gives: a register-map row, the running queue, the entry being sent, the
transaction of the state, and no fault after an answer. -/

namespace Sys2Proof.Machine

open Sys2Proof

theorem valid_iff (c : Config) :
    c.valid = true ↔ c.layout = .twelveRegisters ∧ c.inRange = true ∧ c.addrsDistinct = true := by
  simp [Config.valid, and_assoc]

theorem inRange_iff (c : Config) :
    c.inRange = true ↔ 1 ≤ c.ni ∧ c.ni ≤ 16 ∧ 1 ≤ c.qcap ∧ c.qcap ≤ 255 ∧ c.regmap.length = c.ni
      ∧ (∀ a ∈ c.allAddrs, a < 2 ^ c.addrW)
      ∧ (∀ z ∈ c.allCodes, -2147483648 ≤ z ∧ z < 0) ∧ distinct c.allCodes = true
      ∧ c.pairingOk = true := by
  simp [Config.inRange, and_assoc]

theorem valid_range {c : Config} (h : c.valid = true) :
    1 ≤ c.ni ∧ c.ni ≤ 16 ∧ c.qcap ≤ 255 ∧ c.regmap.length = c.ni := by
  have := (inRange_iff c).1 ((valid_iff c).1 h).2.1
  exact ⟨this.1, this.2.1, this.2.2.2.1, this.2.2.2.2.1⟩

theorem distinct_iff {α : Type} [BEq α] [LawfulBEq α] (l : List α) : distinct l = true ↔ l.Nodup := by
  induction l with
  | nil => simp [distinct]
  | cons x xs ih => simp [distinct, ih]

theorem State.Inv.row {s : State} (h : s.Inv) : ∃ m, s.cfg.regmap[s.curInst.toNat]? = some m := by
  have hr := valid_range h.cfg
  exact ⟨_, List.getElem?_eq_getElem (by rw [hr.2.2.2]; exact h.inst)⟩

theorem State.Inv.curQueue {s : State} (h : s.Inv) :
    s.queues[s.curInst.toNat]? = some s.curQueue ∧ s.curQueue.ok s.cfg.qcap = true := by
  have hl : s.curInst.toNat < s.queues.length := by rw [h.queueCount]; exact h.inst
  have he : s.curQueue = s.queues[s.curInst.toNat] := by
    simp [State.curQueue, List.getElem?_eq_getElem hl]
  rw [he]
  exact ⟨List.getElem?_eq_getElem hl, h.queues _ (List.getElem_mem hl)⟩

theorem State.curQueue_of {s : State} {q : WriteQueue} (h : s.queues[s.curInst.toNat]? = some q) :
    s.curQueue = q := by
  simp [State.curQueue, h]

/-- A message index below `TX_N` names a stored entry. -/
theorem State.Inv.txIndex {s : State} (h : s.Inv) (hf : s.fsm.isTx = true) {k : Nat}
    (hk : k < s.txN.toNat) : ∃ hl : k < s.curQueue.entries.length,
      s.curQueue.entry? k = some s.curQueue.entries[k] := by
  have hq := h.curQueue.2
  have ht := h.tx hf
  have hl : k < s.curQueue.entries.length := by
    have := ((WriteQueue.ok_iff _ _).1 hq).2.1
    have := ht.queued
    omega
  exact ⟨hl, WriteQueue.entry?_of_ok hq hl⟩

theorem State.Inv.txEntry {s : State} (h : s.Inv) (hf : s.fsm.isTx = true) :
    ∃ e, s.txEntry = some e := by
  obtain ⟨hl, he⟩ := h.txIndex hf (h.tx hf).index
  exact ⟨_, he⟩

theorem Fsm.tx_or_rx {f : Fsm} (h : f ≠ .idle) : f.isTx = true ∨ f.isRx = true := by
  cases f <;> simp_all [Fsm.isTx, Fsm.isRx]

theorem State.nextOp_of_tx {s : State} {e : QEntry} (hf : s.fsm.isTx = true) (he : s.txEntry = some e) :
    ∃ op, s.nextOp = some op := by
  cases h : s.fsm <;> simp_all [State.nextOp, Fsm.isTx]

theorem State.Inv.nextOp {s : State} (h : s.Inv) (hf : s.fsm ≠ .idle) : ∃ op, s.nextOp = some op := by
  rcases Fsm.tx_or_rx hf with ht | hr
  · obtain ⟨e, he⟩ := h.txEntry ht
    exact State.nextOp_of_tx ht he
  · cases hs : s.fsm <;> simp_all [State.nextOp, Fsm.isRx]

/-- A step of a running command is its state's transaction. -/
theorem State.Inv.step_busy {s : State} (h : s.Inv) (hf : s.fsm ≠ .idle) :
    ∃ m op, s.cfg.regmap[s.curInst.toNat]? = some m ∧ s.nextOp = some op ∧
      step s = busStep s op s.onOk := by
  obtain ⟨m, hm⟩ := h.row
  obtain ⟨op, ho⟩ := h.nextOp hf
  exact ⟨m, op, hm, ho, by rw [Machine.step_busy hf, ho]⟩

/-- No state with the invariant stops after an answer (R24, R103). -/
theorem State.Inv.onOk_next {s : State} (h : s.Inv) (d : Word) (q : BusReq) (rest : List Response) :
    ∃ t, s.onOk d (s.answered q (.ok d) rest) = .next t := by
  unfold State.onOk
  cases hf : s.fsm with
  | idle => exact ⟨_, rfl⟩
  | txData =>
    obtain ⟨e, he⟩ := h.txEntry (by rw [hf]; rfl)
    simp [he]
  | txSize => exact ⟨_, rfl⟩
  | txStn => exact ⟨_, rfl⟩
  | txMode =>
    have hx : s.fsm.isTx = true := by rw [hf]; rfl
    obtain ⟨e, he⟩ := h.txEntry hx
    simp only [he]
    split
    · exact ⟨_, rfl⟩
    · unfold State.txAdvance
      dsimp only
      split
      · exact ⟨_, rfl⟩
      · rename_i hne
        simp only [State.answered_txM, State.answered_txN] at hne
        have := (h.tx hx).index
        obtain ⟨hl, hen⟩ := h.txIndex hx (k := s.txM.toNat + 1) (by omega)
        have hq : State.curQueue { s.answered q (.ok d) rest with
            txSent := BitVec.ofNat 8 ((s.answered q (.ok d) rest).txSent.toNat + 1)
            txTot := BitVec.ofNat 32 ((s.answered q (.ok d) rest).txTot.toNat + e.len.toNat) }
            = s.curQueue := rfl
        rw [hq, State.answered_txM, hen]
        exact ⟨_, rfl⟩
  | rxMode => dsimp only; split <;> exact ⟨_, rfl⟩
  | rxSize => exact ⟨_, rfl⟩
  | rxStn => dsimp only; split; · exact ⟨_, rfl⟩
             split <;> exact ⟨_, rfl⟩
  | rxData =>
    have hr := h.rx (by rw [hf]; rfl)
    obtain ⟨d0, d1, d2, d3⟩ := hr.data hf
    have hj := hr.index (by rw [hf]; decide)
    have ha := hr.accLen
    have hlen := s.rxLen.isLt
    have hav := s.rxAvail.isLt
    have hb := nwords_bounds s.rxLen.toNat
    simp only [maxMsgLen] at ha
    have hlast : 255 * s.rxJ.toNat ≤ 255 * 30 := by omega
    dsimp only
    rw [if_neg (by simp only [rxBufBytes]; omega)]
    split
    · rw [rxRecord_eq, if_pos (by simp only [State.answered_rxJ]; omega)]
      split <;> exact ⟨_, rfl⟩
    · exact ⟨_, rfl⟩

/-- In `IDLE` the invariant asks nothing of the working registers. -/
theorem State.inv_of_idle {t : State} (hf : t.fsm = .idle) (h1 : t.cfg.valid = true)
    (h2 : t.queues.length = t.cfg.ni) (h3 : ∀ q ∈ t.queues, q.ok t.cfg.qcap = true)
    (h4 : t.curInst.toNat < t.cfg.ni) (h5 : t.rxBuf.wf = true) (h6 : t.outstanding = none) : t.Inv :=
  ⟨h1, h2, h3, h4, h5, fun _ => h6, (fun h => by rw [hf] at h; cases h),
    (fun h => by rw [hf] at h; cases h)⟩

theorem State.Inv.emptied {s : State} (h : s.Inv) (i : Nat) :
    ∀ q ∈ Machine.emptied s.queues i, q.ok s.cfg.qcap = true :=
  forall_mem_modify_empty h.queues (fun _ hq => WriteQueue.ok_emptied hq) _

/-- An abort keeps the invariant; `s1` is the state with the transaction done. -/
theorem State.Inv.abort {s : State} (h : s.Inv) {s1 : State} (e1 : s1.cfg = s.cfg)
    (e2 : s1.queues = s.queues) (e3 : s1.curInst = s.curInst) (e4 : s1.rxBuf = s.rxBuf)
    (e5 : s1.outstanding = none) (k : ErrorKind) : (s1.abort k).Inv := by
  refine State.inv_of_idle (by simp) (by simpa [e1] using h.cfg) ?_ ?_ (by simpa [e1, e3] using h.inst)
    (by simpa [e4] using h.buf) (by simpa using e5)
  · simp only [State.abort_queues, State.abort_cfg, e1, e2]
    split
    · simpa using h.queueCount
    · exact h.queueCount
  · simp only [State.abort_queues, State.abort_cfg, e1, e2, e3]
    split
    · exact h.emptied _
    · exact h.queues

end Sys2Proof.Machine
end

