-- ==== Sys2Proof/Laws/PerInstr.lean ====
section
/-! SUPPORT. Statements made for every command, one lemma a constructor. -/

namespace Sys2Proof.Laws.EncodeLength

open Sys2Proof

/-- A well-formed command is encoded in as many words as its first word announces (30_encoding.md R61, R63
to R65). -/
def Statement (i : Instr) : Prop :=
  i.wellFormed = true → (encode i).length = 1 + (match i with
    | .enq _ len _ _ => Machine.nwords len.toNat
    | .flush _ _ => 0
    | .recv _ _ _ => 0)

theorem enq (inst : BitVec 4) (len : Byte) (stn : Station) (payload : List Word) :
    Statement (.enq inst len stn payload) := by
  intro h
  have hl : payload.length = Machine.nwords len.toNat := by simpa [Instr.wellFormed] using h
  simp [encode, encodePayload, hl, Nat.add_comm]

theorem flush (inst : BitVec 4) (burst : Byte) : Statement (.flush inst burst) := fun _ => rfl

theorem recv (inst : BitVec 4) (maxMsg : Byte) (maxLen : Byte) : Statement (.recv inst maxMsg maxLen) :=
  fun _ => rfl

end Sys2Proof.Laws.EncodeLength
end

