-- ==== Sys2Proof/Laws/Receive.lean ====
section
/-! SUPPORT. The receive output under `RX_DATA`: the recorded lengths and stations, the sum of lengths,
and the bytes that hold a value. -/

namespace Sys2Proof.Machine

open Sys2Proof

theorem getElem?_setIfInBounds_of_lt {α : Type} (v : Vector α 31) (i j : Nat) (x : α) (hj : j < 31) :
    (v.setIfInBounds i x)[j]? = if j = i then some x else v[j]? := by
  rw [Vector.getElem?_setIfInBounds]
  by_cases h : i = j
  · subst h; simp [hj]
  · have h' : j ≠ i := fun e => h e.symm
    simp [h, h']

/-- The sum of recorded lengths depends only on the entries it sums. -/
theorem lenSum_congr {s t : State} {n : Nat} (h : ∀ j, j < n → t.outLen[j]? = s.outLen[j]?) :
    t.lenSum n = s.lenSum n := by
  induction n with
  | zero => rfl
  | succ n ih =>
    unfold State.lenSum
    rw [ih (fun j hj => h j (by omega)), h n (by omega)]

theorem lenSum_succ {s : State} {n t : Nat} {l : Byte} (h : s.lenSum n = some t)
    (hl : s.outLen[n]? = some (some l)) : s.lenSum (n + 1) = some (t + l.toNat) := by
  unfold State.lenSum
  rw [h, hl]

/-- A sum of recorded lengths gives each of them, with the sum before it. -/
theorem lenSum_lt {s : State} {n t : Nat} (h : s.lenSum n = some t) {j : Nat} (hj : j < n) :
    ∃ u l, s.lenSum j = some u ∧ s.outLen[j]? = some (some l) ∧ u + l.toNat ≤ t := by
  induction n generalizing t with
  | zero => omega
  | succ n ih =>
    unfold State.lenSum at h
    split at h
    · rename_i u l hu hl
      cases h
      by_cases hjn : j = n
      · subst hjn; exact ⟨u, l, hu, hl, Nat.le_refl _⟩
      · obtain ⟨u', l', h1, h2, h3⟩ := ih hu (by omega)
        exact ⟨u', l', h1, h2, by omega⟩
    · cases h

/-- Where each of some addresses holds a byte, reading them all gives those bytes. -/
theorem mapM_read_of_held {m : Memory} (off : Nat) :
    ∀ xs : List Nat, (∀ k ∈ xs, ∃ b, m.read (off + k) = some b) →
      ∃ bytes, xs.mapM (fun k => m.read (off + k)) = some bytes ∧ bytes.length = xs.length
        ∧ ∀ (i : Nat) (b : Byte), bytes[i]? = some b → ∃ k, xs[i]? = some k ∧ m.read (off + k) = some b := by
  intro xs
  induction xs with
  | nil => intro _; exact ⟨[], rfl, rfl, fun i b h => by simp at h⟩
  | cons x xs ih =>
    intro hx
    obtain ⟨bs, h1, h2, h3⟩ := ih (fun k hk => hx k (List.mem_cons_of_mem _ hk))
    obtain ⟨b, hb⟩ := hx x (List.mem_cons_self ..)
    refine ⟨b :: bs, by simp [hb, h1], by simp [h2], fun i c hc => ?_⟩
    cases i with
    | zero => cases hc; exact ⟨x, rfl, hb⟩
    | succ i => exact h3 i c hc

/-- Every recorded message of the valid region whose bytes hold values can be read back (R27). -/
theorem message?_of_held {s : State} {n t j : Nat} (h : s.lenSum n = some t) (hj : j < n)
    (hv : s.validEntry j = true)
    (hs : ∃ b, s.outStn[j]? = some (some b)) (hb : ∀ k, k < t → ∃ b, s.rxBuf.read k = some b) :
    ∃ stn bytes l off, s.message? j = some (stn, bytes) ∧ s.outLen[j]? = some (some l)
      ∧ s.outStn[j]? = some (some stn) ∧ bytes.length = l.toNat ∧ s.lenSum j = some off
      ∧ ∀ k b, bytes[k]? = some b → off + k < t ∧ s.rxBuf.read (off + k) = some b := by
  obtain ⟨u, l, hu, hl, ht⟩ := lenSum_lt h hj
  obtain ⟨stn, hstn⟩ := hs
  obtain ⟨bytes, h1, h2, h3⟩ := mapM_read_of_held (m := s.rxBuf) u (List.range l.toNat)
    (fun k hk => hb (u + k) (by have := List.mem_range.1 hk; omega))
  refine ⟨stn, bytes, l, u, ?_, hl, hstn, by simpa using h2, hu, fun k b hk => ?_⟩
  · unfold State.message?
    rw [if_pos hv, hu, hl, hstn]
    simp only [h1, Option.map_some]
  · obtain ⟨k', hk', hr⟩ := h3 k b hk
    obtain ⟨hlt, he⟩ := List.getElem?_eq_some_iff.1 hk'
    rw [List.getElem_range] at he
    subst he
    rw [List.length_range] at hlt
    exact ⟨by omega, hr⟩

/-- The facts about `RX_DATA` that the invariant gives, as numbers. -/
theorem State.Inv.rxData_bounds {s : State} (h : s.Inv) (hf : s.fsm = .rxData) :
    4 * s.rxW.toNat < s.rxLen.toNat ∧ s.rxW.toNat < 64 ∧ s.rxJ.toNat < 31
      ∧ s.rxAcc.toNat + s.rxLen.toNat ≤ rxBufBytes
      ∧ s.rxAcc.toNat + s.rxLen.toNat ≤ s.rxCap.toNat
      ∧ s.rxAcc.toNat + s.rxLen.toNat ≤ maxMsgLen * (s.rxJ.toNat + 1) := by
  have hr := h.rx (by rw [hf]; rfl)
  obtain ⟨d0, d1, d2, _⟩ := hr.data hf
  have hj := hr.index (by rw [hf]; decide)
  have ha := hr.accLen
  have hlen := s.rxLen.isLt
  have hav := s.rxAvail.isLt
  have hb := nwords_bounds s.rxLen.toNat
  have h64 := nwords_le_64 s.rxLen
  simp only [maxMsgLen, rxBufBytes] at ha ⊢
  omega

/-- What a data word does to the state: its bytes stored and the word index advanced. -/
def State.rxStored (s s1 : State) (d : Word) : State :=
  { s1 with
    rxBuf := s1.rxBuf.writeBytes (s.rxAcc.toNat + 4 * s.rxW.toNat)
      (unpackWord d s.rxLen.toNat s.rxW.toNat)
    rxW := BitVec.ofNat 7 (s.rxW.toNat + 1) }

/-- `RX_DATA` after an answer, in a state with the invariant (R98, R99). -/
theorem State.Inv.onOk_rxData {s : State} (h : s.Inv) (hf : s.fsm = .rxData) (d : Word) (s1 : State)
    (hj1 : s1.rxJ = s.rxJ) (ha1 : s1.rxAvail = s.rxAvail) :
    s.onOk d s1 = .next (
      if s.rxW.toNat + 1 = nwords s.rxLen.toNat then
        (if s.rxJ.toNat + 1 = s.rxAvail.toNat then (s.rxStored s1 d).rxRecorded.recvDone
          else { (s.rxStored s1 d).rxRecorded with fsm := .rxSize })
      else s.rxStored s1 d) := by
  obtain ⟨b0, b1, b2, b3, b4, b5⟩ := h.rxData_bounds hf
  unfold State.onOk
  rw [hf]
  dsimp only
  rw [if_neg (by simp only [rxBufBytes] at b3 ⊢; omega)]
  by_cases hw : s.rxW.toNat + 1 = nwords s.rxLen.toNat
  · rw [if_pos hw, if_pos hw, rxRecord_eq]
    have hj2 : (s.rxStored s1 d).rxJ = s.rxJ := hj1
    have ha2 : (s.rxStored s1 d).rxAvail = s.rxAvail := ha1
    have e : ({ s1 with
        rxBuf := s1.rxBuf.writeBytes (s.rxAcc.toNat + 4 * s.rxW.toNat)
          (unpackWord d s.rxLen.toNat s.rxW.toNat)
        rxW := BitVec.ofNat 7 (s.rxW.toNat + 1) } : State) = s.rxStored s1 d := rfl
    rw [e, hj2, ha2, if_pos b2]
    split <;> rfl
  · rw [if_neg hw, if_neg hw]
    rfl

theorem lenSum_of {s t : State} {n a : Nat} (h : s.lenSum n = some a) (e : t.outLen = s.outLen) :
    t.lenSum n = some a := by
  rw [← h]
  exact lenSum_congr (fun _ _ => by rw [e])

/-- What one byte of `RXBUF` reads as after a data word is stored (R98). -/
theorem State.Inv.read_rxStored {s : State} (h : s.Inv) (s1 : State) (hb : s1.rxBuf = s.rxBuf) (d : Word)
    (a : Nat) (b0 : 4 * s.rxW.toNat < s.rxLen.toNat) :
    (s.rxStored s1 d).rxBuf.read a =
      if s.rxAcc.toNat + 4 * s.rxW.toNat ≤ a
          ∧ a < s.rxAcc.toNat + min (4 * s.rxW.toNat + 4) s.rxLen.toNat then
        some (byteOf d (a - (s.rxAcc.toNat + 4 * s.rxW.toNat)))
      else s.rxBuf.read a := by
  show (s1.rxBuf.writeBytes _ _).read a = _
  rw [hb, Memory.read_writeBytes (Memory.wf_rising h.buf), length_unpackWord]
  have e : s.rxAcc.toNat + 4 * s.rxW.toNat + min 4 (s.rxLen.toNat - 4 * s.rxW.toNat)
      = s.rxAcc.toNat + min (4 * s.rxW.toNat + 4) s.rxLen.toNat := by omega
  rw [e]
  split
  · exact getElem?_unpackWord (by omega)
  · rfl

/-- The sum of recorded lengths once the running message is recorded (R99). -/
theorem State.Inv.lenSum_rxRecorded {s s1 : State} (h : s.Inv) (hf : s.fsm = .rxData)
    (hj : s1.rxJ = s.rxJ) (ho : s1.outLen = s.outLen) (hl : s1.rxLen = s.rxLen) :
    s1.rxRecorded.lenSum (s.rxJ.toNat + 1) = some (s.rxAcc.toNat + s.rxLen.toNat) := by
  obtain ⟨b0, b1, b2, b3, b4, b5⟩ := h.rxData_bounds hf
  have hr := h.rx (by rw [hf]; rfl)
  apply lenSum_succ
  · rw [← hr.sum]
    apply lenSum_congr
    intro j hjj
    show (s1.outLen.setIfInBounds s1.rxJ.toNat _)[j]? = _
    rw [getElem?_setIfInBounds_of_lt _ _ _ _ (by omega), hj, if_neg (by omega), ho]
  · show (s1.outLen.setIfInBounds s1.rxJ.toNat _)[_]? = _
    rw [getElem?_setIfInBounds_of_lt _ _ _ _ (by omega), hj, if_pos rfl, hl]

end Sys2Proof.Machine
end

