-- ==== Sys2Proof/Laws/Run.lean ====
section
/-! SUPPORT. Runs of the block's step, one step at a time and in two parts. -/

namespace Sys2Proof.Machine

open Sys2Proof

theorem run_zero (s : State) : Host.Core.run core 0 s = .next s := rfl

theorem run_succ {s t : State} (h : step s = .next t) (k : Nat) :
    Host.Core.run core (k + 1) s = Host.Core.run core k t := by
  have hc : core.step s = .next t := h
  simp only [Host.Core.run, hc]

theorem run_add {s t : State} {j : Nat} (h : Host.Core.run core j s = .next t) (k : Nat) :
    Host.Core.run core (j + k) s = Host.Core.run core k t := by
  induction j generalizing s with
  | zero =>
    rw [run_zero] at h
    cases h
    rw [Nat.zero_add]
  | succ j ih =>
    have hadd : j + 1 + k = (j + k) + 1 := by omega
    cases hs : step s with
    | next s' =>
      rw [run_succ hs] at h
      rw [hadd, run_succ hs]
      exact ih h
    | fault r =>
      have hc : core.step s = .fault r := hs
      simp only [Host.Core.run, hc] at h
      cases h
    | refused r =>
      have hc : core.step s = .refused r := hs
      simp only [Host.Core.run, hc] at h
      cases h

end Sys2Proof.Machine
end

