-- ==== Sys2Proof/Tests/Slice0.lean ====
section
/-! SUPPORT. The model's own tests, their expected results from spec/95_test_vectors.md, and for every
statement with hypotheses a concrete case that meets them. -/

namespace Sys2Proof.Tests

open Sys2Proof Sys2Proof.Machine

/-- A check of a step that answers a next state. -/
def nextHas (r : Host.Outcome State Fault Refusal) (p : State → Bool) : Bool :=
  match r with
  | .next t => p t
  | .fault _ => false
  | .refused _ => false

/-! ### Well-formedness -/

theorem test_wellFormed_refuses_missing_payload :
    (Instr.enq 0 5 2 [0x44332211]).wellFormed = false := by decide
theorem test_wellFormed_refuses_extra_payload :
    (Instr.enq 0 4 2 [0x44332211, 0]).wellFormed = false := by decide
theorem test_wellFormed_accepts_no_payload : (Instr.enq 3 0 31 []).wellFormed = true := by decide

/-! ### Decoding (V-ENC): words written out bit by bit from R59, R61, R63, R64 -/

-- RSV 00000000, B 000 00010 (STN 2), A 00000101 (LEN 5), INST 0000, OP 0001
theorem test_decode_enq :
    decode [0b00000000000000100000010100000001#32, 0x44332211, 0x00000055]
      = .command (.enq 0 5 2 [0x44332211, 0x00000055]) [] := by decide
-- RSV 00000000, B 00000000, A 11111111 (BURST 255), INST 1111, OP 0010
theorem test_decode_flush :
    decode [0b00000000000000001111111111110010#32] = .command (.flush 15 255) [] := by decide
-- RSV 00000000, B 00001010 (MAXLEN 10), A 00000010 (MAXMSG 2), INST 0000, OP 0011
theorem test_decode_recv :
    decode [0b00000000000010100000001000000011#32] = .command (.recv 0 2 10) [] := by decide
-- V-ENC: B[5] = 1 with LEN 255 discards its whole payload
theorem test_decode_illegal_takes_payload :
    decode (0x0020FF01#32 :: List.replicate 64 0#32) = .illegal .reservedBits [] := by decide
-- V-ENC: OP 15
theorem test_decode_reserved_op : decode [0x0000000F#32] = .illegal .reservedOp [] := by decide
theorem test_decodeTableWord_flush : decodeTableWord 32 0x00001002 = some (.flush 0 16) := by decide
theorem test_decodeTableWord_enq_payload :
    decodeTableWord 64 0x0000004200010101 = some (.enq 0 1 1 [0x42]) := by decide
-- P3's CYCLE line
theorem test_assemble_cycle :
    (AsmLine.cycle 0 16 4 8).assemble = some [0x00001002, 0x00080403] := by decide
-- V-SRC-8's first message
theorem test_assemble_enq :
    (AsmLine.enq 0 2 [0x11, 0x22, 0x33, 0x44, 0x55]).assemble
      = some [0x00020501, 0x44332211, 0x00000055] := by decide

/-! ### Operands and classifier (V-SRC-2, V-PACK, V-DEC) -/

theorem test_nwords :
    [0, 1, 2, 3, 4, 5, 8, 252, 253, 254, 255].map nwords = [0, 1, 1, 1, 1, 2, 2, 63, 64, 64, 64] := by
  decide
theorem test_pack_three_bytes : txWords [0xAA, 0xBB, 0xCC] 3 = [0x00CCBBAA] := by decide
theorem test_pack_six_bytes :
    txWords [0xFF, 0xFF, 0xFF, 0xFF, 0xFF, 0xFF] 6 = [0xFFFFFFFF, 0x0000FFFF] := by decide
theorem test_unpack_six_bytes :
    unpackFrom 6 0 [0x44332211, 0x99886655] = [0x11, 0x22, 0x33, 0x44, 0x55, 0x66] := by decide
theorem test_mode_decoders :
    (txFifoError 0x00230010, rxAvailOf 0x00230010, rxAvailOf 0x00200000) = (true, 3, 0) := by decide
theorem test_size_decoders : (rxLenOf 0x00000E05, rxPktFlags 0x00000E05) = (5, 7) := by decide
theorem test_rxCheck :
    [rxCheck 0 20 20, rxCheck 1 20 20, rxCheck 5 15 20, rxCheck 6 15 20]
      = [.zero, .overcap, .ok, .overcap] := by decide
theorem test_negative_codes :
    (i32 (-214), i32 (-1120), i32 (-1140), i32 (-22)) = (0xFFFFFF2A, 0xFFFFFBA0, 0xFFFFFB8C, 0xFFFFFFEA) := by
  decide

/-! ### Sample states -/

/-- V-SRC-8's two messages, queued. -/
def twoMessages : WriteQueue :=
  { qlen := 2
    entries := [⟨5, 2, [0x11, 0x22, 0x33, 0x44, 0x55]⟩, ⟨3, 3, [0xAA, 0xBB, 0xCC]⟩] }

/-- A state in `f`: a FLUSH of `twoMessages` or a RECEIVE with capacity 20 and a message of five bytes. With
`last`, the running message is the last one, and a RECEIVE stands before its last data word. -/
def sample (f : Fsm) (last : Bool) (rs : List Response) : State :=
  { State.reset with
    fsm := f, responses := rs, queues := [twoMessages]
    txN := if last then 1 else 2
    txW := if f = .txData then 0 else 2
    rxCap := 20, rxAvail := if last then 1 else 2, rxLen := 5, rxStn := 2
    rxW := if last then 1 else 0
    rxBuf := if last then [(0, 0x11), (1, 0x22), (2, 0x33), (3, 0x44)] else [] }

theorem default_valid : Config.default.valid = true := by decide

theorem sample_inv (f : Fsm) (last : Bool) (rs : List Response) : (sample f last rs).Inv := by
  refine ⟨default_valid, rfl, ?_, of_decide_eq_true rfl, ?_, fun _ => rfl, fun _ => ?_, fun _ => ?_⟩
  · intro q hq
    have : q = twoMessages := by simpa [sample] using hq
    subst this
    rfl
  · cases last <;> rfl
  · refine ⟨?_, ?_, ?_, rfl, rfl, ?_⟩
    · cases last <;> exact of_decide_eq_true rfl
    · cases last <;> exact of_decide_eq_true rfl
    · cases last <;> exact of_decide_eq_true rfl
    · intro e he
      have : e = ⟨5, 2, [0x11, 0x22, 0x33, 0x44, 0x55]⟩ := by
        have h : (sample f last rs).txEntry = some ⟨5, 2, [0x11, 0x22, 0x33, 0x44, 0x55]⟩ := rfl
        rw [h] at he
        cases he
        rfl
      subst this
      by_cases hf : f = .txData
      · subst hf; exact of_decide_eq_true rfl
      · have hw : (sample f last rs).txW = 2 := by simp [sample, hf]
        have hf' : (sample f last rs).fsm ≠ .txData := hf
        rw [if_neg hf', hw]
        decide
  · refine ⟨of_decide_eq_true rfl, rfl, fun _ => rfl, fun _ => ?_, of_decide_eq_true rfl, of_decide_eq_true rfl, rfl, ?_, ?_, fun _ => ?_⟩
    · cases last <;> exact of_decide_eq_true rfl
    · intro j hj; exact absurd hj (Nat.not_lt_zero _)
    · intro k hk; exact absurd hk (Nat.not_lt_zero _)
    · refine ⟨of_decide_eq_true rfl, of_decide_eq_true rfl, ?_, ?_⟩
      · have h : ∀ b : Bool, (if b then (1 : BitVec 7) else 0).toNat < nwords (5 : Byte).toNat := by decide
        exact h last
      · intro k hk
        cases last with
        | false => exact absurd hk (Nat.not_lt_zero _)
        | true =>
          have hk' : k < 4 := hk
          show ∃ b, Memory.read [(0, 0x11), (1, 0x22), (2, 0x33), (3, 0x44)] k = some b
          interval_cases k <;> exact ⟨_, rfl⟩

/-- A RECEIVE before its station read, with the message length `len`. -/
def stationSample (len : Byte) (rs : List Response) : State := { sample .rxStn false rs with rxLen := len }

theorem stationSample_inv (len : Byte) (rs : List Response) : (stationSample len rs).Inv := by
  have h := sample_inv .rxStn false rs
  have hr := h.rx rfl
  refine ⟨h.cfg, h.queueCount, h.queues, h.inst, h.buf, h.waiting, (fun hx => by cases hx), fun _ => ?_⟩
  exact ⟨hr.cap, hr.count, hr.start, hr.index, hr.accCap, hr.accLen, lenSum_of hr.sum rfl, hr.stations,
    hr.bytes, (fun hx => by cases hx)⟩

/-- The reset state with one full queue of capacity 1 and one word list at the port. -/
def fullQueue : State :=
  { State.resetWith { Config.default with qcap := 1 } with
    queues := [{ qlen := 1, entries := [⟨0, 7, []⟩] }] }

/-- The reset state with the largest receive output: 31 messages of 255 bytes, `RXBUF[7904]` written. -/
def fullOutput : State :=
  { State.reset with
    rxCnt := 31, rxAcc := 7905, rxBuf := [(7904, 1)]
    outLen := Vector.replicate 31 (some 255), outStn := Vector.replicate 31 (some 31) }

/-! ### Steps of each command -/

-- V-ENQ last row: the padding byte of 0xFF030201 is ignored
theorem test_enq_ignores_padding :
    nextHas (step { State.reset with port := [0x00010301, 0xFF030201] }) (fun t =>
      t.queues.map (·.entries) == [[⟨3, 1, [0x01, 0x02, 0x03]⟩]] && t.result == 0 && t.count == 1) = true := by
  decide
-- V-ENQ row 3: a full queue
theorem test_enq_full_queue :
    nextHas (exec (.enq 0 1 1 [0x42]) fullQueue) (fun t =>
      t.result == 0xFFFFFFEA && t.count == 0 && t.callerErr && t.queues == fullQueue.queues) = true := by
  decide
-- P1: FLUSH 0, 16 of the two messages
theorem test_flush_starts :
    nextHas (step { sample .idle false [] with port := [0x00001002] }) (fun t =>
      t.fsm == .txData && t.txN == 2 && t.txM == 0 && t.port == []) = true := by decide
-- P1, transaction 1: W 0x1000 0x44332211
theorem test_flush_first_write :
    nextHas (step (sample .txData false [.ok 0])) (fun t =>
      t.history == [⟨.write, 0x1000, some 0x44332211, some (.ok 0)⟩] && t.fsm == .txData && t.txW == 1) = true := by
  decide
-- P2, transaction 5: R 0x100C -> 0xDEAD0055 stores 0x55 at RXBUF[4]
theorem test_recv_partial_word :
    nextHas (step (sample .rxData true [.ok 0xDEAD0055])) (fun t =>
      t.rxBuf == [(0, 0x11), (1, 0x22), (2, 0x33), (3, 0x44), (4, 0x55)] && t.fsm == .idle
        && t.result == 5 && t.count == 1) = true := by decide
-- V-SRC-5: 0 + 25 > 20
theorem test_recv_over_capacity :
    nextHas (step (stationSample 25 [.ok 1])) (fun t =>
      t.result == 0xFFFFFB8C && t.count == 0 && t.fsm == .idle && t.rxBuf == []) = true := by decide
-- P4: reserved OP
theorem test_illegal_word :
    nextHas (step { State.reset with port := [0x00000000] }) (fun t =>
      t.result == 0xFFFFFFEA && t.callerErr && t.port == [] && t.history == []) = true := by decide
-- V-TX: a failed first write
theorem test_abort_empties_the_queue :
    nextHas (step (sample .txData false [.fail])) (fun t =>
      t.result == 0xFFFFFFFB && t.count == 0 && t.fsm == .idle && t.queues.map (·.qlen) == [0]) = true := by
  decide
-- R148, I23: the first RECEIVE's message is stale once the next RECEIVE is accepted and aborts
theorem test_stale_output_gives_no_value :
    nextHas (exec (.recv 0 2 10) fullOutput) (fun t =>
      nextHas (step { t with responses := [.fail] }) (fun u =>
        u.fsm == .idle && u.outLen[0]? == some (some 255) && (hostRead u (.rxlen 0)).toOption == none
          && (hostRead fullOutput (.rxlen 0)).toOption == some 255)) = true := by decide
-- withFetchWord runs its word as the first command after reset
theorem test_withFetchWord :
    nextHas (step (State.reset.withFetchWord 32 0x00FFFF03)) (fun t =>
      t.fsm == .rxMode && t.rxCap == 65025 && t.port == []) = true := by decide

/-! ### A case for the hypotheses of every statement -/

theorem witness_DecodeOfEncode :
    (Instr.enq 0 5 2 [0x44332211, 0xFFFFFF55]).wellFormed = true ∧ (Instr.flush 15 255).wellFormed = true
      ∧ (Instr.recv 0 2 10).wellFormed = true := by decide
theorem witness_DecodedWords : decode [0x00030201, 0xFFFF0201, 0x00000002]
    = .command (.enq 0 2 3 [0xFFFF0201]) [0x00000002] := by decide
-- LEN 5 takes two payload words: one is too few, two are enough; a reserved opcode takes none
theorem witness_CommandLength :
    (0x00020501 : Word).toNat % 16 = 1 ∧ nwords ((0x00020501 : Word).toNat / 256 % 256) = 2
      ∧ [(0x44332211 : Word)].length < 2 ∧ 2 ≤ [(0x44332211 : Word), 0x55].length
      ∧ (0x0000FF04 : Word).toNat % 16 ≠ 1 := by decide
theorem witness_CommandIsLegal :
    decode [0x001F0001] ≠ .incomplete ∧ decode [0x00200001] ≠ .incomplete
      ∧ decode [0x0000FFF2] ≠ .incomplete ∧ decode [0x00FFFFF3] ≠ .incomplete := by decide
theorem witness_Cycle :
    ∃ ws us, (AsmLine.flush 15 255).assemble = some ws ∧ (AsmLine.recv 15 255 0).assemble = some us :=
  ⟨_, _, rfl, rfl⟩
theorem witness_IdleStep :
    State.reset.fsm = .idle ∧ (Instr.enq 0 1 1 [0x42]).wellFormed = true
      ∧ ({ State.reset with port := [0x00010101, 0x42, 0x00001002] } : State).port
        = encode (.enq 0 1 1 [0x42]) ++ [0x00001002] := by decide
theorem witness_IllegalCommand : decode [0x00010002, 0x00001002] = .illegal .reservedBits [0x00001002] := by
  decide
theorem witness_PortIsHeld :
    State.reset.fsm = .idle ∧ decode State.reset.port = .incomplete
      ∧ ∃ t, (sample .rxSize false [.ok 5]).fsm ≠ .idle ∧ step (sample .rxSize false [.ok 5]) = .next t :=
  ⟨rfl, rfl, _, by decide, rfl⟩
/-- Every state of a running command, waiting, answered `Fail` and answered `Ok`. -/
theorem witness_RunningStates (f : Fsm) (h : f ≠ .idle) (rs : List Response) :
    ∃ s : State, s.Inv ∧ s.fsm = f ∧ s.fsm ≠ .idle ∧ s.responses = rs :=
  ⟨sample f false rs, sample_inv f false rs, rfl, h, rfl⟩
theorem witness_AtMostOneTransaction :
    (∃ t, step (sample .txData false [.ok 0]) = .next t ∧ t.history.length = 1)
      ∧ ∃ t, step (sample .txData false []) = .next t ∧ t.history.length = 0 :=
  ⟨⟨_, rfl, rfl⟩, _, rfl, rfl⟩
theorem witness_EnqAppends :
    ∃ q, (0 : BitVec 4).toNat < State.reset.cfg.ni ∧ State.reset.queues[(0 : BitVec 4).toNat]? = some q
      ∧ q.ok State.reset.cfg.qcap = true ∧ State.reset.cfg.qcap ≤ 255
      ∧ q.qlen.toNat ≠ State.reset.cfg.qcap :=
  ⟨_, by decide, rfl, by decide, by decide, by decide⟩
theorem witness_EnqFrame : ∃ t q q', exec (.enq 0 1 1 [0x42]) (sample .idle false []) = .next t
    ∧ (sample .idle false []).queues[(0 : BitVec 4).toNat]? = some q
    ∧ t.queues[(0 : BitVec 4).toNat]? = some q' ∧ q.qlen.toNat ≤ q.entries.length ∧ 0 ≠ q.qlen.toNat :=
  ⟨_, _, _, rfl, rfl, rfl, by decide, by decide⟩
-- instance 1 of one; a queue of capacity 1 with one message
theorem witness_RejectedCommands :
    State.reset.cfg.ni ≤ (Instr.flush 1 16).inst.toNat
      ∧ ∃ q, (0 : BitVec 4).toNat < fullQueue.cfg.ni ∧ fullQueue.queues[(0 : BitVec 4).toNat]? = some q
        ∧ q.qlen.toNat = fullQueue.cfg.qcap :=
  ⟨by decide, _, by decide, rfl, by decide⟩
theorem witness_FlushAccept :
    (0 : BitVec 4).toNat < (sample .idle false []).cfg.ni
      ∧ (sample .idle false []).queues[(0 : BitVec 4).toNat]? = some twoMessages
      ∧ twoMessages.ok (sample .idle false []).cfg.qcap = true
      ∧ 2 = min (min twoMessages.qlen.toNat (255 : Byte).toNat) 16 ∧ (2 : Nat) ≠ 0 := by
  refine ⟨by decide, rfl, by decide, by decide, by decide⟩
-- the empty queue, and a burst of 0
theorem witness_FlushOfNothing :
    (∃ q, State.reset.queues[(0 : BitVec 4).toNat]? = some q ∧ q.qlen = 0)
      ∧ (0 : BitVec 4).toNat < State.reset.cfg.ni ∧ twoMessages.qlen ≠ 0 ∧ (0 : Byte) = 0 :=
  ⟨⟨_, rfl, rfl⟩, by decide, by decide, rfl⟩
theorem witness_FlushAcceptFrame :
    (∃ t, exec (.flush 0 16) (sample .idle false []) = .next t)
      ∧ ∃ t, exec (.flush 1 16) (sample .idle false []) = .next t := ⟨⟨_, rfl⟩, _, rfl⟩
theorem witness_RecvAccept :
    (0 : BitVec 4).toNat < State.reset.cfg.ni ∧ State.reset.queues.length = State.reset.cfg.ni := by decide
theorem witness_RecvAcceptFrame :
    (∃ t, exec (.recv 0 255 255) State.reset = .next t)
      ∧ ∃ t, exec (.recv 1 255 255) State.reset = .next t := ⟨⟨_, rfl⟩, _, rfl⟩
theorem witness_TxData : ∃ s : State, s.Inv ∧ s.fsm = .txData ∧ s.responses = [.ok 0] :=
  ⟨_, sample_inv .txData false [.ok 0], rfl, rfl⟩
theorem witness_TxSizeAndStation :
    (∃ s : State, s.Inv ∧ s.fsm = .txSize ∧ s.responses = [.ok 0])
      ∧ ∃ s : State, s.Inv ∧ s.fsm = .txStn ∧ s.responses = [.ok 0] :=
  ⟨⟨_, sample_inv .txSize false [.ok 0], rfl, rfl⟩, _, sample_inv .txStn false [.ok 0], rfl, rfl⟩
theorem witness_TxModeNext : ∃ s : State, s.Inv ∧ s.fsm = .txMode ∧ s.responses = [.ok 0xFFFFFFEF]
    ∧ (0xFFFFFFEF : Word).getLsbD 4 = false ∧ s.txM.toNat + 1 ≠ s.txN.toNat :=
  ⟨_, sample_inv .txMode false [.ok 0xFFFFFFEF], rfl, rfl, by decide, by decide⟩
theorem witness_TxModeLast : ∃ s : State, s.Inv ∧ s.fsm = .txMode ∧ s.responses = [.ok 0]
    ∧ (0 : Word).getLsbD 4 = false ∧ s.txM.toNat + 1 = s.txN.toNat :=
  ⟨_, sample_inv .txMode true [.ok 0], rfl, rfl, by decide, by decide⟩
theorem witness_TxModeErrorBit : ∃ s : State, s.Inv ∧ s.fsm = .txMode ∧ s.responses = [.ok 0x10]
    ∧ (0x10 : Word).getLsbD 4 = true :=
  ⟨_, sample_inv .txMode false [.ok 0x10], rfl, rfl, by decide⟩
-- five bytes: byte 4 is the last of the message, byte 5 is padding
theorem witness_DataWord :
    1 < nwords 5 ∧ 4 * 1 + 0 < 5 ∧ ¬ 4 * 1 + 1 < 5 := by decide
theorem witness_BusFailure :
    (∃ s : State, s.Inv ∧ s.fsm.isTx = true ∧ s.responses = [.fail])
      ∧ ∃ s : State, s.Inv ∧ s.fsm.isRx = true ∧ s.responses = [.fail] :=
  ⟨⟨_, sample_inv .txData false [.fail], rfl, rfl⟩, _, sample_inv .rxData true [.fail], rfl, rfl⟩
-- counts 0, 1 and 31
theorem witness_RxMode :
    (∃ s : State, s.Inv ∧ s.fsm = .rxMode ∧ s.responses = [.ok 0xFFE0FFFF])
      ∧ (0xFFE0FFFF : Word).toNat / 65536 % 32 = 0
      ∧ (0x00010000 : Word).toNat / 65536 % 32 = 1 ∧ (0x001F0000 : Word).toNat / 65536 % 32 = 31 :=
  ⟨⟨_, sample_inv .rxMode false [.ok 0xFFE0FFFF], rfl, rfl⟩, by decide, by decide, by decide⟩
theorem witness_RxSize : ∃ s : State, s.Inv ∧ s.fsm = .rxSize ∧ s.responses = [.ok 0xFFFFFFFF] :=
  ⟨_, sample_inv .rxSize false [.ok 0xFFFFFFFF], rfl, rfl⟩
-- length 0; one byte above the capacity of 20; exactly the capacity
theorem witness_RxStation :
    (∃ s : State, s.Inv ∧ s.fsm = .rxStn ∧ s.responses = [.ok 0] ∧ s.rxLen.toNat = 0)
      ∧ (∃ s : State, s.Inv ∧ s.fsm = .rxStn ∧ s.responses = [.ok 0] ∧ s.rxLen.toNat ≠ 0
          ∧ s.rxAcc.toNat + s.rxLen.toNat = s.rxCap.toNat + 1)
      ∧ ∃ s : State, s.Inv ∧ s.fsm = .rxStn ∧ s.responses = [.ok 0] ∧ s.rxLen.toNat ≠ 0
          ∧ s.rxAcc.toNat + s.rxLen.toNat = s.rxCap.toNat :=
  ⟨⟨_, stationSample_inv 0 [.ok 0], rfl, rfl, rfl⟩,
    ⟨_, stationSample_inv 21 [.ok 0], rfl, rfl, by decide, by decide⟩,
    ⟨_, stationSample_inv 20 [.ok 0], rfl, rfl, by decide, by decide⟩⟩
theorem witness_RxData :
    (∃ s : State, s.Inv ∧ s.fsm = .rxData ∧ s.responses = [.ok 0x44332211]
      ∧ s.rxW.toNat + 1 ≠ nwords s.rxLen.toNat)
      ∧ ∃ s : State, s.Inv ∧ s.fsm = .rxData ∧ s.responses = [.ok 0xDEAD0055]
        ∧ s.rxW.toNat + 1 = nwords s.rxLen.toNat :=
  ⟨⟨_, sample_inv .rxData false [.ok 0x44332211], rfl, rfl, by decide⟩,
    _, sample_inv .rxData true [.ok 0xDEAD0055], rfl, rfl, by decide⟩
theorem witness_ValidConfig : Config.default.valid = true := default_valid
-- the ten-register layout; no instance and seventeen; two instances with the same addresses
theorem witness_RefusedConfigs :
    (∃ c : Config, c.layout = .tenRegisters)
      ∧ (∃ c : Config, c.layout = .twelveRegisters ∧ c.ni = 0 ∧ c.inRange = false)
      ∧ (∃ c : Config, c.layout = .twelveRegisters ∧ c.ni = 17 ∧ c.inRange = false)
      ∧ ∃ c : Config, c.layout = .twelveRegisters ∧ c.inRange = true ∧ ¬ c.allAddrs.Nodup :=
  ⟨⟨{ Config.default with layout := .tenRegisters }, rfl⟩,
    ⟨{ Config.default with ni := 0, regmap := [] }, rfl, rfl, by decide⟩,
    ⟨{ Config.default with ni := 17 }, rfl, rfl, by decide⟩,
    { Config.default with
      ni := 2, regmap := [RegMap.ofFormula 0x1000 0x40 4 0, RegMap.ofFormula 0x1000 0x40 4 0] },
    rfl, by decide, by decide⟩
theorem witness_ConfigureNext : ∃ t, configure Config.default = .next t := ⟨_, rfl⟩
theorem witness_FlushWrites : [(0x44332211 : Word), 0xFFFFFF55].length = nwords (5 : Byte).toNat
    ∧ 1 < nwords (5 : Byte).toNat := by decide
-- no request outstanding; one without an answer; one whose answer the block has not used
theorem witness_ResetEvent :
    (sample .txData false []).outstanding = none
      ∧ ∃ t q, step (sample .txData false []) = .next t ∧ t.outstanding = some q
        ∧ t.responses = [] ∧ (t.deviceAnswers .fail).outstanding = some q
        ∧ (t.deviceAnswers .fail).responses = [.fail] := ⟨rfl, _, _, rfl, rfl, rfl, rfl, rfl⟩
-- the record of a dropped read, then with its answer
theorem witness_LateAnswer :
    ∃ t q, step (sample .rxMode false []) = .next t
      ∧ t.applyReset.history[0]? = some ⟨BusReq.kind q, q.addr, q.data, none⟩
      ∧ ∃ e, (t.applyReset.lateAnswer 0 (.ok 3)).history[0]? = some e ∧ e.response ≠ none :=
  ⟨_, ⟨.read, 0x1018, none⟩, rfl, rfl, _, rfl, by decide⟩
theorem witness_Inv_step : ∃ t : State, State.Inv (sample .txData false [.ok 0])
    ∧ step (sample .txData false [.ok 0]) = .next t := ⟨_, sample_inv .txData false [.ok 0], rfl⟩
theorem witness_Moves (m : Move) : ∃ s t : State, s.Inv ∧ s.move m = .next t := by
  cases m <;> exact ⟨_, _, sample_inv .txData false [.ok 0], rfl⟩
theorem witness_Reachable : Reachable (State.resetWith Config.default) := .boot _ default_valid
-- a completing step, an accepting step and an idle wait
theorem witness_ResultsAreWritten :
    (∃ t, step (sample .rxData false [.ok 0]) = .next t ∧ t.fsm ≠ .idle)
      ∧ ∃ t, step State.reset = .next t ∧ State.reset.fsm = .idle
        ∧ decode State.reset.port = .incomplete :=
  ⟨⟨_, rfl, by decide⟩, _, rfl, rfl, rfl⟩
theorem witness_CallerErr :
    (∃ t, step { State.reset with port := [0] } = .next t ∧ t.callerErr = true)
      ∧ (∃ t, step { State.reset with port := [0x00001012] } = .next t ∧ t.callerErr = true)
      ∧ ∃ t, step { fullQueue with port := [0x00010101, 0x10] } = .next t ∧ t.callerErr = true :=
  ⟨⟨_, rfl, rfl⟩, ⟨_, rfl, rfl⟩, _, rfl, rfl⟩
theorem witness_QueuesChange :
    (∃ t, step { State.reset with port := [0x00070001] } = .next t
      ∧ t.queues[0]? ≠ State.reset.queues[0]?)
      ∧ ∃ t, step (sample .txMode true [.ok 0]) = .next t
        ∧ t.queues[0]? ≠ (sample .txMode true [.ok 0]).queues[0]? :=
  ⟨⟨_, rfl, by decide⟩, _, rfl, by decide⟩
theorem witness_Completion :
    (∃ s t : State, s.Inv ∧ s.fsm.isTx = true ∧ step s = .next t ∧ t.fsm = .idle)
      ∧ ∃ s t : State, s.Inv ∧ s.fsm.isRx = true ∧ step s = .next t ∧ t.fsm = .idle :=
  ⟨⟨_, _, sample_inv .txMode true [.ok 0], rfl, rfl, rfl⟩,
    _, _, sample_inv .rxData true [.ok 0x55], rfl, rfl, rfl⟩
theorem witness_ResultChanges : ∃ s t : State, s.Inv ∧ step s = .next t ∧ t.result ≠ s.result :=
  ⟨_, _, sample_inv .txMode true [.ok 0x10], rfl, by decide⟩
theorem witness_RxWrites : ∃ s t : State, s.Inv ∧ step s = .next t ∧ t.rxBuf.read 4 ≠ s.rxBuf.read 4 :=
  ⟨_, _, sample_inv .rxData true [.ok 0x55], rfl, by decide⟩
-- two words that agree in the decoded field only
theorem witness_UndecodedBits :
    (0xFFFFFFEF : Word).getLsbD 4 = (0 : Word).getLsbD 4
      ∧ (0xFFE0FFFF : Word).toNat / 65536 % 32 = (0 : Word).toNat / 65536 % 32
      ∧ (0x00000E03 : Word).toNat % 256 = (3 : Word).toNat % 256
      ∧ (0xFFFFFFE0 : Word).toNat % 32 = (0 : Word).toNat % 32
      ∧ (∀ k, k < 4 → 4 * (sample .rxData true []).rxW.toNat + k < (sample .rxData true []).rxLen.toNat →
          byteOf 0xDEAD0055 k = byteOf 0x55 k)
      ∧ ∀ f : Fsm, ∃ t, step (sample f false [.ok 0]) = .next t := by
  refine ⟨by decide, by decide, by decide, by decide, by decide, fun f => ?_⟩
  cases f <;> exact ⟨_, rfl⟩
-- RXBUF[7904], RXLEN[30] and RXSTN[30]: with no value, stale, and in the valid region
theorem witness_HostReads :
    State.reset.fsm = .idle ∧ State.reset.queues[0]? ≠ none ∧ State.reset.queues.length ≤ 1
      ∧ State.reset.rxBuf.read 7904 = none ∧ State.reset.outLen[30]? = some none
      ∧ State.reset.outStn[30]? = some none
      ∧ fullOutput.fsm = .idle ∧ 7904 < fullOutput.rxAcc.toNat ∧ fullOutput.rxBuf.read 7904 = some 1
      ∧ 30 < fullOutput.rxCnt.toNat ∧ fullOutput.outLen[30]? = some (some 255)
      ∧ fullOutput.outStn[30]? = some (some 31)
      ∧ ({ fullOutput with rxAcc := 7904, rxCnt := 30 } : State).rxAcc.toNat ≤ 7904
      ∧ ({ fullOutput with rxAcc := 7904, rxCnt := 30 } : State).rxCnt.toNat ≤ 30
      ∧ (sample .rxMode false []).fsm ≠ .idle ∧ HostReg.result ≠ .status := by
  refine ⟨rfl, by decide, by decide, rfl, rfl, rfl, rfl, by decide, rfl, by decide, rfl, rfl, by decide,
    by decide, by decide, by decide⟩

/-- The first row of the test configuration's register map. -/
def row0 : RegMap := RegMap.ofFormula 0x1000 0x40 4 0

-- P1: nine transactions, RESULT 8, COUNT 2
theorem witness_FlushRun :
    let s := sample .idle false (List.replicate 9 (.ok 0))
    ∃ r, s.Inv ∧ s.fsm = .idle ∧ s.queues[(0 : BitVec 4).toNat]? = some twoMessages
      ∧ s.cfg.regmap[(0 : BitVec 4).toNat]? = some row0
      ∧ flushAlgorithm s.cfg row0 twoMessages 16 s.responses = some r
      ∧ r.result = 8 ∧ r.count = 2 ∧ r.events.length = 9
      ∧ r.count
        = (twoMessages.entries.take (min (min twoMessages.qlen.toNat (16 : Byte).toNat) 16)).length :=
  ⟨_, sample_inv _ _ _, rfl, rfl, rfl, rfl, by decide, by decide, by decide, by decide⟩
-- P2: eight transactions, RESULT 8, COUNT 2
theorem witness_RecvRun :
    let rs : List Response := [.ok 0x00020000, .ok 5, .ok 2, .ok 0x44332211, .ok 0xDEAD0055, .ok 0x00000E03,
      .ok 0x000000FF, .ok 0x00CCBBAA]
    let s := sample .idle false rs
    ∃ r, s.Inv ∧ s.fsm = .idle ∧ s.cfg.regmap[(0 : BitVec 4).toNat]? = some row0
      ∧ s.responses = .ok 0x00020000 :: rs.tail
      ∧ recvAlgorithm s.cfg row0 2 10 s.rxOut s.responses = some r
      ∧ r.result = 8 ∧ r.count = 2 ∧ r.events.length = 8 ∧ r.count = (rxAvailOf 0x00020000).toNat :=
  ⟨_, sample_inv _ _ _, rfl, rfl, rfl, rfl, by decide, by decide, by decide, by decide⟩

end Sys2Proof.Tests
end

/-! SUPPORT. The state family (10_state.md): the invariant under every step and every move, no step from it
stops, the transaction of a state, the reset state, and what the host reads. -/

namespace Sys2Proof.Machine

open Sys2Proof

/-! ### The states of a FLUSH and of a RECEIVE -/

theorem Fsm.ne_idle_of_isTx {f : Fsm} (h : f.isTx = true) : f ≠ .idle := by
  rintro rfl; cases h

theorem Fsm.ne_idle_of_isRx {f : Fsm} (h : f.isRx = true) : f ≠ .idle := by
  rintro rfl; cases h

theorem Fsm.isTx_eq_false_of_isRx {f : Fsm} (h : f.isRx = true) : f.isTx = false := by
  cases f <;> simp_all [Fsm.isTx, Fsm.isRx]

theorem Fsm.isRx_eq_false_of_isTx {f : Fsm} (h : f.isTx = true) : f.isRx = false := by
  cases f <;> simp_all [Fsm.isTx, Fsm.isRx]

theorem isTx_txStart (len : Byte) : (txStart len).isTx = true := by
  unfold txStart; split <;> rfl

/-! ### What keeps the invariant: the bus and the port, a rejection, a state back in `IDLE` -/

/-- Of the port, the answers, the request that waits and the history the invariant asks only that nothing
waits in `IDLE`. -/
theorem State.Inv.withBus {s : State} (h : s.Inv) (port : List Word) (rs : List Response)
    (hist : List Event) {out : Option BusReq} (ho : s.fsm = .idle → out = none) :
    State.Inv { s with port := port, responses := rs, history := hist, outstanding := out } where
  cfg := h.cfg
  queueCount := h.queueCount
  queues := h.queues
  inst := h.inst
  buf := h.buf
  waiting := ho
  tx hf :=
    have ht := h.tx hf
    ⟨ht.burst, ht.queued, ht.index, ht.sent, ht.total, ht.word⟩
  rx hf :=
    have hr := h.rx hf
    ⟨hr.cap, hr.count, hr.start, hr.index, hr.accCap, hr.accLen, lenSum_of hr.sum rfl, hr.stations,
      hr.bytes, hr.data⟩

theorem State.Inv.take {s : State} (h : s.Inv) (rest : List Word) : (s.take rest).Inv :=
  h.withBus rest s.responses s.history h.waiting

/-- A rejection at acceptance (R68, R128) keeps the invariant. -/
theorem State.Inv.reject {s : State} (h : s.Inv) (hf : s.fsm = .idle) (k : ErrorKind) :
    (s.reject k).Inv :=
  State.inv_of_idle hf h.cfg h.queueCount h.queues h.inst h.buf (h.waiting hf)

/-- A FLUSH that completes (R84) keeps the invariant; `t` is the state before its completion. -/
theorem State.Inv.flushDone {s t : State} (h : s.Inv) (hcfg : t.cfg = s.cfg) (hq : t.queues = s.queues)
    (hi : t.curInst.toNat < s.cfg.ni) (hb : t.rxBuf = s.rxBuf) (ho : t.outstanding = none) :
    t.flushDone.Inv := by
  refine State.inv_of_idle rfl (by simpa [hcfg] using h.cfg) ?_ ?_ (by simpa [hcfg] using hi)
    (by simpa [hb] using h.buf) ho
  · simpa [hcfg, hq] using h.queueCount
  · show ∀ q ∈ Machine.emptied t.queues t.curInst.toNat, q.ok t.cfg.qcap = true
    rw [hcfg, hq]
    exact h.emptied _

/-! ### Acceptance -/

/-- The word index 0 fits the state in which a message starts (R78, R83). -/
theorem txStart_word (len : Byte) :
    if txStart len = .txData then 0 < nwords len.toNat else 0 = nwords len.toNat := by
  unfold txStart
  by_cases h : 0 < nwords len.toNat
  · simp [h]
  · have h0 : nwords len.toNat = 0 := by omega
    simp [h0]

theorem State.Inv.execEnq {s t : State} (h : s.Inv) (hf : s.fsm = .idle) {i : BitVec 4} {len : Byte}
    {stn : Station} {p : List Word} (he : Machine.execEnq i len stn p s = .next t) : t.Inv := by
  rcases execEnq_next he with ⟨_, rfl⟩ | ⟨_, _, _, _, rfl⟩ | ⟨q, hq, _, hne, rfl⟩
  · exact h.reject hf _
  · exact h.reject hf _
  · refine State.inv_of_idle hf h.cfg (by simpa using h.queueCount) ?_ h.inst h.buf (h.waiting hf)
    intro q' hq'
    rcases List.mem_or_eq_of_mem_set hq' with hold | rfl
    · exact h.queues q' hold
    · obtain ⟨_, _, hcap, _⟩ := valid_range h.cfg
      exact WriteQueue.ok_push (h.queues q (List.mem_of_getElem? hq)) hcap hne (by simp) stn

/-- The transmit registers once a FLUSH of `n` messages is accepted (R25, R78). -/
theorem flushInit_txOk {s : State} {i : BitVec 4} {q : WriteQueue} {e : QEntry} {burst : Byte}
    (hq : s.queues[i.toNat]? = some q) (hn : flushCount q burst ≠ 0) (he : q.entry? 0 = some e) :
    State.TxOk { s.flushInit i (flushCount q burst) with fsm := txStart e.len } := by
  have hmin : flushCount q burst ≤ q.qlen.toNat ∧ flushCount q burst ≤ 16 := by
    simp only [flushCount, maxBurst]; omega
  have hN : (BitVec.ofNat 5 (flushCount q burst)).toNat = flushCount q burst :=
    toNat_ofNat_lt (by omega)
  have hcur : State.curQueue { s.flushInit i (flushCount q burst) with fsm := txStart e.len } = q :=
    State.curQueue_of hq
  refine ⟨?_, ?_, ?_, rfl, rfl, ?_⟩
  · rw [State.flushInit_txN, hN]; exact hmin.2
  · rw [hcur, State.flushInit_txN, hN]; exact hmin.1
  · rw [State.flushInit_txN, hN]; exact Nat.pos_of_ne_zero hn
  · intro e' he'
    rw [State.txEntry, hcur] at he'
    cases he.symm.trans he'
    exact txStart_word e.len

theorem State.Inv.execFlush {s t : State} (h : s.Inv) (hf : s.fsm = .idle) {i : BitVec 4} {burst : Byte}
    (he : Machine.execFlush i burst s = .next t) : t.Inv := by
  rcases execFlush_next he with ⟨_, rfl⟩ | ⟨q, hq, hi, ⟨_, rfl⟩ | ⟨hn, e, he0, rfl⟩⟩
  · exact h.reject hf _
  · exact h.flushDone rfl rfl hi rfl (h.waiting hf)
  · exact ⟨h.cfg, h.queueCount, h.queues, hi, h.buf, fun _ => h.waiting hf,
      fun _ => flushInit_txOk hq hn he0,
      fun hx => by simp [Fsm.isRx_eq_false_of_isTx (isTx_txStart _)] at hx⟩

/-! ### The receive output -/

/-- The part of the receive invariant that also holds once the RECEIVE has ended (R27, R101): the counts and
the recorded messages. -/
structure State.RxOutput (s : State) : Prop where
  count : s.rxCnt.toNat = s.rxJ.toNat
  accCap : s.rxAcc.toNat ≤ s.rxCap.toNat
  accLen : s.rxAcc.toNat ≤ maxMsgLen * s.rxJ.toNat
  sum : s.lenSum s.rxJ.toNat = some s.rxAcc.toNat
  stations : ∀ j, j < s.rxJ.toNat → ∃ b, s.outStn[j]? = some (some b)
  bytes : ∀ k, k < s.rxAcc.toNat → ∃ b, s.rxBuf.read k = some b

theorem State.RxOk.output {s : State} (h : s.RxOk) : s.RxOutput :=
  ⟨h.count, h.accCap, h.accLen, h.sum, h.stations, h.bytes⟩

/-- A state with the same counts and the same output has the property as well. -/
theorem State.RxOutput.of_same {s t : State} (h : s.RxOutput) (hcap : t.rxCap = s.rxCap)
    (hcnt : t.rxCnt = s.rxCnt) (hj : t.rxJ = s.rxJ) (hacc : t.rxAcc = s.rxAcc)
    (hout : t.rxOut = s.rxOut) : t.RxOutput := by
  obtain ⟨hl, hs, hb⟩ := RxOut.mk.inj hout
  refine ⟨?_, ?_, ?_, ?_, ?_, ?_⟩
  · rw [hcnt, hj]; exact h.count
  · rw [hacc, hcap]; exact h.accCap
  · rw [hacc, hj]; exact h.accLen
  · rw [hacc, hj]; exact lenSum_of h.sum hl
  · rw [hs, hj]; exact h.stations
  · rw [hb, hacc]; exact h.bytes

/-- The receive invariant is the output's part of it, the bounds of R26 and what holds in `RX_DATA`. -/
theorem State.RxOutput.rxOk {s : State} (h : s.RxOutput) (hcap : s.rxCap.toNat ≤ 65025)
    (hstart : s.fsm = .rxMode → s.rxJ = 0) (hidx : s.fsm ≠ .rxMode → s.rxJ.toNat < s.rxAvail.toNat)
    (hdata : s.fsm = .rxData →
      0 < s.rxLen.toNat ∧ s.rxAcc.toNat + s.rxLen.toNat ≤ s.rxCap.toNat
        ∧ s.rxW.toNat < nwords s.rxLen.toNat
        ∧ ∀ k, k < s.rxAcc.toNat + 4 * s.rxW.toNat → ∃ b, s.rxBuf.read k = some b) : s.RxOk :=
  ⟨hcap, h.count, hstart, hidx, h.accCap, h.accLen, h.sum, h.stations, h.bytes, hdata⟩

theorem State.Inv.execRecv {s t : State} (h : s.Inv) (hf : s.fsm = .idle) {i : BitVec 4} {a b : Byte}
    (he : Machine.execRecv i a b s = .next t) : t.Inv := by
  rcases execRecv_next he with ⟨_, rfl⟩ | ⟨hi, rfl⟩
  · exact h.reject hf _
  · have hcap : (BitVec.ofNat 16 (a.toNat * b.toNat)).toNat ≤ 65025 := by
      have : a.toNat * b.toNat ≤ 255 * 255 :=
        Nat.mul_le_mul (Nat.le_of_lt_succ a.isLt) (Nat.le_of_lt_succ b.isLt)
      simp only [BitVec.toNat_ofNat]; omega
    refine ⟨h.cfg, h.queueCount, h.queues, hi, h.buf, nofun, nofun, fun _ => ?_⟩
    refine ⟨hcap, rfl, fun _ => rfl, fun hm => absurd rfl hm, Nat.zero_le _, Nat.zero_le _, rfl,
      ?_, ?_, nofun⟩
    · exact fun j hj => absurd hj (Nat.not_lt_zero j)
    · exact fun k hk => absurd hk (Nat.not_lt_zero k)

/-- The acceptance step of a command keeps the invariant (R70). -/
theorem State.Inv.exec {s t : State} (h : s.Inv) (hf : s.fsm = .idle) {i : Instr}
    (he : Machine.exec i s = .next t) : t.Inv := by
  cases i with
  | enq inst len stn payload => exact h.execEnq hf he
  | flush inst burst => exact h.execFlush hf he
  | recv inst maxMsg maxLen => exact h.execRecv hf he

theorem State.Inv.step_idle {s t : State} (h : s.Inv) (hf : s.fsm = .idle) (hs : step s = .next t) :
    t.Inv := by
  rcases step_idle_next hf hs with ⟨_, rfl⟩ | ⟨_, rest, _, rfl⟩ | ⟨i, rest, _, he⟩
  · exact h
  · exact (h.take rest).reject hf _
  · exact (h.take rest).exec hf he

/-! ### The steps of a FLUSH -/

/-- A state of the same FLUSH on the same queues has the invariant when its transmit registers do. -/
theorem State.Inv.of_txOk {s t : State} (h : s.Inv) (hcfg : t.cfg = s.cfg) (hq : t.queues = s.queues)
    (hi : t.curInst = s.curInst) (hb : t.rxBuf = s.rxBuf) (hf : t.fsm.isTx = true) (ht : t.TxOk) :
    t.Inv where
  cfg := hcfg ▸ h.cfg
  queueCount := by rw [hq, hcfg]; exact h.queueCount
  queues := by rw [hq, hcfg]; exact h.queues
  inst := by rw [hi, hcfg]; exact h.inst
  buf := hb ▸ h.buf
  waiting hidle := absurd hidle (Fsm.ne_idle_of_isTx hf)
  tx _ := ht
  rx hr := by rw [Fsm.isRx_eq_false_of_isTx hf] at hr; cases hr

/-- Within a message only the state and the word index move (R79 to R81). -/
theorem State.Inv.sameMessage {s : State} {e : QEntry} {f : Fsm} {w : BitVec 7} (h : s.Inv)
    (hx : s.fsm.isTx = true) (he : s.txEntry = some e) (hf : f.isTx = true)
    (hw : if f = .txData then w.toNat < nwords e.len.toNat else w.toNat = nwords e.len.toNat)
    (q : BusReq) (r : Response) (rest : List Response) :
    State.Inv { s.answered q r rest with txW := w, fsm := f } := by
  have ht := h.tx hx
  refine h.of_txOk rfl rfl rfl rfl hf ⟨ht.burst, ht.queued, ht.index, ht.sent, ht.total, ?_⟩
  intro e' he'
  cases he.symm.trans he'
  exact hw

/-- The transmit registers when the mode word has counted message `TX_M` and another one follows
(R82, R83). -/
theorem State.Inv.nextMessage_txOk {s : State} {e e' : QEntry} (h : s.Inv) (hx : s.fsm.isTx = true)
    (he : s.txEntry = some e) (hne : s.txM.toNat + 1 ≠ s.txN.toNat)
    (he' : s.curQueue.entry? (s.txM.toNat + 1) = some e') (q : BusReq) (r : Response)
    (rest : List Response) :
    State.TxOk { s.answered q r rest with
      txSent := BitVec.ofNat 8 (s.txSent.toNat + 1)
      txTot := BitVec.ofNat 32 (s.txTot.toNat + e.len.toNat)
      txM := BitVec.ofNat 5 (s.txM.toNat + 1), txW := 0, fsm := txStart e'.len } := by
  have ht := h.tx hx
  have hburst : s.txN.toNat ≤ 16 := ht.burst
  have hidx := ht.index
  have hM : (BitVec.ofNat 5 (s.txM.toNat + 1)).toNat = s.txM.toNat + 1 := toNat_ofNat_lt (by omega)
  have hS : (BitVec.ofNat 8 (s.txSent.toNat + 1)).toNat = s.txM.toNat + 1 := by
    rw [ht.sent]; exact toNat_ofNat_lt (by omega)
  obtain ⟨hl, hcur⟩ := h.txIndex hx hidx
  have hentry : e = s.curQueue.entries[s.txM.toNat] := Option.some.inj (he.symm.trans hcur)
  have hsum : s.txTot.toNat + e.len.toNat = lenTotal (s.curQueue.entries.take (s.txM.toNat + 1)) := by
    rw [lenTotal_take_succ _ _ hl, ht.total, hentry]
  have hT : (BitVec.ofNat 32 (s.txTot.toNat + e.len.toNat)).toNat
      = lenTotal (s.curQueue.entries.take (s.txM.toNat + 1)) := by
    have hle := lenTotal_le (s.curQueue.entries.take (s.txM.toNat + 1))
    simp only [List.length_take, maxMsgLen] at hle
    rw [hsum]; exact toNat_ofNat_lt (by omega)
  refine ⟨ht.burst, ht.queued, ?_, hS.trans hM.symm, ?_, ?_⟩
  · show (BitVec.ofNat 5 (s.txM.toNat + 1)).toNat < s.txN.toNat
    omega
  · show _ = lenTotal (s.curQueue.entries.take (BitVec.ofNat 5 (s.txM.toNat + 1)).toNat)
    rw [hM]; exact hT
  · intro e'' hcur'
    have hnext : s.curQueue.entry? (BitVec.ofNat 5 (s.txM.toNat + 1)).toNat = some e'' := hcur'
    rw [hM] at hnext
    cases he'.symm.trans hnext
    exact txStart_word e'.len

/-- What the mode word of a FLUSH leads to (R82). -/
theorem onOk_txMode_next {s s1 t : State} {d : Word} (hf : s.fsm = .txMode)
    (h : s.onOk d s1 = .next t) :
    t = s1.abort .txSendCountFifo ∨ ∃ e, s.txEntry = some e ∧ State.txAdvance { s1 with
      txSent := BitVec.ofNat 8 (s1.txSent.toNat + 1)
      txTot := BitVec.ofNat 32 (s1.txTot.toNat + e.len.toNat) } = .next t := by
  simp only [State.onOk, hf] at h
  split at h
  · cases h
  · rename_i e he
    split at h
    · cases h; exact .inl rfl
    · exact .inr ⟨e, he, h⟩

/-- What follows an answer `Ok` keeps the invariant while a FLUSH runs (R79 to R84). -/
theorem State.Inv.onOk_tx {s t : State} {d : Word} {q : BusReq} {rest : List Response} (h : s.Inv)
    (hx : s.fsm.isTx = true) (hs : s.onOk d (s.answered q (.ok d) rest) = .next t) : t.Inv := by
  obtain ⟨e, he⟩ := h.txEntry hx
  have hw := (h.tx hx).word e he
  have h64 := nwords_le_64 e.len
  cases hf : s.fsm with
  | txData =>
    rw [if_pos hf] at hw
    have hW : (BitVec.ofNat 7 (s.txW.toNat + 1)).toNat = s.txW.toNat + 1 := toNat_ofNat_lt (by omega)
    simp only [State.onOk, hf, he] at hs
    cases hs
    refine h.sameMessage hx he (by split <;> rfl) ?_ _ _ _
    rw [hW]
    by_cases hlast : s.txW.toNat + 1 = nwords e.len.toNat
    · simp [hlast]
    · simp only [hlast, if_false, if_true]; omega
  | txSize | txStn =>
    simp only [hf, reduceCtorEq, if_false] at hw
    simp only [State.onOk, hf] at hs
    cases hs
    exact h.sameMessage (w := s.txW) hx he rfl (by simpa using hw) _ _ _
  | txMode =>
    rcases onOk_txMode_next hf hs with rfl | ⟨e', he', hadv⟩
    · exact h.abort (s1 := s.answered q (.ok d) rest) rfl rfl rfl rfl rfl _
    · cases he.symm.trans he'
      rcases txAdvance_next hadv with ⟨_, rfl⟩ | ⟨hne, e'', hnext, rfl⟩
      · exact h.flushDone rfl rfl h.inst rfl rfl
      · exact h.of_txOk rfl rfl rfl rfl (isTx_txStart _)
          (h.nextMessage_txOk hx he hne hnext q (.ok d) rest)
  | idle | rxMode | rxSize | rxStn | rxData => simp [hf, Fsm.isTx] at hx

/-! ### The steps of a RECEIVE -/

/-- What a step of a RECEIVE leads to: the invariant, an output that can be read, and `COUNT` written when
the RECEIVE ends (R100, R101, R134). -/
structure State.RxAfter (t : State) : Prop where
  inv : t.Inv
  output : t.RxOutput
  reported : t.fsm = .idle → t.count = t.rxCnt

/-- The RECEIVE goes on. -/
theorem State.Inv.rxAfter_of_running {s t : State} (h : s.Inv) (hcfg : t.cfg = s.cfg)
    (hq : t.queues = s.queues) (hi : t.curInst = s.curInst) (hb : t.rxBuf.wf = true)
    (hf : t.fsm.isRx = true) (hr : t.RxOk) : t.RxAfter := by
  have hbusy : t.fsm ≠ .idle := Fsm.ne_idle_of_isRx hf
  refine ⟨⟨hcfg ▸ h.cfg, ?_, ?_, ?_, hb, fun e => absurd e hbusy, fun hx => ?_, fun _ => hr⟩,
    hr.output, fun e => absurd e hbusy⟩
  · rw [hq, hcfg]; exact h.queueCount
  · rw [hq, hcfg]; exact h.queues
  · rw [hi, hcfg]; exact h.inst
  · rw [Fsm.isTx_eq_false_of_isRx hf] at hx; cases hx

/-- The RECEIVE completes (R100); `t` is the state before its completion. -/
theorem State.Inv.rxAfter_recvDone {s t : State} (h : s.Inv) (hcfg : t.cfg = s.cfg)
    (hq : t.queues = s.queues) (hi : t.curInst = s.curInst) (hb : t.rxBuf.wf = true)
    (ho : t.outstanding = none) (hr : t.RxOutput) : t.recvDone.RxAfter := by
  refine ⟨State.inv_of_idle rfl (hcfg ▸ h.cfg) ?_ ?_ ?_ hb ho,
    hr.of_same rfl rfl rfl rfl rfl, fun _ => rfl⟩
  · show t.queues.length = t.cfg.ni
    rw [hq, hcfg]; exact h.queueCount
  · show ∀ q ∈ t.queues, q.ok t.cfg.qcap = true
    rw [hq, hcfg]; exact h.queues
  · show t.curInst.toNat < t.cfg.ni
    rw [hi, hcfg]; exact h.inst

/-- The RECEIVE aborts (R101, R126) with the counts and the output it had; `rxStn` is what `RX_STN` then
holds. -/
theorem State.Inv.rxAfter_abort {s : State} (h : s.Inv) (hx : s.fsm.isRx = true) (stn : Station)
    (q : BusReq) (r : Response) (rest : List Response) (k : ErrorKind) :
    (State.abort { s.answered q r rest with rxStn := stn } k).RxAfter := by
  have htx := Fsm.isTx_eq_false_of_isRx hx
  refine ⟨h.abort (s1 := { s.answered q r rest with rxStn := stn }) rfl rfl rfl rfl rfl k, ?_,
    fun _ => ?_⟩
  · exact (h.rx hx).output.of_same (by simp) (by simp) (by simp) (by simp) (by simp [State.rxOut])
  · simp [htx]

/-- The buffer after a data word is stored keeps its form. -/
theorem State.Inv.wf_rxStored {s : State} (h : s.Inv) (hf : s.fsm = .rxData) {s1 : State}
    (hb : s1.rxBuf = s.rxBuf) (d : Word) : (s.rxStored s1 d).rxBuf.wf = true := by
  obtain ⟨_, _, _, hbuf, _, _⟩ := h.rxData_bounds hf
  show (s1.rxBuf.writeBytes _ _).wf = true
  rw [hb]
  exact Memory.wf_writeBytes h.buf (by rw [length_unpackWord]; omega)

/-- After a data word is stored every byte of the message so far holds a value (R98). -/
theorem State.Inv.held_rxStored {s : State} (h : s.Inv) (hf : s.fsm = .rxData) {s1 : State}
    (hb : s1.rxBuf = s.rxBuf) (d : Word) {k : Nat}
    (hk : k < s.rxAcc.toNat + min (4 * s.rxW.toNat + 4) s.rxLen.toNat) :
    ∃ b, (s.rxStored s1 d).rxBuf.read k = some b := by
  obtain ⟨hw, _⟩ := h.rxData_bounds hf
  obtain ⟨_, _, _, hheld⟩ := (h.rx (by rw [hf]; rfl)).data hf
  rw [h.read_rxStored s1 hb d k hw]
  split
  · exact ⟨_, rfl⟩
  · exact hheld k (by omega)

/-- A data word of a message that is not yet whole keeps the output (R98). -/
theorem State.Inv.rxOutput_rxStored {s : State} (h : s.Inv) (hf : s.fsm = .rxData) (q : BusReq)
    (r : Response) (rest : List Response) (d : Word) : (s.rxStored (s.answered q r rest) d).RxOutput := by
  have hr := h.rx (by rw [hf]; rfl)
  exact ⟨hr.count, hr.accCap, hr.accLen, lenSum_of hr.sum rfl, hr.stations,
    fun k hk => h.held_rxStored hf rfl d (Nat.lt_add_right _ hk)⟩

/-- The last data word of a message records it: the output then has one message more (R99). -/
theorem State.Inv.rxOutput_rxRecorded {s : State} (h : s.Inv) (hf : s.fsm = .rxData)
    (hlast : s.rxW.toNat + 1 = nwords s.rxLen.toNat) (q : BusReq) (r : Response) (rest : List Response)
    (d : Word) : (s.rxStored (s.answered q r rest) d).rxRecorded.RxOutput := by
  obtain ⟨hw, _, hj, hbuf, hcap, hmax⟩ := h.rxData_bounds hf
  have hr := h.rx (by rw [hf]; rfl)
  have hJ : (BitVec.ofNat 5 (s.rxJ.toNat + 1)).toNat = s.rxJ.toNat + 1 := toNat_ofNat_lt (by omega)
  have hC : (BitVec.ofNat 8 (s.rxCnt.toNat + 1)).toNat = s.rxJ.toNat + 1 := by
    rw [hr.count]; exact toNat_ofNat_lt (by omega)
  have hA : (BitVec.ofNat 32 (s.rxAcc.toNat + s.rxLen.toNat)).toNat = s.rxAcc.toNat + s.rxLen.toNat :=
    toNat_ofNat_lt (by simp only [rxBufBytes] at hbuf; omega)
  have hcover := nwords_bounds s.rxLen.toNat
  refine ⟨hC.trans hJ.symm, hA.trans_le hcap, ?_, ?_, fun j hjlt => ?_, fun k hk => ?_⟩
  · show (BitVec.ofNat 32 (s.rxAcc.toNat + s.rxLen.toNat)).toNat
      ≤ maxMsgLen * (BitVec.ofNat 5 (s.rxJ.toNat + 1)).toNat
    rw [hA, hJ]; exact hmax
  · show State.lenSum _ (BitVec.ofNat 5 (s.rxJ.toNat + 1)).toNat
      = some (BitVec.ofNat 32 (s.rxAcc.toNat + s.rxLen.toNat)).toNat
    rw [hA, hJ]
    exact h.lenSum_rxRecorded hf rfl rfl rfl
  · have hjlt' : j < s.rxJ.toNat + 1 := hJ ▸ hjlt
    show ∃ b, (s.outStn.setIfInBounds s.rxJ.toNat (some s.rxStn))[j]? = some (some b)
    rw [getElem?_setIfInBounds_of_lt _ _ _ _ (by omega)]
    split
    · exact ⟨_, rfl⟩
    · exact hr.stations j (by omega)
  · have hk' : k < s.rxAcc.toNat + s.rxLen.toNat := hA ▸ hk
    exact h.held_rxStored (s1 := s.answered q r rest) hf rfl d (by omega)

/-- What follows an answer `Ok` in `RX_DATA` (R98 to R100). -/
theorem State.Inv.rxAfter_rxData {s t : State} {d : Word} {q : BusReq} {rest : List Response}
    (h : s.Inv) (hf : s.fsm = .rxData) (hs : s.onOk d (s.answered q (.ok d) rest) = .next t) :
    t.RxAfter := by
  obtain ⟨hw, h64, hj, _, hcap, _⟩ := h.rxData_bounds hf
  have hr := h.rx (by rw [hf]; rfl)
  obtain ⟨hpos, _, hwords, _⟩ := hr.data hf
  have hidx := hr.index (by rw [hf]; decide)
  have hwf := h.wf_rxStored (s1 := s.answered q (.ok d) rest) hf rfl d
  rw [h.onOk_rxData hf d (s.answered q (.ok d) rest) rfl rfl] at hs
  cases hs
  by_cases hlast : s.rxW.toNat + 1 = nwords s.rxLen.toNat
  · have hout := h.rxOutput_rxRecorded hf hlast q (.ok d) rest d
    by_cases hdone : s.rxJ.toNat + 1 = s.rxAvail.toNat
    · rw [if_pos hlast, if_pos hdone]
      exact h.rxAfter_recvDone rfl rfl rfl hwf rfl hout
    · rw [if_pos hlast, if_neg hdone]
      have hJ : (BitVec.ofNat 5 (s.rxJ.toNat + 1)).toNat = s.rxJ.toNat + 1 :=
        toNat_ofNat_lt (by omega)
      refine h.rxAfter_of_running rfl rfl rfl hwf rfl
        (State.RxOutput.rxOk (hout.of_same rfl rfl rfl rfl rfl) hr.cap nofun (fun _ => ?_) nofun)
      show (BitVec.ofNat 5 (s.rxJ.toNat + 1)).toNat < s.rxAvail.toNat
      omega
  · rw [if_neg hlast]
    have hW : (BitVec.ofNat 7 (s.rxW.toNat + 1)).toNat = s.rxW.toNat + 1 := toNat_ofNat_lt (by omega)
    have hcover := nwords_bounds s.rxLen.toNat
    refine h.rxAfter_of_running rfl rfl rfl hwf (congrArg Fsm.isRx hf)
      ((h.rxOutput_rxStored hf q (.ok d) rest d).rxOk hr.cap hr.start hr.index fun _ =>
        ⟨hpos, hcap, ?_, fun k hk => h.held_rxStored hf rfl d ?_⟩)
    · show (BitVec.ofNat 7 (s.rxW.toNat + 1)).toNat < nwords s.rxLen.toNat
      omega
    · have hk' : k < s.rxAcc.toNat + 4 * (BitVec.ofNat 7 (s.rxW.toNat + 1)).toNat := hk
      omega

/-- What follows an answer `Ok` in any state of a RECEIVE (R95 to R100). -/
theorem State.Inv.onOk_rx {s t : State} {d : Word} {q : BusReq} {rest : List Response} (h : s.Inv)
    (hx : s.fsm.isRx = true) (hs : s.onOk d (s.answered q (.ok d) rest) = .next t) : t.RxAfter := by
  have hr := h.rx hx
  cases hf : s.fsm with
  | rxMode =>
    have hj : s.rxJ = 0 := hr.start hf
    simp only [State.onOk, hf] at hs
    split at hs
    · cases hs
      exact h.rxAfter_recvDone rfl rfl rfl h.buf rfl (hr.output.of_same rfl rfl rfl rfl rfl)
    · rename_i havail
      cases hs
      refine h.rxAfter_of_running rfl rfl rfl h.buf rfl
        (State.RxOutput.rxOk (hr.output.of_same rfl rfl rfl rfl rfl) hr.cap nofun (fun _ => ?_) nofun)
      show s.rxJ.toNat < (rxAvailOf d).toNat
      rw [hj]
      exact Nat.pos_of_ne_zero fun h0 => havail (BitVec.eq_of_toNat_eq h0)
  | rxSize =>
    simp only [State.onOk, hf] at hs
    cases hs
    exact h.rxAfter_of_running rfl rfl rfl h.buf rfl
      (State.RxOutput.rxOk (hr.output.of_same rfl rfl rfl rfl rfl) hr.cap nofun
        (fun _ => hr.index (by rw [hf]; decide)) nofun)
  | rxStn =>
    simp only [State.onOk, hf] at hs
    split at hs
    · cases hs; exact h.rxAfter_abort hx _ _ _ _ _
    · rename_i hlen
      split at hs
      · cases hs; exact h.rxAfter_abort hx _ _ _ _ _
      · rename_i hroom
        cases hs
        exact h.rxAfter_of_running rfl rfl rfl h.buf rfl
          (State.RxOutput.rxOk (hr.output.of_same rfl rfl rfl rfl rfl) hr.cap nofun
            (fun _ => hr.index (by rw [hf]; decide)) fun _ =>
              ⟨Nat.pos_of_ne_zero hlen, Nat.le_of_not_lt hroom,
                nwords_pos.2 (Nat.pos_of_ne_zero hlen), hr.bytes⟩)
  | rxData => exact h.rxAfter_rxData hf hs
  | idle | txData | txSize | txStn | txMode => simp [hf, Fsm.isRx] at hx

/-- A step of a RECEIVE (R95 to R101). -/
theorem State.Inv.step_rx {s t : State} (h : s.Inv) (hx : s.fsm.isRx = true) (hs : step s = .next t) :
    t.RxAfter := by
  have hf : s.fsm ≠ .idle := Fsm.ne_idle_of_isRx hx
  obtain ⟨m, op, _, _, ⟨_, rfl⟩ | ⟨rest, _, rfl⟩ | ⟨d, rest, _, ho⟩⟩ := step_busy_next hf hs
  · exact h.rxAfter_of_running rfl rfl rfl h.buf hx
      ((h.withBus s.port s.responses s.history fun e => absurd e hf).rx hx)
  · exact h.rxAfter_abort hx s.rxStn _ _ _ _
  · exact h.onOk_rx hx ho

/-- A step of a FLUSH (R79 to R85) keeps the invariant. -/
theorem State.Inv.step_tx {s t : State} (h : s.Inv) (hx : s.fsm.isTx = true) (hs : step s = .next t) :
    t.Inv := by
  have hf : s.fsm ≠ .idle := Fsm.ne_idle_of_isTx hx
  obtain ⟨m, op, _, _, ⟨_, rfl⟩ | ⟨rest, _, rfl⟩ | ⟨d, rest, _, ho⟩⟩ := step_busy_next hf hs
  · exact h.withBus s.port s.responses s.history fun e => absurd e hf
  · exact h.abort (s1 := s.answered (op.request m) .fail rest) rfl rfl rfl rfl rfl _
  · exact h.onOk_tx hx ho

/-- Settles O42: by the state the step starts from, `IDLE`, a FLUSH's or a RECEIVE's. -/
theorem stepKeepsTheInvariant : Obligations.StepKeepsTheInvariant := by
  unfold Obligations.StepKeepsTheInvariant
  intro s t h hs
  by_cases hf : s.fsm = .idle
  · exact h.step_idle hf hs
  · rcases Fsm.tx_or_rx hf with hx | hx
    · exact h.step_tx hx hs
    · exact (h.step_rx hx hs).inv

/-! ### No step from the invariant stops -/

/-- A command whose acceptance answers on every good queue answers wherever it is sent (R71 item 3). -/
theorem State.Inv.withInstance_answers {s : State} (h : s.Inv) (i : BitVec 4)
    {act : WriteQueue → StepResult} (hact : ∀ q, q.ok s.cfg.qcap = true → ∃ t, act q = .next t) :
    ∃ t, withInstance s i act = .next t := by
  by_cases hi : s.cfg.ni ≤ i.toNat
  · exact ⟨_, withInstance_unresolved act hi⟩
  · have hlen : i.toNat < s.queues.length := by rw [h.queueCount]; omega
    rw [withInstance_resolved act (Nat.lt_of_not_le hi) (List.getElem?_eq_getElem hlen)]
    exact hact _ (h.queues _ (List.getElem_mem hlen))

/-- FLUSH's acceptance never reads an entry without a value (R24). -/
theorem State.Inv.execFlush_answers {s : State} (h : s.Inv) (i : BitVec 4) (burst : Byte) :
    ∃ t, Machine.execFlush i burst s = .next t := by
  refine h.withInstance_answers i fun q hok => ?_
  dsimp only
  split
  · exact ⟨_, rfl⟩
  · rename_i hn
    obtain ⟨_, hstored, _⟩ := (WriteQueue.ok_iff _ _).1 hok
    have hpos : 0 < q.entries.length := by simp only [flushCount] at hn; omega
    rw [WriteQueue.entry?_of_ok hok hpos]
    exact ⟨_, rfl⟩

theorem State.Inv.exec_answers {s : State} (h : s.Inv) (i : Instr) :
    ∃ t, Machine.exec i s = .next t := by
  cases i with
  | enq inst len stn payload =>
    refine h.withInstance_answers inst fun q _ => ?_
    split <;> exact ⟨_, rfl⟩
  | flush inst burst => exact h.execFlush_answers inst burst
  | recv inst maxMsg maxLen => exact h.withInstance_answers inst fun _ _ => ⟨_, rfl⟩

theorem State.Inv.safe_idle {s : State} (h : s.Inv) (hf : s.fsm = .idle) : s.Safe := by
  unfold State.Safe
  rw [Machine.step_idle hf]
  unfold acceptStep
  split
  · exact ⟨_, rfl⟩
  · exact ⟨_, rfl⟩
  · exact (h.take _).exec_answers _

theorem State.Inv.safe_busy {s : State} (h : s.Inv) (hf : s.fsm ≠ .idle) : s.Safe := by
  obtain ⟨m, op, hm, _, hstep⟩ := h.step_busy hf
  unfold State.Safe
  rw [hstep]
  cases hr : s.responses with
  | nil => exact ⟨_, busStep_unanswered op _ hm hr⟩
  | cons r rest =>
    cases r with
    | fail => exact ⟨_, busStep_fail op _ hm hr⟩
    | ok d => rw [busStep_ok op _ hm hr]; exact h.onOk_next d _ rest

/-- Settles O43: in `IDLE` by the command at the port, else by the device's answer. -/
theorem invariantStatesNeverStop : Obligations.InvariantStatesNeverStop := by
  unfold Obligations.InvariantStatesNeverStop
  intro s h
  by_cases hf : s.fsm = .idle
  · exact h.safe_idle hf
  · exact h.safe_busy hf

/-! ### The reset state and the moves -/

theorem inv_resetWith {c : Config} (h : c.valid = true) : (State.resetWith c).Inv := by
  have hempty : WriteQueue.ok { qlen := 0, entries := [] } c.qcap = true :=
    (WriteQueue.ok_iff _ _).2 ⟨Nat.zero_le _, Nat.le_refl _, nofun⟩
  refine State.inv_of_idle rfl h List.length_replicate ?_ (valid_range h).1 rfl rfl
  intro q hq
  cases List.eq_of_mem_replicate hq
  exact hempty

/-- Settles O41: nothing is queued and nothing runs. -/
theorem resetHasTheInvariant : Obligations.ResetHasTheInvariant := by
  unfold Obligations.ResetHasTheInvariant
  exact ⟨inv_resetWith (by decide), fun _ h => inv_resetWith h⟩

/-- The reset event (R143) from any state of an accepted configuration leads to the invariant. -/
theorem State.Inv.applyReset {s : State} (h : s.Inv) : s.applyReset.Inv := by
  obtain ⟨rs, hist, he⟩ := s.applyReset_eq
  rw [he]
  exact (inv_resetWith h.cfg).withBus _ _ _ fun _ => rfl

/-- Every move of the block, the host and the device keeps the invariant. -/
theorem State.Inv.move {s t : State} {m : Move} (h : s.Inv) (hm : s.move m = .next t) : t.Inv := by
  cases m with
  | step => exact stepKeepsTheInvariant s t h hm
  | hostSends ws => cases hm; exact h.withBus _ _ _ h.waiting
  | deviceAnswers r => cases hm; exact h.withBus _ _ _ h.waiting
  | lateAnswer k r => cases hm; exact h.withBus _ _ _ h.waiting
  | reset => cases hm; exact h.applyReset

theorem Reachable.inv {s : State} (h : Reachable s) : s.Inv := by
  induction h with
  | boot c hc => exact inv_resetWith hc
  | move s t m _ hm ih => exact ih.move hm

/-- Settles O44: by induction on the run. -/
theorem reachableStatesNeverStop : Obligations.ReachableStatesNeverStop := by
  unfold Obligations.ReachableStatesNeverStop
  exact ⟨fun _ _ _ h hm => h.move hm, fun s h => ⟨h.inv, invariantStatesNeverStop s h.inv⟩⟩

/-- Settles O38: an element that holds no value is absent from the reset state's data. -/
theorem resetStateHasTheSpecifiedValues : Obligations.ResetStateHasTheSpecifiedValues := by
  unfold Obligations.ResetStateHasTheSpecifiedValues
  intro c s
  refine ⟨rfl, rfl, BitVec.eq_of_toNat_eq (status_toNat s), rfl, rfl, List.length_replicate,
    fun i q hq => ?_, fun j hj => ?_, fun _ => rfl⟩
  · cases List.eq_of_mem_replicate (List.mem_of_getElem? hq)
    exact ⟨rfl, fun k => rfl⟩
  · exact ⟨by simp [s, State.resetWith, hj], by simp [s, State.resetWith, hj]⟩

/-! ### The configuration -/

theorem exec_cfg {s t : State} {i : Instr} (h : exec i s = .next t) : t.cfg = s.cfg := by
  cases i with
  | enq inst len stn payload =>
    rcases execEnq_next h with ⟨_, rfl⟩ | ⟨_, _, _, _, rfl⟩ | ⟨_, _, _, _, rfl⟩ <;> rfl
  | flush inst burst =>
    rcases execFlush_next h with ⟨_, rfl⟩ | ⟨_, _, _, ⟨_, rfl⟩ | ⟨_, _, _, rfl⟩⟩ <;> rfl
  | recv inst maxMsg maxLen =>
    rcases execRecv_next h with ⟨_, rfl⟩ | ⟨_, rfl⟩ <;> rfl

/-- Settles O45: by what a step can do in `IDLE` and while a command runs. -/
theorem noStepChangesTheConfiguration : Obligations.NoStepChangesTheConfiguration := by
  unfold Obligations.NoStepChangesTheConfiguration
  intro s t hs
  by_cases hf : s.fsm = .idle
  · rcases step_idle_next hf hs with ⟨_, rfl⟩ | ⟨_, _, _, rfl⟩ | ⟨_, rest, _, he⟩
    · rfl
    · rfl
    · exact exec_cfg (s := s.take rest) he
  · obtain ⟨_, _, _, _, ⟨_, rfl⟩ | ⟨_, _, rfl⟩ | ⟨_, _, _, ho⟩⟩ := step_busy_next hf hs
    · rfl
    · exact State.abort_cfg _ _
    · exact (onOk_frame ho).1

/-! ### The transaction of a state -/

/-- The history, the answers and the request of a step that the device answers (R36, R38). -/
theorem State.Inv.busStep_answered {s : State} (h : s.Inv) {m : RegMap} {r : Response} {rest : List Response}
    (op : BusOp) (hm : s.cfg.regmap[s.curInst.toNat]? = some m) (hr : s.responses = r :: rest) :
    ∃ t, busStep s op s.onOk = .next t ∧ t.history = s.history ++ [(op.request m).event r]
      ∧ t.responses = rest ∧ t.outstanding = none := by
  cases r with
  | fail => exact ⟨_, busStep_fail op _ hm hr, by simp⟩
  | ok d =>
    obtain ⟨t, ht⟩ := h.onOk_next d (op.request m) rest
    obtain ⟨_, _, _, _, hh, hrs, ho⟩ := onOk_frame ht
    exact ⟨t, (busStep_ok op _ hm hr).trans ht, hh, hrs, ho⟩

/-- Settles O11: the step is the transaction of `State.nextOp`, which the state alone names. -/
theorem eachStateIssuesItsOneTransaction : Obligations.EachStateIssuesItsOneTransaction := by
  unfold Obligations.EachStateIssuesItsOneTransaction
  intro s r rest h hf hr
  obtain ⟨m, op, hm, hop, hstep⟩ := h.step_busy hf
  obtain ⟨t, ht, hhist, hrest, hout⟩ := h.busStep_answered op hm hr
  refine ⟨t, m, _, hstep.trans ht, hm, hhist, rfl, hrest, hout, ?_⟩
  cases hs : s.fsm <;> simp only [State.nextOp, hs, Option.map_eq_some_iff] at hop
  case idle => exact absurd hs hf
  case txData | txSize | txStn | txMode => obtain ⟨_, _, rfl⟩ := hop; rfl
  case rxMode | rxSize | rxStn | rxData => cases hop; rfl

/-! ### The host's reads -/

/-- Settles O54: `STATUS` as a number, by the nine states and the flag. -/
theorem statusReadsBusyAndCallerErr : Obligations.StatusReadsBusyAndCallerErr := by
  unfold Obligations.StatusReadsBusyAndCallerErr
  exact fun s => ⟨_, rfl, status_toNat s⟩

theorem hostRead_rxlen {s : State} (hf : s.fsm = .idle) {j : Nat} {v : Option Byte}
    (hv : s.outLen[j]? = some v) : hostRead s (.rxlen j) = readValid (s.validEntry j) v := by
  simp only [hostRead, s.resultRead_idle hf, hv]

theorem hostRead_rxstn {s : State} (hf : s.fsm = .idle) {j : Nat} {v : Option Station}
    (hv : s.outStn[j]? = some v) : hostRead s (.rxstn j) = readValid (s.validEntry j) v := by
  simp only [hostRead, s.resultRead_idle hf, hv]

theorem hostRead_rxbuf {s : State} (hf : s.fsm = .idle) {k : Nat} (hk : k < rxBufBytes) :
    hostRead s (.rxbuf k) = readValid (s.validByte k) (s.rxBuf.read k) := by
  simp only [hostRead, s.resultRead_idle hf, hk, if_true]

theorem validEntry_of_lt {s : State} {j : Nat} (h : j < s.rxCnt.toNat) : s.validEntry j = true :=
  decide_eq_true h

theorem validByte_of_lt {s : State} {k : Nat} (h : k < s.rxAcc.toNat) : s.validByte k = true :=
  decide_eq_true h

/-- An element outside the valid region, or without a value, is not read (I23, R148). -/
theorem readValid_error {n : Nat} {valid : Bool} {v : Option (BitVec n)} (h : valid = false ∨ v = none) :
    readValid valid v = .error .hostReadNoValue := by
  rw [readValid_eq]
  rcases h with rfl | rfl
  · rfl
  · cases valid <;> rfl

/-- Settles O55: one host read at a time, by the valid region and what the element holds. -/
theorem hostReadsElementsOrFaults : Obligations.HostReadsElementsOrFaults := by
  unfold Obligations.HostReadsElementsOrFaults
  intro s
  refine ⟨fun r hf hr => ?_, fun hf => ⟨?_, ?_, ?_, ?_, ?_, ?_, ?_, ?_, ?_, ?_, ?_, ?_⟩⟩
  · cases r with
    | status => exact absurd rfl hr
    | _ => exact s.resultRead_busy hf _
  · exact s.resultRead_idle hf _
  · exact ⟨_, s.resultRead_idle hf _, BitVec.toNat_setWidth_of_le (by decide)⟩
  · intro i q hq
    refine ⟨q.qlen.setWidth 32, ?_, BitVec.toNat_setWidth_of_le (by decide)⟩
    simp only [hostRead, s.resultRead_idle hf, hq]
  · intro i hi
    simp only [hostRead, s.resultRead_idle hf, List.getElem?_eq_none hi]
  · intro k hk
    simp only [hostRead, s.resultRead_idle hf, rxBufBytes, Nat.not_lt.2 hk, if_false]
  · intro k hk hno
    rw [hostRead_rxbuf hf hk]
    exact readValid_error (hno.imp_left fun h => decide_eq_false (Nat.not_lt.2 h))
  · intro k b hk hacc hb
    rw [hostRead_rxbuf hf hk, validByte_of_lt hacc, hb]
    exact ⟨_, rfl, BitVec.toNat_setWidth_of_le (by decide)⟩
  · intro j hj
    simp only [hostRead, s.resultRead_idle hf, Vector.getElem?_eq_none hj, and_self]
  · intro j hj hno
    rw [hostRead_rxlen hf (Vector.getElem?_eq_getElem hj)]
    refine readValid_error (hno.imp (fun h => decide_eq_false (Nat.not_lt.2 h)) fun h => ?_)
    exact Option.some.inj ((Vector.getElem?_eq_getElem hj).symm.trans h)
  · intro j hj hno
    rw [hostRead_rxstn hf (Vector.getElem?_eq_getElem hj)]
    refine readValid_error (hno.imp (fun h => decide_eq_false (Nat.not_lt.2 h)) fun h => ?_)
    exact Option.some.inj ((Vector.getElem?_eq_getElem hj).symm.trans h)
  · intro j b hcnt hb
    rw [hostRead_rxlen hf hb, validEntry_of_lt hcnt]
    exact ⟨_, rfl, BitVec.toNat_setWidth_of_le (by decide)⟩
  · intro j b hcnt hb
    rw [hostRead_rxstn hf hb, validEntry_of_lt hcnt]
    exact ⟨_, rfl, BitVec.toNat_setWidth_of_le (by decide)⟩

/-- Settles O53: the output a RECEIVE's last step leaves is that of `State.RxAfter`. -/
theorem receivedMessagesAreReadable : Obligations.ReceivedMessagesAreReadable := by
  unfold Obligations.ReceivedMessagesAreReadable
  intro s t h hx hs hf j hj
  obtain ⟨hinv, hout, hcount⟩ := h.step_rx hx hs
  rw [hcount hf] at hj
  have hjJ : j < t.rxJ.toNat := hout.count ▸ hj
  have hvalid := validEntry_of_lt hj
  obtain ⟨stn, bytes, l, off, hmsg, hl, hstn, hlen, hoff, hbytes⟩ :=
    message?_of_held hout.sum hjJ hvalid (hout.stations j hjJ) hout.bytes
  refine ⟨stn, bytes, l, off, hmsg, hl, hlen, hoff, ?_, ?_, fun k b hk => ?_⟩
  · rw [hostRead_rxlen hf hl, hvalid]; rfl
  · rw [hostRead_rxstn hf hstn, hvalid]; rfl
  · obtain ⟨hlt, hread⟩ := hbytes k b hk
    rw [hostRead_rxbuf hf (Memory.lt_of_read hinv.buf hread), validByte_of_lt hlt, hread]
    rfl

end Sys2Proof.Machine

/-! SUPPORT. The memory family (20_memory.md): the request that no answer comes to, at most one transaction
a step, the packing of setup values, and which configurations are accepted. -/

namespace Sys2Proof.Machine

open Sys2Proof

/-! ### A request without an answer -/

/-- A step that repeats the state repeats it for ever. -/
theorem run_of_step_self {s : State} (h : step s = .next s) (k : Nat) :
    Host.Core.run core k s = .next s := by
  induction k with
  | zero => exact run_zero s
  | succ k ih => rw [run_succ h, ih]

theorem step_unanswered {s : State} {m : RegMap} {op : BusOp} (hf : s.fsm ≠ .idle)
    (hm : s.cfg.regmap[s.curInst.toNat]? = some m) (hop : s.nextOp = some op) (hr : s.responses = []) :
    step s = .next { s with outstanding := some (op.request m) } := by
  rw [step_busy hf, hop]
  exact busStep_unanswered op _ hm hr

/-- Settles O10: the first step leaves the request outstanding, and every later step repeats that state, from
which the same request is due at the same row. -/
theorem unansweredRequestHangsTheBlock : Obligations.UnansweredRequestHangsTheBlock := by
  unfold Obligations.UnansweredRequestHangsTheBlock
  intro s h hf hr
  obtain ⟨m, hm⟩ := h.row
  obtain ⟨op, hop⟩ := h.nextOp hf
  refine ⟨m, op, hm, hop, fun k => ?_⟩
  have hwait : step { s with outstanding := some (op.request m) }
      = .next { s with outstanding := some (op.request m) } :=
    step_unanswered (s := { s with outstanding := some (op.request m) }) hf hm hop hr
  rw [run_succ (step_unanswered hf hm hop hr)]
  exact run_of_step_self hwait k

/-! ### At most one transaction a step -/

/-- The acceptance step of a command issues no transaction (R36, R70). -/
theorem exec_sameBus {s t : State} {i : Instr} (h : exec i s = .next t) : s.sameBus t := by
  cases i with
  | enq inst len stn payload =>
    rcases execEnq_next h with ⟨_, rfl⟩ | ⟨_, _, _, _, rfl⟩ | ⟨_, _, _, _, rfl⟩ <;> exact ⟨rfl, rfl, rfl⟩
  | flush inst burst =>
    rcases execFlush_next h with ⟨_, rfl⟩ | ⟨_, _, _, ⟨_, rfl⟩ | ⟨_, _, _, rfl⟩⟩ <;> exact ⟨rfl, rfl, rfl⟩
  | recv inst maxMsg maxLen =>
    rcases execRecv_next h with ⟨_, rfl⟩ | ⟨_, rfl⟩ <;> exact ⟨rfl, rfl, rfl⟩

/-- No step in `IDLE` issues a transaction (R36, R141). -/
theorem step_idle_sameBus {s t : State} (hf : s.fsm = .idle) (h : step s = .next t) : s.sameBus t := by
  rcases step_idle_next hf h with ⟨_, rfl⟩ | ⟨_, _, _, rfl⟩ | ⟨_, rest, _, he⟩
  · exact ⟨rfl, rfl, rfl⟩
  · exact ⟨rfl, rfl, rfl⟩
  · exact exec_sameBus (s := s.take rest) he

/-- Settles O12: in `IDLE` the bus is left alone; elsewhere a step waits, or uses one answer and records it. -/
theorem atMostOneTransactionPerStep : Obligations.AtMostOneTransactionPerStep := by
  unfold Obligations.AtMostOneTransactionPerStep
  intro s t hs
  by_cases hf : s.fsm = .idle
  · obtain ⟨hhist, hresp, _⟩ := step_idle_sameBus hf hs
    exact .inl ⟨hhist, hresp⟩
  · obtain ⟨m, op, _, _, ⟨_, rfl⟩ | ⟨rest, hr, rfl⟩ | ⟨d, rest, hr, ho⟩⟩ := step_busy_next hf hs
    · exact .inl ⟨rfl, rfl⟩
    · exact .inr ⟨hf, (op.request m).event .fail, .fail, by simpa using hr, rfl, by simp⟩
    · obtain ⟨_, _, _, _, hhist, hresp, _⟩ := onOk_frame ho
      exact .inr ⟨hf, (op.request m).event (.ok d), .ok d, by simpa [hresp] using hr, rfl, hhist⟩

/-! ### Setup values -/

/-- Settles O37: the lower half lies below the bits of the shifted upper half, so their OR is their sum. -/
theorem packedSetupValuesKeepTheirHalves : Obligations.PackedSetupValuesKeepTheirHalves := by
  unfold Obligations.PackedSetupValuesKeepTheirHalves
  intro hi lo
  have hlo : lo.toNat % 65536 < 2 ^ 16 := Nat.mod_lt _ (by decide)
  have hlo32 : lo.toNat % 65536 < 4294967296 := hlo.trans (by decide)
  have hhi : hi.toNat % 65536 * 65536 < 4294967296 := by omega
  calc (packParamOr hi lo).toNat
      = (hi.toNat % 65536) <<< 16 ||| lo.toNat % 65536 := by
        simp [packParamOr, Nat.shiftLeft_eq, Nat.mod_eq_of_lt hhi, Nat.mod_eq_of_lt hlo32]
    _ = (hi.toNat % 65536) <<< 16 + lo.toNat % 65536 := (Nat.shiftLeft_add_eq_or_of_lt hlo _).symm
    _ = hi.toNat % 65536 * 65536 + lo.toNat % 65536 := by rw [Nat.shiftLeft_eq]

/-! ### Which configurations are accepted -/

theorem configure_tenRegisters {c : Config} (hlayout : c.layout = .tenRegisters) :
    configure c = .refused .tenRegisterLayout := by
  simp [configure, hlayout]

theorem configure_outOfRange {c : Config} (hlayout : c.layout = .twelveRegisters) (hrange : c.inRange = false) :
    configure c = .refused .parameterOutOfRange := by
  simp [configure, hlayout, hrange]

theorem configure_addressesNotDistinct {c : Config} (hlayout : c.layout = .twelveRegisters)
    (hrange : c.inRange = true) (haddrs : c.addrsDistinct = false) :
    configure c = .refused .addressesNotDistinct := by
  simp [configure, hlayout, hrange, haddrs]

theorem configure_of_valid {c : Config} (h : c.valid = true) : configure c = .next (State.resetWith c) := by
  obtain ⟨hlayout, hrange, haddrs⟩ := (valid_iff c).1 h
  simp [configure, hlayout, hrange, haddrs]

/-- A configuration that fails one of the three checks is given no state. -/
theorem valid_of_configure_next {c : Config} {t : State} (h : configure c = .next t) : c.valid = true := by
  cases hlayout : c.layout with
  | tenRegisters => rw [configure_tenRegisters hlayout] at h; cases h
  | twelveRegisters =>
    cases hrange : c.inRange with
    | false => rw [configure_outOfRange hlayout hrange] at h; cases h
    | true =>
      cases haddrs : c.addrsDistinct with
      | false => rw [configure_addressesNotDistinct hlayout hrange haddrs] at h; cases h
      | true => exact (valid_iff c).2 ⟨hlayout, hrange, haddrs⟩

/-- Only an accepted configuration gives a state, and it is the reset state (R145). -/
theorem configure_next {c : Config} {t : State} (h : configure c = .next t) :
    c.valid = true ∧ t = State.resetWith c := by
  have hvalid := valid_of_configure_next h
  rw [configure_of_valid hvalid] at h
  cases h
  exact ⟨hvalid, rfl⟩

/-- R41: `addrsDistinct` is that no address occurs twice. -/
theorem addrsDistinct_eq_false_iff (c : Config) : c.addrsDistinct = false ↔ ¬ c.allAddrs.Nodup := by
  rw [← distinct_iff, Bool.not_eq_true, Config.addrsDistinct]

/-- Settles O39: by the three checks in their order, layout, ranges, addresses. -/
theorem configurationIsAcceptedOrRefused : Obligations.ConfigurationIsAcceptedOrRefused := by
  unfold Obligations.ConfigurationIsAcceptedOrRefused
  exact ⟨fun _ => configure_of_valid, fun _ _ => configure_next, fun _ => configure_tenRegisters,
    fun _ => configure_outOfRange, fun c hlayout hrange hdup =>
      configure_addressesNotDistinct hlayout hrange ((addrsDistinct_eq_false_iff c).2 hdup)⟩

end Sys2Proof.Machine

/-! SUPPORT. The encoding family (30_encoding.md): which words are legal, the decoder and the encoder as
inverses of each other, command acceptance, the assembler's `CYCLE`, and the words FLUSH writes of a payload. -/

namespace Sys2Proof

open Machine

/-! ### Legal command words -/

/-- A word that matches a row under its mask is legal, whatever stands in its fields (R67). -/
theorem illegal?_of_match {w : Word}
    (h : w &&& 0xFFE0000F#32 = 1#32 ∨ w &&& 0xFFFF000F#32 = 2#32 ∨ w &&& 0xFF00000F#32 = 3#32) :
    illegal? w = none := by
  rw [illegal?_eq]
  rcases h with h | h | h
  · simp [fieldOp_of_mask (k := 1#4) (by decide) h, h]
  · simp [fieldOp_of_mask (k := 2#4) (by decide) h, h]
  · simp [fieldOp_of_mask (k := 3#4) (by decide) h, h]

/-- R66 and R67: the legal words are those that match a row under its mask. -/
theorem illegal?_eq_none_iff (w : Word) :
    illegal? w = none
      ↔ w &&& 0xFFE0000F#32 = 1#32 ∨ w &&& 0xFFFF000F#32 = 2#32 ∨ w &&& 0xFF00000F#32 = 3#32 := by
  refine ⟨fun h => ?_, illegal?_of_match⟩
  rw [illegal?_eq] at h
  by_cases h1 : fieldOp w = 1#4
  · exact .inl (by simpa [h1] using h)
  · by_cases h2 : fieldOp w = 2#4
    · exact .inr (.inl (by simpa [h2] using h))
    · by_cases h3 : fieldOp w = 3#4
      · exact .inr (.inr (by simpa [h3] using h))
      · simp [h1, h2, h3] at h

/-! ### The decoder by the length of what is present -/

theorem decode_of_short {w : Word} {ws : List Word} (hlen : ws.length < payloadCount w) :
    decode (w :: ws) = .incomplete := by
  rw [decode_cons, if_pos hlen]

theorem decode_of_illegal {w : Word} {ws : List Word} {why : IllegalReason}
    (hlen : payloadCount w ≤ ws.length) (h : illegal? w = some why) :
    decode (w :: ws) = .illegal why (ws.drop (payloadCount w)) := by
  rw [decode_cons, if_neg (Nat.not_lt.2 hlen), h]

theorem decode_of_legal {w : Word} {ws : List Word} (hlen : payloadCount w ≤ ws.length)
    (h : illegal? w = none) :
    decode (w :: ws)
      = .command (assembleFields w (ws.take (payloadCount w))) (ws.drop (payloadCount w)) := by
  rw [decode_cons, if_neg (Nat.not_lt.2 hlen), h]

/-- What decoding to a command says of the words. -/
theorem decode_eq_command {ws rest : List Word} {i : Instr} (h : decode ws = .command i rest) :
    ∃ w us, ws = w :: us ∧ payloadCount w ≤ us.length ∧ illegal? w = none
      ∧ i = assembleFields w (us.take (payloadCount w)) ∧ rest = us.drop (payloadCount w) := by
  cases ws with
  | nil => cases h
  | cons w us =>
    rcases Nat.lt_or_ge us.length (payloadCount w) with hlen | hlen
    · rw [decode_of_short hlen] at h; cases h
    · cases hill : illegal? w with
      | some why => rw [decode_of_illegal hlen hill] at h; cases h
      | none =>
        rw [decode_of_legal hlen hill] at h
        cases h
        exact ⟨w, us, rfl, hlen, hill, rfl, rfl⟩

/-! ### The command word of a command -/

theorem illegal?_encodeWord (i : Instr) : illegal? (encodeWord i) = none := by
  cases i with
  | enq inst len stn payload => exact illegal?_of_match (.inl (mask_enq inst len stn payload))
  | flush inst burst => exact illegal?_of_match (.inr (.inl (mask_flush inst burst)))
  | recv inst maxMsg maxLen => exact illegal?_of_match (.inr (.inr (mask_recv inst maxMsg maxLen)))

/-- A well-formed command has the payload words its first word announces (R61, R65). -/
theorem payloadCount_encodeWord {i : Instr} (h : i.wellFormed = true) :
    payloadCount (encodeWord i) = (encodePayload i).length := by
  cases i with
  | enq inst len stn payload =>
    have hlen : payload.length = nwords len.toNat := by simpa [Instr.wellFormed] using h
    simp [payloadCount, encodePayload, hlen]
  | flush inst burst => simp [payloadCount, encodePayload]
  | recv inst maxMsg maxLen => simp [payloadCount, encodePayload]

theorem assembleFields_encodeWord (i : Instr) : assembleFields (encodeWord i) (encodePayload i) = i := by
  cases i <;> simp [assembleFields, encodePayload]

/-- Decoding takes the words of a well-formed command and leaves what follows. -/
theorem decode_encode_append {i : Instr} (rest : List Word) (h : i.wellFormed = true) :
    decode (encode i ++ rest) = .command i rest := by
  have hcount := payloadCount_encodeWord h
  have hlen : payloadCount (encodeWord i) ≤ (encodePayload i ++ rest).length := by simp [hcount]
  rw [encode, List.cons_append, decode_of_legal hlen (illegal?_encodeWord i), hcount, List.take_left,
    List.drop_left, assembleFields_encodeWord]

/-- Settles O1: an encoded word is legal, announces the payload's length and holds every field. -/
theorem decodeOfEncodeIsTheCommand : Obligations.DecodeOfEncodeIsTheCommand := by
  unfold Obligations.DecodeOfEncodeIsTheCommand
  exact fun _ rest h => decode_encode_append rest h

/-! ### The command of a legal command word -/

/-- A legal word and as many payload words as it announces make a well-formed command, and they are its
encoding: the fields and the row's pattern cover every bit (R61 to R64). -/
theorem encode_assembleFields {w : Word} {p : List Word} (hill : illegal? w = none)
    (hlen : p.length = payloadCount w) :
    (assembleFields w p).wellFormed = true ∧ encode (assembleFields w p) = w :: p := by
  rcases (illegal?_eq_none_iff w).1 hill with h | h | h
  · have hop : fieldOp w = 1#4 := fieldOp_of_mask (by decide) h
    have hi : assembleFields w p = .enq (fieldInst w) (fieldA w) (fieldStn w) p := by
      simp [assembleFields, hop]
    rw [hi, encode, encodeWord_enq_fields h]
    exact ⟨by simpa [Instr.wellFormed, payloadCount, hop] using hlen, rfl⟩
  · have hop : fieldOp w = 2#4 := fieldOp_of_mask (by decide) h
    have hi : assembleFields w p = .flush (fieldInst w) (fieldA w) := by simp [assembleFields, hop]
    have hp : p = [] := by simpa [payloadCount, hop] using hlen
    rw [hi, encode, encodeWord_flush_fields h, hp]
    exact ⟨rfl, rfl⟩
  · have hop : fieldOp w = 3#4 := fieldOp_of_mask (by decide) h
    have hi : assembleFields w p = .recv (fieldInst w) (fieldA w) (fieldB w) := by
      simp [assembleFields, hop]
    have hp : p = [] := by simpa [payloadCount, hop] using hlen
    rw [hi, encode, encodeWord_recv_fields h, hp]
    exact ⟨rfl, rfl⟩

/-- Settles O2: the words taken are a legal word with the payload it announces. -/
theorem decodedWordsAreTheEncoding : Obligations.DecodedWordsAreTheEncoding := by
  unfold Obligations.DecodedWordsAreTheEncoding
  intro ws rest i h
  obtain ⟨w, us, rfl, hlen, hill, rfl, rfl⟩ := decode_eq_command h
  obtain ⟨hwf, henc⟩ := encode_assembleFields hill (List.length_take_of_le hlen)
  exact ⟨hwf, by rw [henc, List.cons_append, List.take_append_drop]⟩

/-! ### Length and legality by the first word -/

/-- R65 by the numbers of the fields `OP` and `A`. -/
theorem payloadCount_eq (w : Word) :
    payloadCount w = if w.toNat % 16 = 1 then nwords (w.toNat / 256 % 256) else 0 := by
  have hop : fieldOp w = 0x1 ↔ w.toNat % 16 = 1 := by
    rw [← BitVec.toNat_inj]
    simp [fieldOp, BitVec.extractLsb'_toNat]
  have ha : (fieldA w).toNat = w.toNat / 256 % 256 := by
    simp [fieldA, BitVec.extractLsb'_toNat, Nat.shiftRight_eq_div_pow]
  simp only [payloadCount, hop, ha]

/-- Settles O3: the decoder compares with `payloadCount`, which looks at no other word, before legality. -/
theorem commandLengthIsFixedByFirstWord : Obligations.CommandLengthIsFixedByFirstWord := by
  unfold Obligations.CommandLengthIsFixedByFirstWord
  intro w ws n hn
  rw [← payloadCount_eq] at hn
  subst hn
  refine ⟨decode_of_short, fun hlen => ?_⟩
  cases hill : illegal? w with
  | none => exact .inl ⟨_, decode_of_legal hlen hill⟩
  | some why => exact .inr ⟨why, decode_of_illegal hlen hill⟩

/-- Settles O4: a complete command decodes by `illegal?`, and that is the masks of the three rows. -/
theorem commandIsLegalExactlyWhenMaskMatches : Obligations.CommandIsLegalExactlyWhenMaskMatches := by
  unfold Obligations.CommandIsLegalExactlyWhenMaskMatches
  intro w ws hcomplete
  have hlen : payloadCount w ≤ ws.length := Nat.not_lt.1 fun h => hcomplete (decode_of_short h)
  refine Iff.trans ?_ (illegal?_eq_none_iff w)
  constructor
  · rintro ⟨i, rest, h⟩
    obtain ⟨w', us, hws, _, hill, _, _⟩ := decode_eq_command h
    cases hws
    exact hill
  · exact fun hill => ⟨_, _, decode_of_legal hlen hill⟩

/-- Settles O5: seven closed word lists, each decoded. -/
theorem writtenOutWordsDecode : Obligations.WrittenOutWordsDecode := by
  unfold Obligations.WrittenOutWordsDecode
  decide

/-! ### The assembler -/

theorem assemble_flush_eq_some {inst burst : Nat} {ws : List Word}
    (h : (AsmLine.flush inst burst).assemble = some ws) :
    inst < 16 ∧ burst < 256 ∧ ws = encode (.flush (BitVec.ofNat 4 inst) (BitVec.ofNat 8 burst)) := by
  simp only [AsmLine.assemble, AsmLine.instrs?] at h
  split at h
  · rename_i hrange
    obtain ⟨hinst, hburst⟩ := hrange
    exact ⟨hinst, hburst, by simpa using h.symm⟩
  · cases h

theorem assemble_recv_eq_some {inst maxMsg maxLen : Nat} {ws : List Word}
    (h : (AsmLine.recv inst maxMsg maxLen).assemble = some ws) :
    inst < 16 ∧ maxMsg < 256 ∧ maxLen < 256
      ∧ ws = encode (.recv (BitVec.ofNat 4 inst) (BitVec.ofNat 8 maxMsg) (BitVec.ofNat 8 maxLen)) := by
  simp only [AsmLine.assemble, AsmLine.instrs?] at h
  split at h
  · rename_i hrange
    obtain ⟨hinst, hmsg, hlen⟩ := hrange
    exact ⟨hinst, hmsg, hlen, by simpa using h.symm⟩
  · cases h

/-- Settles O6: operands in range for both lines are in range for `CYCLE`, which lists the same two commands. -/
theorem cycleIsFlushThenRecv : Obligations.CycleIsFlushThenRecv := by
  unfold Obligations.CycleIsFlushThenRecv
  intro inst burst maxMsg maxLen ws us hflush hrecv
  obtain ⟨hinst, hburst, rfl⟩ := assemble_flush_eq_some hflush
  obtain ⟨_, hmsg, hlen, rfl⟩ := assemble_recv_eq_some hrecv
  simp [AsmLine.assemble, AsmLine.instrs?, hinst, hburst, hmsg, hlen]

end Sys2Proof

namespace Sys2Proof.Machine

open Sys2Proof

/-! ### Command acceptance -/

theorem step_of_incomplete {s : State} (hf : s.fsm = .idle) (hd : decode s.port = .incomplete) :
    step s = .next s := by
  rw [step_idle hf, acceptStep, State.nextCommand, hd]
  rfl

theorem step_of_illegal {s : State} {why : IllegalReason} {rest : List Word} (hf : s.fsm = .idle)
    (hd : decode s.port = .illegal why rest) :
    step s = .next ((s.take rest).reject .invalidArgument) := by
  rw [step_idle hf, acceptStep, State.nextCommand, hd]
  rfl

theorem step_of_command {s : State} {i : Instr} {rest : List Word} (hf : s.fsm = .idle)
    (hd : decode s.port = .command i rest) : step s = exec i (s.take rest) := by
  rw [step_idle hf, acceptStep, State.nextCommand, hd]

/-- Settles O7: the port's words decode to the command they encode. -/
theorem idleStepRunsTheDecodedCommand : Obligations.IdleStepRunsTheDecodedCommand := by
  unfold Obligations.IdleStepRunsTheDecodedCommand
  intro s i rest hf hwf hport
  exact step_of_command hf (hport ▸ decode_encode_append rest hwf)

/-- Settles O8: the step is the rejection of the state with the words taken. -/
theorem illegalCommandOnlyReports : Obligations.IllegalCommandOnlyReports := by
  unfold Obligations.IllegalCommandOnlyReports
  exact fun _ _ _ hf hd => step_of_illegal hf hd

/-- A step of a running command takes nothing from the port (R70). -/
theorem step_busy_port {s t : State} (hf : s.fsm ≠ .idle) (hs : step s = .next t) : t.port = s.port := by
  obtain ⟨_, _, _, _, ⟨_, rfl⟩ | ⟨_, _, rfl⟩ | ⟨_, _, _, ho⟩⟩ := step_busy_next hf hs
  · rfl
  · exact State.abort_port _ _
  · obtain ⟨_, _, _, hport, _⟩ := onOk_frame ho
    exact hport

/-- Settles O9: the two ways in which the words at the port stay there. -/
theorem portIsHeldUntilTaken : Obligations.PortIsHeldUntilTaken := by
  unfold Obligations.PortIsHeldUntilTaken
  exact ⟨fun _ => step_of_incomplete, fun _ _ => step_busy_port⟩

/-! ### The data words of a payload -/

/-- The bytes of the last data word past the message's end are zero (R76). -/
theorem byteOf_txWord_padding {b : List Byte} {len w k : Nat} (hw : w < nwords len) (hk : k < 4)
    (hl : len ≤ 4 * w + k) : byteOf (txWord b len w) k = 0 := by
  have hlast := nwords_bounds len
  rw [txWord_eq_le32, if_neg (by omega)]
  match k, hk with
  | 0, _ => omega
  | 1, _ => rw [byteOf_le32_1, if_neg (by omega)]
  | 2, _ => rw [byteOf_le32_2, if_neg (by omega)]
  | 3, _ => exact byteOf_le32_3 ..

/-- Payload byte `4w + k` is byte `k` of payload word `w` (R62). -/
theorem getD_payloadBytes {n w k : Nat} (p : List Word) (hk : k < 4) (hl : 4 * w + k < n) :
    (payloadBytes n p).getD (4 * w + k) 0 = byteOf (p.getD w 0) k := by
  have hdiv : (4 * w + k) / 4 = w := by omega
  have hmod : (4 * w + k) % 4 = k := by omega
  rw [List.getD_eq_getElem?_getD, getElem?_payloadBytes p hl, hdiv, hmod, Option.getD_some]

/-- Settles O36: by whether the message has the byte. -/
theorem flushWritesTheEnqueuedWords : Obligations.FlushWritesTheEnqueuedWords := by
  unfold Obligations.FlushWritesTheEnqueuedWords
  intro len payload w k _ hw hk
  split
  · rename_i hl
    rw [byteOf_txWord hk hl, getD_payloadBytes payload hk hl]
  · rename_i hl
    exact byteOf_txWord_padding hw hk (Nat.not_lt.1 hl)

end Sys2Proof.Machine

/-! SUPPORT. The transmit family (40_transmit_packetizer.md): the data words of a message, FLUSH's acceptance,
the step of each transmit state, and a FLUSH's run as the algorithm of R75. -/

namespace Sys2Proof.Machine

open Sys2Proof

/-! ### The data words of a message -/

/-- Settles O26: by whether the message has the byte. -/
theorem dataWordIsLittleEndianAndZeroPadded : Obligations.DataWordIsLittleEndianAndZeroPadded := by
  unfold Obligations.DataWordIsLittleEndianAndZeroPadded
  intro b len w k hw hk
  split
  · rename_i hl
    exact byteOf_txWord hk hl
  · rename_i hl
    exact byteOf_txWord_padding hw hk (Nat.not_lt.1 hl)

/-- Unpacking the packed words from word `w` on gives the bytes from `4w` on. -/
theorem unpackFrom_txWords_drop (b : List Byte) {w : Nat} (hw : w ≤ nwords b.length) :
    unpackFrom b.length w ((txWords b b.length).drop w) = b.drop (4 * w) := by
  have hcover := nwords_bounds b.length
  induction hn : nwords b.length - w generalizing w with
  | zero =>
    rw [List.drop_eq_nil_of_le (by rw [length_txWords]; omega), List.drop_eq_nil_of_le (by omega)]
    rfl
  | succ n ih =>
    have hlt : w < (txWords b b.length).length := by rw [length_txWords]; omega
    have hword : (txWords b b.length)[w] = txWord b b.length w := by simp [txWords]
    rw [List.drop_eq_getElem_cons hlt, hword, unpackFrom, ih (by omega) (by omega),
      unpackWord_txWord (Nat.le_refl _)]
    have hnext : b.drop (4 * (w + 1)) = (b.drop (4 * w)).drop (min 4 (b.length - 4 * w)) := by
      rw [List.drop_drop, List.drop_eq_drop_iff]
      omega
    rw [hnext, List.take_append_drop]

/-- Settles O35: the round trip from word 0 on. -/
theorem unpackingPackedWordsGivesTheBytes : Obligations.UnpackingPackedWordsGivesTheBytes :=
  fun b => unpackFrom_txWords_drop b (Nat.zero_le _)

/-! ### Acceptance -/

theorem exec_flush_of_served {s : State} {inst : BitVec 4} {q : WriteQueue} (burst : Byte)
    (hi : inst.toNat < s.cfg.ni) (hq : s.queues[inst.toNat]? = some q) :
    exec (.flush inst burst) s
      = if flushCount q burst = 0 then .next (s.flushInit inst (flushCount q burst)).flushDone
        else match q.entry? 0 with
          | none => .fault .queueEntryNoValue
          | some e => .next { s.flushInit inst (flushCount q burst) with fsm := txStart e.len } :=
  withInstance_resolved _ hi hq

theorem exec_flush_empty {s : State} {inst : BitVec 4} {q : WriteQueue} {burst : Byte}
    (hi : inst.toNat < s.cfg.ni) (hq : s.queues[inst.toNat]? = some q) (hn : flushCount q burst = 0) :
    exec (.flush inst burst) s = .next (s.flushInit inst 0).flushDone := by
  rw [exec_flush_of_served burst hi hq, if_pos hn, hn]

theorem exec_flush_starts {s : State} {inst : BitVec 4} {q : WriteQueue} {burst : Byte} {e : QEntry}
    (hi : inst.toNat < s.cfg.ni) (hq : s.queues[inst.toNat]? = some q) (hn : flushCount q burst ≠ 0)
    (he : q.entry? 0 = some e) :
    exec (.flush inst burst) s
      = .next { s.flushInit inst (flushCount q burst) with fsm := txStart e.len } := by
  rw [exec_flush_of_served burst hi hq, if_neg hn, he]

/-- A good queue with a message to send has its first entry (R24). -/
theorem entry?_zero_of_flushCount {q : WriteQueue} {c : Nat} {burst : Byte} (hok : q.ok c = true)
    (hn : flushCount q burst ≠ 0) : ∃ e, q.entry? 0 = some e := by
  obtain ⟨_, hstored, _⟩ := (WriteQueue.ok_iff _ _).1 hok
  have hpos : 0 < q.entries.length := by simp only [flushCount] at hn; omega
  exact ⟨_, WriteQueue.entry?_of_ok hok hpos⟩

/-- Settles O16: the first entry of a good queue that is not empty holds a value. -/
theorem flushAcceptStartsTheFirstMessage : Obligations.FlushAcceptStartsTheFirstMessage := by
  unfold Obligations.FlushAcceptStartsTheFirstMessage
  intro s inst burst q n hi hq hok hn hpos
  have hcount : n = flushCount q burst := hn
  subst hcount
  obtain ⟨e, he⟩ := entry?_zero_of_flushCount hok hpos
  exact ⟨e, he, exec_flush_starts hi hq hpos he⟩

/-- Settles O17: nothing queued and a burst of 0 both clamp the count to 0. -/
theorem flushOfNothingCompletesAtOnce : Obligations.FlushOfNothingCompletesAtOnce := by
  unfold Obligations.FlushOfNothingCompletesAtOnce
  intro s inst burst q hi hq hnone
  have hn : flushCount q burst = 0 := by
    rcases hnone with h | h <;> simp [flushCount, h]
  exact exec_flush_empty hi hq hn

/-- Settles O18: by the three ways FLUSH's acceptance answers. -/
theorem flushAcceptFrame : Obligations.FlushAcceptFrame := by
  unfold Obligations.FlushAcceptFrame
  intro s t inst burst h
  have hsame : ∀ q q' k, s.queues[inst.toNat]? = some q → s.queues[inst.toNat]? = some q' →
      q'.entry? k = q.entry? k := by
    intro q q' k hq hq'
    cases hq.symm.trans hq'
    rfl
  rcases execFlush_next h with ⟨hni, rfl⟩ | ⟨q, hq, hi, ⟨_, rfl⟩ | ⟨_, e, _, rfl⟩⟩
  · exact ⟨rfl, ⟨rfl, rfl, rfl, rfl, rfl, rfl, rfl, rfl⟩, ⟨rfl, rfl, fun _ => rfl⟩, ⟨rfl, rfl, rfl⟩, rfl,
      fun _ _ => rfl, hsame, fun hi => absurd hi (Nat.not_lt.2 hni),
      fun _ => ⟨⟨rfl, rfl, rfl, rfl, rfl⟩, rfl, rfl⟩⟩
  · refine ⟨rfl, ⟨rfl, rfl, rfl, rfl, rfl, rfl, rfl, rfl⟩, ⟨rfl, rfl, fun _ => rfl⟩, ⟨rfl, rfl, rfl⟩, rfl,
      fun j hj => ?_, fun p p' k hp hp' => ?_, fun _ => rfl, fun hni => absurd hi (Nat.not_lt.2 hni)⟩
    · exact (getElem?_emptied s.queues inst.toNat j).trans (if_neg hj)
    · have hemptied := getElem?_emptied s.queues inst.toNat inst.toNat
      rw [if_pos rfl, hp] at hemptied
      cases hp'.symm.trans hemptied
      exact WriteQueue.entry?_emptied p 0 k
  · exact ⟨rfl, ⟨rfl, rfl, rfl, rfl, rfl, rfl, rfl, rfl⟩, ⟨rfl, rfl, fun _ => rfl⟩, ⟨rfl, rfl, rfl⟩, rfl,
      fun _ _ => rfl, hsame, fun _ => rfl, fun hni => absurd hi (Nat.not_lt.2 hni)⟩

/-! ### The step of each transmit state -/

/-- A step that the device answers `Ok`. -/
theorem step_ok {s : State} {m : RegMap} {op : BusOp} {d : Word} {rest : List Response}
    (hf : s.fsm ≠ .idle) (hm : s.cfg.regmap[s.curInst.toNat]? = some m) (hop : s.nextOp = some op)
    (hr : s.responses = .ok d :: rest) :
    step s = s.onOk d (s.answered (op.request m) (.ok d) rest) := by
  rw [step_busy hf, hop]
  exact busStep_ok op _ hm hr

/-- A step that the device answers `Fail` (R51, R126). -/
theorem step_fail {s : State} {m : RegMap} {op : BusOp} {rest : List Response} (hf : s.fsm ≠ .idle)
    (hm : s.cfg.regmap[s.curInst.toNat]? = some m) (hop : s.nextOp = some op)
    (hr : s.responses = .fail :: rest) :
    step s = .next ((s.answered (op.request m) .fail rest).abort .registerIO) := by
  rw [step_busy hf, hop]
  exact busStep_fail op _ hm hr

theorem ofNat_toNat_succ {w : Nat} (x : BitVec w) : BitVec.ofNat w (x.toNat + 1) = x + 1 := by
  rw [BitVec.ofNat_add, BitVec.ofNat_toNat, BitVec.setWidth_eq]
  rfl

section

variable {s : State} {m : RegMap} {e : QEntry} {d : Word} {rest : List Response}

theorem step_txData (hf : s.fsm = .txData) (hm : s.cfg.regmap[s.curInst.toNat]? = some m)
    (he : s.txEntry = some e) (hr : s.responses = .ok d :: rest) :
    step s = .next { s.answered
        ((BusOp.write .txData (txWord e.data e.len.toNat s.txW.toNat)).request m) (.ok d) rest with
      txW := s.txW + 1
      fsm := if s.txW.toNat + 1 = nwords e.len.toNat then .txSize else .txData } := by
  rw [step_ok (op := .write .txData (txWord e.data e.len.toNat s.txW.toNat)) (by simp [hf]) hm
    (by simp [State.nextOp, hf, he]) hr]
  simp only [State.onOk, hf, he, ofNat_toNat_succ]

theorem step_txSize (hf : s.fsm = .txSize) (hm : s.cfg.regmap[s.curInst.toNat]? = some m)
    (he : s.txEntry = some e) (hr : s.responses = .ok d :: rest) :
    step s = .next { s.answered ((BusOp.write .txSizeFifo (e.len.setWidth 32)).request m) (.ok d) rest with
      fsm := .txStn } := by
  rw [step_ok (op := .write .txSizeFifo (e.len.setWidth 32)) (by simp [hf]) hm
    (by simp [State.nextOp, hf, he]) hr]
  simp only [State.onOk, hf]

theorem step_txStn (hf : s.fsm = .txStn) (hm : s.cfg.regmap[s.curInst.toNat]? = some m)
    (he : s.txEntry = some e) (hr : s.responses = .ok d :: rest) :
    step s = .next { s.answered ((BusOp.write .txStnFifo (e.stn.setWidth 32)).request m) (.ok d) rest with
      fsm := .txMode } := by
  rw [step_ok (op := .write .txStnFifo (e.stn.setWidth 32)) (by simp [hf]) hm
    (by simp [State.nextOp, hf, he]) hr]
  simp only [State.onOk, hf]

/-- A mode word with bit 4 set (R82, R126). -/
theorem step_txMode_error (hf : s.fsm = .txMode) (hm : s.cfg.regmap[s.curInst.toNat]? = some m)
    (he : s.txEntry = some e) (hr : s.responses = .ok d :: rest) (hd : txFifoError d = true) :
    step s = .next
      ((s.answered ((BusOp.read .mode).request m) (.ok d) rest).abort .txSendCountFifo) := by
  rw [step_ok (op := .read .mode) (by simp [hf]) hm (by simp [State.nextOp, hf, he]) hr]
  simp [State.onOk, hf, he, hd]

/-- A mode word with bit 4 clear counts the message (R82). -/
theorem step_txMode_clear (hf : s.fsm = .txMode) (hm : s.cfg.regmap[s.curInst.toNat]? = some m)
    (he : s.txEntry = some e) (hr : s.responses = .ok d :: rest) (hd : txFifoError d = false) :
    step s = State.txAdvance { s.answered ((BusOp.read .mode).request m) (.ok d) rest with
      txSent := s.txSent + 1, txTot := s.txTot + e.len.setWidth 32 } := by
  have htot : BitVec.ofNat 32 (s.txTot.toNat + e.len.toNat) = s.txTot + e.len.setWidth 32 := by
    rw [BitVec.ofNat_add, BitVec.ofNat_toNat, BitVec.setWidth_eq, BitVec.ofNat_toNat]
  rw [step_ok (op := .read .mode) (by simp [hf]) hm (by simp [State.nextOp, hf, he]) hr]
  simp only [State.onOk, hf, he, hd, Bool.false_eq_true, if_false, State.answered_txSent,
    State.answered_txTot, ofNat_toNat_succ, htot]

/-- The mode word that starts the next message (R83). -/
theorem step_txMode_next {e' : QEntry} (hf : s.fsm = .txMode)
    (hm : s.cfg.regmap[s.curInst.toNat]? = some m) (he : s.txEntry = some e)
    (hr : s.responses = .ok d :: rest) (hd : txFifoError d = false)
    (hne : s.txM.toNat + 1 ≠ s.txN.toNat) (he' : s.curQueue.entry? (s.txM.toNat + 1) = some e') :
    step s = .next { s.answered ((BusOp.read .mode).request m) (.ok d) rest with
      txSent := s.txSent + 1, txTot := s.txTot + e.len.setWidth 32, txM := s.txM + 1, txW := 0
      fsm := txStart e'.len } := by
  rw [step_txMode_clear hf hm he hr hd, ← ofNat_toNat_succ s.txM]
  exact txAdvance_more hne he'

/-- The mode word that completes the FLUSH (R84). -/
theorem step_txMode_last (hf : s.fsm = .txMode) (hm : s.cfg.regmap[s.curInst.toNat]? = some m)
    (he : s.txEntry = some e) (hr : s.responses = .ok d :: rest) (hd : txFifoError d = false)
    (hlast : s.txM.toNat + 1 = s.txN.toNat) :
    step s = .next (State.flushDone { s.answered ((BusOp.read .mode).request m) (.ok d) rest with
      txSent := s.txSent + 1, txTot := s.txTot + e.len.setWidth 32, txM := s.txM + 1, txW := 0 }) := by
  rw [step_txMode_clear hf hm he hr hd, ← ofNat_toNat_succ s.txM]
  exact txAdvance_last hlast

end

/-- The counts of R82 do not wrap: at most 16 messages of at most 255 bytes (R33). -/
theorem State.Inv.txCounts {s : State} {e : QEntry} (h : s.Inv) (hx : s.fsm.isTx = true)
    (he : s.txEntry = some e) :
    (s.txSent + 1).toNat = s.txSent.toNat + 1 ∧ (s.txM + 1).toNat = s.txM.toNat + 1
      ∧ (s.txTot + e.len.setWidth 32).toNat = s.txTot.toNat + e.len.toNat
      ∧ s.txTot.toNat + e.len.toNat = lenTotal (s.curQueue.entries.take (s.txM.toNat + 1)) := by
  have ht := h.tx hx
  have hburst : s.txN.toNat ≤ 16 := ht.burst
  have hidx := ht.index
  have hsent := ht.sent
  obtain ⟨hl, hcur⟩ := h.txIndex hx hidx
  cases he.symm.trans hcur
  have hlen := (s.curQueue.entries[s.txM.toNat]).len.isLt
  have hbytes := lenTotal_le (s.curQueue.entries.take s.txM.toNat)
  rw [← ht.total, List.length_take, maxMsgLen] at hbytes
  refine ⟨?_, ?_, ?_, ?_⟩
  · rw [← ofNat_toNat_succ]; exact toNat_ofNat_lt (by omega)
  · rw [← ofNat_toNat_succ]; exact toNat_ofNat_lt (by omega)
  · rw [BitVec.toNat_add, BitVec.toNat_setWidth_of_le (by decide), Nat.mod_eq_of_lt (by omega)]
  · rw [lenTotal_take_succ _ _ hl, ht.total]

/-- Settles O21: the step of `TX_DATA` at the row and the entry that the invariant gives. -/
theorem txDataStepWritesOneWord : Obligations.TxDataStepWritesOneWord := by
  unfold Obligations.TxDataStepWritesOneWord
  intro s d rest h hf hr
  obtain ⟨m, hm⟩ := h.row
  obtain ⟨e, he⟩ := h.txEntry (by rw [hf]; rfl)
  exact ⟨m, e, hm, he, step_txData hf hm he hr⟩

/-- Settles O22: the length and the station keep their value in a wider word. -/
theorem txSizeAndStationSteps : Obligations.TxSizeAndStationSteps := by
  unfold Obligations.TxSizeAndStationSteps
  intro s d rest h hr
  obtain ⟨m, hm⟩ := h.row
  constructor
  · intro hf
    obtain ⟨e, he⟩ := h.txEntry (by rw [hf]; rfl)
    exact ⟨m, e, e.len.setWidth 32, hm, he, BitVec.toNat_setWidth_of_le (by decide),
      step_txSize hf hm he hr⟩
  · intro hf
    obtain ⟨e, he⟩ := h.txEntry (by rw [hf]; rfl)
    exact ⟨m, e, e.stn.setWidth 32, hm, he, BitVec.toNat_setWidth_of_le (by decide),
      step_txStn hf hm he hr⟩

/-- The entry after the one being sent, where that is not the last (R83). -/
theorem State.Inv.nextEntry {s : State} (h : s.Inv) (hx : s.fsm.isTx = true)
    (hne : s.txM.toNat + 1 ≠ s.txN.toNat) : ∃ e, s.curQueue.entry? (s.txM.toNat + 1) = some e := by
  have hidx := (h.tx hx).index
  obtain ⟨_, he⟩ := h.txIndex hx (k := s.txM.toNat + 1) (by omega)
  exact ⟨_, he⟩

/-- Settles O23: the next message's entry holds a value, since it is below `TX_N`. -/
theorem txModeStepStartsTheNextMessage : Obligations.TxModeStepStartsTheNextMessage := by
  unfold Obligations.TxModeStepStartsTheNextMessage
  intro s d rest h hf hr hd hne
  have hx : s.fsm.isTx = true := by rw [hf]; rfl
  obtain ⟨m, hm⟩ := h.row
  obtain ⟨e, he⟩ := h.txEntry hx
  obtain ⟨e', he'⟩ := h.nextEntry hx hne
  exact ⟨m, e, e', hm, he, he', step_txMode_next hf hm he hr hd hne he'⟩

/-- Settles O24: the counts reported are those after the last message. -/
theorem lastTxModeStepCompletesTheFlush : Obligations.LastTxModeStepCompletesTheFlush := by
  unfold Obligations.LastTxModeStepCompletesTheFlush
  intro s d rest h hf hr hd hlast
  have hx : s.fsm.isTx = true := by rw [hf]; rfl
  obtain ⟨m, hm⟩ := h.row
  obtain ⟨e, he⟩ := h.txEntry hx
  obtain ⟨hsent, _, htot, hsum⟩ := h.txCounts hx he
  refine ⟨_, step_txMode_last hf hm he hr hd hlast, rfl, ?_, ?_, rfl, rfl, rfl, rfl,
    ⟨rfl, rfl, rfl, rfl, rfl, rfl, rfl, rfl⟩, rfl, rfl, fun _ => rfl⟩
  · show (s.txSent + 1).toNat = s.txN.toNat
    rw [hsent, (h.tx hx).sent, hlast]
  · show (s.txTot + e.len.setWidth 32).toNat = _
    rw [htot, hsum, hlast]

/-- Settles O25: the abort of a FLUSH after the mode read. -/
theorem txModeErrorBitAbortsTheFlush : Obligations.TxModeErrorBitAbortsTheFlush := by
  unfold Obligations.TxModeErrorBitAbortsTheFlush
  intro s d rest h hf hr hd
  have hx : s.fsm.isTx = true := by rw [hf]; rfl
  obtain ⟨m, hm⟩ := h.row
  obtain ⟨e, he⟩ := h.txEntry hx
  refine ⟨m, hm, ?_⟩
  rw [step_txMode_error hf hm he hr hd, abort_tx (s := s.answered _ (.ok d) rest) hx]
  rfl

/-! ### A list of requests, one at a time -/

theorem sendAll_cons_done {q : BusReq} {qs : List BusReq} {rs rest : List Response} {ds : List Word}
    {evs : List Event} (h : sendAll (q :: qs) rs = .done ds evs rest) :
    ∃ d rs' ds' evs', rs = .ok d :: rs' ∧ sendAll qs rs' = .done ds' evs' rest
      ∧ evs = q.event (.ok d) :: evs' := by
  match rs with
  | [] => cases h
  | .fail :: rs' => cases h
  | .ok d :: rs' =>
    simp only [sendAll] at h
    split at h <;> cases h
    rename_i hrest
    exact ⟨d, rs', _, _, rfl, hrest, rfl⟩

theorem sendAll_cons_failed {q : BusReq} {qs : List BusReq} {rs rest : List Response} {ds : List Word}
    {evs : List Event} (h : sendAll (q :: qs) rs = .failed ds evs rest) :
    (rs = .fail :: rest ∧ evs = [q.event .fail])
      ∨ ∃ d rs' ds' evs', rs = .ok d :: rs' ∧ sendAll qs rs' = .failed ds' evs' rest
        ∧ evs = q.event (.ok d) :: evs' := by
  match rs with
  | [] => cases h
  | .fail :: rs' => cases h; exact .inl ⟨rfl, rfl⟩
  | .ok d :: rs' =>
    simp only [sendAll] at h
    split at h <;> cases h
    rename_i hrest
    exact .inr ⟨d, rs', _, _, rfl, hrest, rfl⟩

/-- Writes that all succeed are recorded as writes. -/
theorem sendAll_done_writes {qs : List BusReq} {rs rest : List Response} {ds : List Word}
    {evs : List Event} (hqs : ∀ q ∈ qs, q.kind = .write) (h : sendAll qs rs = .done ds evs rest) :
    ∀ e ∈ evs, e.kind = .write := by
  intro e he
  have hmem : (e.kind, e.addr) ∈ qs.map fun q => (q.kind, q.addr) :=
    sendAll_done h ▸ List.mem_map_of_mem he
  obtain ⟨q, hq, heq⟩ := List.mem_map.1 hmem
  exact (congrArg Prod.fst heq).symm.trans (hqs q hq)

/-- Writes up to one that fails are recorded as writes. -/
theorem sendAll_failed_writes {qs : List BusReq} {rs rest : List Response} {ds : List Word}
    {evs : List Event} (hqs : ∀ q ∈ qs, q.kind = .write) (h : sendAll qs rs = .failed ds evs rest) :
    ∀ e ∈ evs, e.kind = .write := by
  induction qs generalizing rs ds evs with
  | nil => cases h
  | cons q qs ih =>
    obtain ⟨hq, hqs⟩ := List.forall_mem_cons.1 hqs
    rcases sendAll_cons_failed h with ⟨_, rfl⟩ | ⟨d, rs', ds', evs', _, hrest, rfl⟩
    · exact List.forall_mem_cons.2 ⟨hq, nofun⟩
    · exact List.forall_mem_cons.2 ⟨hq, ih hqs hrest⟩

/-! ### The algorithm of R75, one message at a time -/

/-- What a FLUSH that stops with an error after `sent` messages comes to (R75, R85). -/
def flushStop (c : Config) (k : ErrorKind) (sent : Nat) (evs : List Event) (rest : List Response) :
    FlushEnd :=
  { result := i32 (resultCode c k), count := sent, events := evs, rest := rest }

/-- The four ways in which the loop of R75 goes on from a message: a write fails, the mode read fails, the
mode word has bit 4 set, or the message is counted and the loop goes on. -/
theorem flushMessages_cons {c : Config} {m : RegMap} {e : QEntry} {es : List QEntry} {sent tot : Nat}
    {rs : List Response} {r : FlushEnd} (h : flushMessages c m (e :: es) sent tot rs = some r) :
    (∃ ds evs rest, sendAll (messageWrites m e) rs = .failed ds evs rest
        ∧ r = flushStop c .registerIO sent evs rest)
      ∨ (∃ ds evs rest, sendAll (messageWrites m e) rs = .done ds evs (.fail :: rest)
        ∧ r = flushStop c .registerIO sent (evs ++ [((BusOp.read .mode).request m).event .fail]) rest)
      ∨ (∃ ds evs d rest, sendAll (messageWrites m e) rs = .done ds evs (.ok d :: rest)
        ∧ txFifoError d = true
        ∧ r = flushStop c .txSendCountFifo sent
            (evs ++ [((BusOp.read .mode).request m).event (.ok d)]) rest)
      ∨ ∃ ds evs d rest r', sendAll (messageWrites m e) rs = .done ds evs (.ok d :: rest)
        ∧ txFifoError d = false
        ∧ flushMessages c m es (sent + 1) (tot + e.len.toNat) rest = some r'
        ∧ r = { r' with events := evs ++ ((BusOp.read .mode).request m).event (.ok d) :: r'.events } := by
  simp only [flushMessages] at h
  split at h
  · cases h
  · rename_i ds evs rest hsend
    cases h
    exact .inl ⟨ds, evs, rest, hsend, rfl⟩
  · rename_i ds evs rest hsend
    split at h
    · cases h
    · rename_i rest
      cases h
      exact .inr (.inl ⟨ds, evs, rest, hsend, rfl⟩)
    · rename_i d rest
      split at h
      · rename_i hd
        cases h
        exact .inr (.inr (.inl ⟨ds, evs, d, rest, hsend, hd, rfl⟩))
      · rename_i hd
        split at h
        · cases h
        · rename_i r' hr'
          cases h
          exact .inr (.inr (.inr ⟨ds, evs, d, rest, r', hsend, Bool.eq_false_iff.2 hd, hr', rfl⟩))

/-! ### A FLUSH that has ended -/

/-- The state with everything blanked that a FLUSH writes: what is left, a FLUSH never changes. -/
def State.flushBlanked (s : State) : State :=
  { s with
    fsm := .idle, curInst := 0, result := 0, count := 0, queues := []
    txN := 0, txM := 0, txW := 0, txSent := 0, txTot := 0
    responses := [], outstanding := none, history := [] }

theorem sameRx_of_flushBlanked {s t : State} (h : t.flushBlanked = s.flushBlanked) : s.sameRx t :=
  ⟨(congrArg State.rxCap h :), (congrArg State.rxAvail h :), (congrArg State.rxJ h :),
    (congrArg State.rxLen h :), (congrArg State.rxStn h :), (congrArg State.rxW h :),
    (congrArg State.rxAcc h :), (congrArg State.rxCnt h :)⟩

theorem sameOut_of_flushBlanked {s t : State} (h : t.flushBlanked = s.flushBlanked) : s.sameOut t := by
  have hbuf : t.rxBuf = s.rxBuf := (congrArg State.rxBuf h :)
  exact ⟨(congrArg State.outLen h :), (congrArg State.outStn h :), fun a => by rw [hbuf]⟩

/-- The FLUSH that runs in `s` ends in `t`, one step a transaction, with the outcome `r`. -/
structure State.FlushEnds (s t : State) (r : FlushEnd) : Prop where
  run : Host.Core.run core r.events.length s = .next t
  idle : t.fsm = .idle
  result : t.result = r.result
  count : t.count.toNat = r.count
  history : t.history = s.history ++ r.events
  responses : t.responses = r.rest
  queues : t.queues = emptied s.queues s.curInst.toNat
  blanked : t.flushBlanked = s.flushBlanked

/-- The transactions before those of `v` come first in the outcome. -/
theorem State.FlushEnds.after {s v t : State} {evs : List Event} {r : FlushEnd} (h : v.FlushEnds t r)
    (hrun : Host.Core.run core evs.length s = .next v) (hhist : v.history = s.history ++ evs)
    (hq : v.queues = s.queues) (hi : v.curInst = s.curInst) (hb : v.flushBlanked = s.flushBlanked) :
    s.FlushEnds t { r with events := evs ++ r.events } where
  run := by rw [List.length_append, run_add hrun]; exact h.run
  idle := h.idle
  result := h.result
  count := h.count
  history := by rw [h.history, hhist, List.append_assoc]
  responses := h.responses
  queues := by rw [h.queues, hq, hi]
  blanked := h.blanked.trans hb

theorem run_one {s t : State} (h : step s = .next t) : Host.Core.run core 1 s = .next t :=
  run_succ h 0

/-- An abort ends a FLUSH (R85, R126). -/
theorem flushEnds_of_abort {s : State} {q : BusReq} {r : Response} {rest : List Response} {k : ErrorKind}
    (hx : s.fsm.isTx = true) (hs : step s = .next ((s.answered q r rest).abort k)) :
    ∃ t, s.FlushEnds t (flushStop s.cfg k s.txSent.toNat [q.event r] rest) := by
  rw [abort_tx (s := s.answered q r rest) hx] at hs
  exact ⟨_, run_one hs, rfl, rfl, rfl, rfl, rfl, rfl, rfl⟩

/-- The last message's clear mode word ends a FLUSH (R84). -/
theorem State.Inv.flushEnds_of_last {s : State} {m : RegMap} {e : QEntry} {d : Word}
    {rest : List Response} (h : s.Inv) (hf : s.fsm = .txMode)
    (hm : s.cfg.regmap[s.curInst.toNat]? = some m) (he : s.txEntry = some e)
    (hr : s.responses = .ok d :: rest) (hd : txFifoError d = false)
    (hlast : s.txM.toNat + 1 = s.txN.toNat) :
    ∃ t, s.FlushEnds t
      { result := BitVec.ofNat 32 (s.txTot.toNat + e.len.toNat), count := s.txSent.toNat + 1
        events := [((BusOp.read .mode).request m).event (.ok d)], rest := rest } := by
  obtain ⟨hsent, _, htot, _⟩ := h.txCounts (by rw [hf]; rfl) he
  refine ⟨_, run_one (step_txMode_last hf hm he hr hd hlast), rfl, ?_, hsent, rfl, rfl, rfl, rfl⟩
  rw [← htot, BitVec.ofNat_toNat, BitVec.setWidth_eq]
  rfl

/-! ### The writes of one message -/

/-- The writes of the entry `e` being sent that are still due (R75, steps 1 to 4). -/
def State.writesLeft (s : State) (m : RegMap) (e : QEntry) : List BusReq :=
  match s.fsm with
  | .txData =>
    ((txWords e.data e.len.toNat).drop s.txW.toNat).map (fun v => (BusOp.write .txData v).request m)
      ++ [(BusOp.write .txSizeFifo (e.len.setWidth 32)).request m,
          (BusOp.write .txStnFifo (e.stn.setWidth 32)).request m]
  | .txSize =>
    [(BusOp.write .txSizeFifo (e.len.setWidth 32)).request m,
      (BusOp.write .txStnFifo (e.stn.setWidth 32)).request m]
  | .txStn => [(BusOp.write .txStnFifo (e.stn.setWidth 32)).request m]
  | .idle | .txMode | .rxMode | .rxSize | .rxStn | .rxData => []

/-- Where a message starts, all its writes are due; one of no data words starts with its size. -/
theorem writesLeft_of_start {s : State} {m : RegMap} {e : QEntry} (hf : s.fsm = txStart e.len)
    (hw : s.txW = 0) : s.writesLeft m e = messageWrites m e := by
  unfold txStart at hf
  split at hf
  · simp [State.writesLeft, messageWrites, hf, hw]
  · have hnil : txWords e.data e.len.toNat = [] :=
      List.eq_nil_of_length_eq_zero (by rw [length_txWords]; omega)
    simp [State.writesLeft, messageWrites, hf, hnil]

theorem txMode_of_writesLeft_nil {s : State} {m : RegMap} {e : QEntry} (hx : s.fsm.isTx = true)
    (h : s.writesLeft m e = []) : s.fsm = .txMode := by
  cases hf : s.fsm <;> simp [State.writesLeft, hf, Fsm.isTx] at h hx ⊢

/-- In `TX_DATA` data word `TX_W` is due first, and after it what is due in the state that its step leads
to (R79). -/
theorem writesLeft_txData {s : State} {m : RegMap} {e : QEntry} (hf : s.fsm = .txData)
    (hw : s.txW.toNat < nwords e.len.toNat) :
    s.writesLeft m e
      = (BusOp.write .txData (txWord e.data e.len.toNat s.txW.toNat)).request m
        :: State.writesLeft { s with
            txW := s.txW + 1
            fsm := if s.txW.toNat + 1 = nwords e.len.toNat then .txSize else .txData } m e := by
  have h64 := nwords_le_64 e.len
  have hlt : s.txW.toNat < (txWords e.data e.len.toNat).length := by rw [length_txWords]; exact hw
  have hword : (txWords e.data e.len.toNat)[s.txW.toNat] = txWord e.data e.len.toNat s.txW.toNat := by
    simp [txWords]
  have hsucc : (s.txW + 1).toNat = s.txW.toNat + 1 := by
    rw [← ofNat_toNat_succ]; exact toNat_ofNat_lt (by omega)
  simp only [State.writesLeft, hf]
  rw [List.drop_eq_getElem_cons hlt, hword]
  by_cases hlast : s.txW.toNat + 1 = nwords e.len.toNat
  · rw [if_pos hlast, List.drop_eq_nil_of_le (by rw [length_txWords]; omega)]
    rfl
  · rw [if_neg hlast, hsucc]
    rfl

/-- The first write that is due is the transaction of the state; an `Ok` leaves the ones after it. -/
theorem State.Inv.first_writesLeft {s : State} {m : RegMap} {e : QEntry} {q : BusReq} {qs : List BusReq}
    (h : s.Inv) (hx : s.fsm.isTx = true) (hm : s.cfg.regmap[s.curInst.toNat]? = some m)
    (he : s.txEntry = some e) (hleft : s.writesLeft m e = q :: qs) :
    (∃ op, s.nextOp = some op ∧ op.request m = q)
      ∧ ∃ w f, f.isTx = true ∧ State.writesLeft { s with txW := w, fsm := f } m e = qs
        ∧ ∀ d rest, s.responses = .ok d :: rest →
            step s = .next { s.answered q (.ok d) rest with txW := w, fsm := f } := by
  cases hf : s.fsm with
  | txData =>
    have hw := (h.tx hx).word e he
    rw [if_pos hf] at hw
    rw [writesLeft_txData hf hw] at hleft
    obtain ⟨rfl, rfl⟩ := List.cons.inj hleft
    exact ⟨⟨_, by rw [State.nextOp, hf, he]; rfl, rfl⟩, _, _, by split <;> rfl, rfl,
      fun _ _ hr => step_txData hf hm he hr⟩
  | txSize =>
    simp only [State.writesLeft, hf] at hleft
    obtain ⟨rfl, rfl⟩ := List.cons.inj hleft
    exact ⟨⟨_, by rw [State.nextOp, hf, he]; rfl, rfl⟩, s.txW, .txStn, rfl, rfl,
      fun _ _ hr => step_txSize hf hm he hr⟩
  | txStn =>
    simp only [State.writesLeft, hf] at hleft
    obtain ⟨rfl, rfl⟩ := List.cons.inj hleft
    exact ⟨⟨_, by rw [State.nextOp, hf, he]; rfl, rfl⟩, s.txW, .txMode, rfl, rfl,
      fun _ _ hr => step_txStn hf hm he hr⟩
  | txMode => simp [State.writesLeft, hf] at hleft
  | idle | rxMode | rxSize | rxStn | rxData => simp [hf, Fsm.isTx] at hx

/-- The state in which every write of the message is answered and its mode read is due. -/
def State.atModeRead (s : State) (w : BitVec 7) (out : Option BusReq) (evs : List Event)
    (rest : List Response) : State :=
  { s with
    fsm := .txMode, txW := w, outstanding := out, history := s.history ++ evs, responses := rest }

/-- Writes that are all answered `Ok` lead to the mode read. -/
theorem State.Inv.run_writes {m : RegMap} {e : QEntry} {qs : List BusReq} {s : State} {ds : List Word}
    {evs : List Event} {rest : List Response} (h : s.Inv) (hx : s.fsm.isTx = true)
    (hm : s.cfg.regmap[s.curInst.toNat]? = some m) (he : s.txEntry = some e)
    (hleft : s.writesLeft m e = qs) (hsend : sendAll qs s.responses = .done ds evs rest) :
    ∃ w out, (s.atModeRead w out evs rest).Inv
      ∧ Host.Core.run core evs.length s = .next (s.atModeRead w out evs rest) := by
  induction qs generalizing s ds evs with
  | nil =>
    cases hsend
    have hs : s.atModeRead s.txW s.outstanding [] s.responses = s := by
      simp only [State.atModeRead, List.append_nil, ← txMode_of_writesLeft_nil hx hleft]
    exact ⟨s.txW, s.outstanding, by rw [hs]; exact h, by rw [hs]; rfl⟩
  | cons q qs ih =>
    obtain ⟨d, rs, ds', evs', hrs, hrest, rfl⟩ := sendAll_cons_done hsend
    obtain ⟨_, w, f, hf, hleft', hstep⟩ := h.first_writesLeft hx hm he hleft
    have hs := hstep d rs hrs
    obtain ⟨w', out, hinv, hrun⟩ := ih (stepKeepsTheInvariant _ _ h hs) hf hm he hleft' hrest
    have hall : State.atModeRead { s.answered q (.ok d) rs with txW := w, fsm := f } w' out evs' rest
        = s.atModeRead w' out (q.event (.ok d) :: evs') rest := by
      simp [State.atModeRead, State.answered]
    rw [hall] at hinv hrun
    exact ⟨w', out, hinv, (run_succ hs _).trans hrun⟩

/-- A write that fails ends the FLUSH (R51, R85). -/
theorem State.Inv.flushEnds_of_failed {m : RegMap} {e : QEntry} {qs : List BusReq} {s : State}
    {ds : List Word} {evs : List Event} {rest : List Response} (h : s.Inv) (hx : s.fsm.isTx = true)
    (hm : s.cfg.regmap[s.curInst.toNat]? = some m) (he : s.txEntry = some e)
    (hleft : s.writesLeft m e = qs) (hsend : sendAll qs s.responses = .failed ds evs rest) :
    ∃ t, s.FlushEnds t (flushStop s.cfg .registerIO s.txSent.toNat evs rest) := by
  induction qs generalizing s ds evs with
  | nil => cases hsend
  | cons q qs ih =>
    obtain ⟨⟨op, hop, hq⟩, w, f, hf, hleft', hstep⟩ := h.first_writesLeft hx hm he hleft
    rcases sendAll_cons_failed hsend with ⟨hrs, rfl⟩ | ⟨d, rs, ds', evs', hrs, hrest, rfl⟩
    · have hs := step_fail (Fsm.ne_idle_of_isTx hx) hm hop hrs
      rw [hq] at hs
      exact flushEnds_of_abort hx hs
    · have hs := hstep d rs hrs
      obtain ⟨t, ht⟩ := ih (stepKeepsTheInvariant _ _ h hs) hf hm he hleft' hrest
      exact ⟨t, ht.after (evs := [q.event (.ok d)]) (run_one hs) rfl rfl rfl rfl⟩

/-! ### The messages of a FLUSH -/

/-- The FLUSH of `s` is at the start of message `e`, with `es` to send after it (R78, R83). -/
structure State.AtMessage (s : State) (m : RegMap) (e : QEntry) (es : List QEntry) : Prop where
  inv : s.Inv
  row : s.cfg.regmap[s.curInst.toNat]? = some m
  left : (s.curQueue.entries.take s.txN.toNat).drop s.txM.toNat = e :: es
  start : s.fsm = txStart e.len
  word : s.txW = 0

/-- The entries from index `k` on that a FLUSH sends begin with the one at `k`. -/
theorem State.Inv.entry?_of_drop {s : State} {k : Nat} {e : QEntry} {es : List QEntry} (h : s.Inv)
    (hx : s.fsm.isTx = true) (hl : (s.curQueue.entries.take s.txN.toNat).drop k = e :: es) :
    s.curQueue.entry? k = some e := by
  have hk : (s.curQueue.entries.take s.txN.toNat)[k]? = some e := by
    have h0 := congrArg (·[0]?) hl
    rwa [List.getElem?_drop] at h0
  obtain ⟨hlt, hke⟩ := List.getElem?_eq_some_iff.1 hk
  rw [List.length_take] at hlt
  obtain ⟨_, hentry⟩ := h.txIndex hx (k := k) (by omega)
  rw [hentry, ← hke, List.getElem_take]

theorem State.AtMessage.isTx {s : State} {m : RegMap} {e : QEntry} {es : List QEntry}
    (h : s.AtMessage m e es) : s.fsm.isTx = true := by
  rw [h.start]; exact isTx_txStart _

theorem State.AtMessage.entry {s : State} {m : RegMap} {e : QEntry} {es : List QEntry}
    (h : s.AtMessage m e es) : s.txEntry = some e :=
  h.inv.entry?_of_drop h.isTx h.left

/-- The messages from `TX_M` on are as many as `TX_N` says (R25). -/
theorem State.AtMessage.count {s : State} {m : RegMap} {e : QEntry} {es : List QEntry}
    (h : s.AtMessage m e es) : s.txM.toNat + 1 + es.length = s.txN.toNat := by
  have ht := h.inv.tx h.isTx
  obtain ⟨_, hok⟩ := h.inv.curQueue
  obtain ⟨_, hstored, _⟩ := (WriteQueue.ok_iff _ _).1 hok
  have hqueued := ht.queued
  have hidx := ht.index
  have hlen := congrArg List.length h.left
  rw [List.length_drop, List.length_take, List.length_cons] at hlen
  omega

/-- From the start of a message the FLUSH either ends within it or comes to a clear mode word, from which the
loop of R75 goes on (R82). -/
theorem State.AtMessage.ends_or_counts {m : RegMap} {e : QEntry} {es : List QEntry} {s : State}
    {r : FlushEnd} (h : s.AtMessage m e es)
    (hr : flushMessages s.cfg m (e :: es) s.txSent.toNat s.txTot.toNat s.responses = some r) :
    (∃ t, s.FlushEnds t r)
      ∨ ∃ w out evs d rest r', (s.atModeRead w out evs (.ok d :: rest)).Inv
        ∧ Host.Core.run core evs.length s = .next (s.atModeRead w out evs (.ok d :: rest))
        ∧ txFifoError d = false
        ∧ flushMessages s.cfg m es (s.txSent.toNat + 1) (s.txTot.toNat + e.len.toNat) rest = some r'
        ∧ r = { r' with events := evs ++ ((BusOp.read .mode).request m).event (.ok d) :: r'.events } := by
  have hx := h.isTx
  have he := h.entry
  have hleft := writesLeft_of_start (m := m) h.start h.word
  rcases flushMessages_cons hr with ⟨ds, evs, rest, hsend, rfl⟩ | ⟨ds, evs, rest, hsend, rfl⟩
    | ⟨ds, evs, d, rest, hsend, hd, rfl⟩ | ⟨ds, evs, d, rest, r', hsend, hd, hr', rfl⟩
  · exact .inl (h.inv.flushEnds_of_failed hx h.row he hleft hsend)
  · obtain ⟨w, out, _, hrun⟩ := h.inv.run_writes hx h.row he hleft hsend
    have hop : (s.atModeRead w out evs (.fail :: rest)).nextOp = some (.read .mode) :=
      congrArg (Option.map fun _ => BusOp.read .mode) he
    have hs := step_fail (s := s.atModeRead w out evs (.fail :: rest)) nofun h.row hop rfl
    obtain ⟨t, ht⟩ := flushEnds_of_abort rfl hs
    exact .inl ⟨t, ht.after hrun rfl rfl rfl rfl⟩
  · obtain ⟨w, out, _, hrun⟩ := h.inv.run_writes hx h.row he hleft hsend
    have hs := step_txMode_error (s := s.atModeRead w out evs (.ok d :: rest)) rfl h.row he rfl hd
    obtain ⟨t, ht⟩ := flushEnds_of_abort rfl hs
    exact .inl ⟨t, ht.after hrun rfl rfl rfl rfl⟩
  · obtain ⟨w, out, hinv, hrun⟩ := h.inv.run_writes hx h.row he hleft hsend
    exact .inr ⟨w, out, evs, d, rest, r', hinv, hrun, hd, hr', rfl⟩

/-- The loop of R75 from a message on is what the steps from there on do: by the messages left. -/
theorem State.AtMessage.flushEnds {m : RegMap} {e : QEntry} {es : List QEntry} {s : State} {r : FlushEnd}
    (h : s.AtMessage m e es)
    (hr : flushMessages s.cfg m (e :: es) s.txSent.toNat s.txTot.toNat s.responses = some r) :
    ∃ t, s.FlushEnds t r := by
  induction es generalizing s e r with
  | nil =>
    rcases h.ends_or_counts hr with hend | ⟨w, out, evs, d, rest, r', hinv, hrun, hd, hr', rfl⟩
    · exact hend
    · cases hr'
      obtain ⟨t, ht⟩ := hinv.flushEnds_of_last rfl h.row h.entry rfl hd h.count
      exact ⟨t, ht.after hrun rfl rfl rfl rfl⟩
  | cons e' es ih =>
    rcases h.ends_or_counts hr with hend | ⟨w, out, evs, d, rest, r', hinv, hrun, hd, hr', rfl⟩
    · exact hend
    · obtain ⟨hsent, hM, htot, _⟩ := h.inv.txCounts h.isTx h.entry
      have hcount := h.count
      have hnext : (s.curQueue.entries.take s.txN.toNat).drop (s.txM.toNat + 1) = e' :: es := by
        rw [← List.tail_drop, h.left]; rfl
      have hs := step_txMode_next (s := s.atModeRead w out evs (.ok d :: rest)) rfl h.row h.entry rfl hd
        (show s.txM.toNat + 1 ≠ s.txN.toNat by rw [List.length_cons] at hcount; omega)
        (hinv.entry?_of_drop rfl hnext)
      have hat : State.AtMessage _ m e' es :=
        { inv := stepKeepsTheInvariant _ _ hinv hs, row := h.row, left := hM.symm ▸ hnext
          start := rfl, word := rfl }
      rw [← hsent, ← htot] at hr'
      obtain ⟨t, ht⟩ := ih hat hr'
      exact ⟨t, (ht.after (evs := [((BusOp.read .mode).request m).event (.ok d)]) (run_one hs) rfl rfl
        rfl rfl).after hrun rfl rfl rfl rfl⟩

/-! ### A whole FLUSH -/

/-- An accepted FLUSH with something to send is at the first of the messages it sends (R78). -/
theorem State.Inv.flush_atFirstMessage {s : State} {inst : BitVec 4} {q : WriteQueue} {m : RegMap}
    {burst : Byte} (h : s.Inv) (hf : s.fsm = .idle) (hi : inst.toNat < s.cfg.ni)
    (hq : s.queues[inst.toNat]? = some q) (hm : s.cfg.regmap[inst.toNat]? = some m)
    (hn : flushCount q burst ≠ 0) :
    ∃ e es, q.entry? 0 = some e ∧ q.entries.take (flushCount q burst) = e :: es
      ∧ State.AtMessage { s.flushInit inst (flushCount q burst) with fsm := txStart e.len } m e es := by
  obtain ⟨e, he⟩ := entry?_zero_of_flushCount (h.queues q (List.mem_of_getElem? hq)) hn
  obtain ⟨hfirst, _⟩ := WriteQueue.entry?_some he
  obtain ⟨l, hl⟩ := List.head?_eq_some_iff.1 (List.head?_eq_getElem?.trans hfirst)
  have htake : q.entries.take (flushCount q burst) = e :: l.take (flushCount q burst - 1) := by
    rw [hl, List.take_cons (Nat.pos_of_ne_zero hn)]
  have hN : (BitVec.ofNat 5 (flushCount q burst)).toNat = flushCount q burst :=
    toNat_ofNat_lt (by simp only [flushCount, maxBurst]; omega)
  have hcur : State.curQueue { s.flushInit inst (flushCount q burst) with fsm := txStart e.len } = q :=
    State.curQueue_of hq
  refine ⟨e, l.take (flushCount q burst - 1), he, htake,
    h.exec hf (exec_flush_starts hi hq hn he), hm, ?_, rfl, rfl⟩
  rw [hcur]
  show (q.entries.take (BitVec.ofNat 5 (flushCount q burst)).toNat).drop 0 = _
  rw [hN, List.drop_zero, htake]

/-- Settles O56: a FLUSH of nothing ends at acceptance; any other is run from its first message on. -/
theorem flushRunIsItsAlgorithm : Obligations.FlushRunIsItsAlgorithm := by
  unfold Obligations.FlushRunIsItsAlgorithm
  intro s inst burst q m r h hf hq hm hr
  obtain ⟨_, _, _, hrows⟩ := valid_range h.cfg
  have hi : inst.toNat < s.cfg.ni := hrows ▸ (List.getElem?_eq_some_iff.1 hm).1
  have hloop : flushMessages s.cfg m (q.entries.take (flushCount q burst)) 0 0 s.responses = some r := hr
  by_cases hn : flushCount q burst = 0
  · rw [hn, List.take_zero] at hloop
    cases hloop
    exact ⟨_, _, exec_flush_empty hi hq hn, run_zero _, rfl, rfl, rfl, (List.append_nil _).symm, rfl,
      rfl, rfl, rfl, rfl, ⟨rfl, rfl, rfl, rfl, rfl, rfl, rfl, rfl⟩, rfl, rfl, fun _ => rfl⟩
  · obtain ⟨e, es, he, htake, hat⟩ := h.flush_atFirstMessage hf hi hq hm hn
    rw [htake] at hloop
    obtain ⟨t, ht⟩ := hat.flushEnds hloop
    have hb : t.flushBlanked = s.flushBlanked := ht.blanked
    exact ⟨_, t, exec_flush_starts hi hq hn he, ht.run, ht.idle, ht.result, ht.count, ht.history,
      ht.responses, ht.queues, (congrArg State.callerErr hb :), (congrArg State.port hb :),
      (congrArg State.cfg hb :), sameRx_of_flushBlanked hb, sameOut_of_flushBlanked hb⟩

/-! ### The transactions of a FLUSH -/

theorem messageWrites_transactions (m : RegMap) (e : QEntry) :
    (messageWrites m e).map (fun q => (q.kind, q.addr))
      = List.replicate (nwords e.len.toNat) (BusKind.write, m.txData)
        ++ [(.write, m.txSizeFifo), (.write, m.txStnFifo)] := by
  rw [messageWrites, List.map_append, List.map_map, ← length_txWords e.data e.len.toNat,
    ← List.map_const']
  rfl

/-- The loop of R75 sends at most the messages it was given, and where it sends them all its transactions are
theirs (R86). -/
theorem flushMessages_transactions {c : Config} {m : RegMap} {es : List QEntry} {sent tot : Nat}
    {rs : List Response} {r : FlushEnd} (h : flushMessages c m es sent tot rs = some r) :
    r.count ≤ sent + es.length
      ∧ (r.count = sent + es.length →
          r.events.map (fun e => (e.kind, e.addr)) = es.flatMap fun e =>
            List.replicate (nwords e.len.toNat) (BusKind.write, m.txData)
              ++ [(.write, m.txSizeFifo), (.write, m.txStnFifo), (.read, m.mode)]) := by
  induction es generalizing sent tot rs r with
  | nil => cases h; exact ⟨Nat.le_refl _, fun _ => rfl⟩
  | cons e es ih =>
    have hstop : ∀ k evs rest, (flushStop c k sent evs rest).count < sent + (e :: es).length :=
      fun _ _ _ => Nat.lt_add_of_pos_right (Nat.succ_pos _)
    rcases flushMessages_cons h with ⟨ds, evs, rest, _, rfl⟩ | ⟨ds, evs, rest, _, rfl⟩
      | ⟨ds, evs, d, rest, _, _, rfl⟩ | ⟨ds, evs, d, rest, r', hsend, _, hr', rfl⟩
    · exact ⟨(hstop _ _ _).le, fun hall => absurd hall (hstop _ _ _).ne⟩
    · exact ⟨(hstop _ _ _).le, fun hall => absurd hall (hstop _ _ _).ne⟩
    · exact ⟨(hstop _ _ _).le, fun hall => absurd hall (hstop _ _ _).ne⟩
    · obtain ⟨hle, hsent⟩ := ih hr'
      have hlen : sent + (e :: es).length = sent + 1 + es.length := by
        rw [List.length_cons]; omega
      rw [hlen]
      refine ⟨hle, fun hall => ?_⟩
      rw [List.map_append, sendAll_done hsend, messageWrites_transactions, List.map_cons, hsent hall,
        List.flatMap_cons, List.append_assoc, List.append_assoc]
      rfl

/-- Settles O58: the records are those of the algorithm. -/
theorem successfulFlushTransactions : Obligations.SuccessfulFlushTransactions := by
  unfold Obligations.SuccessfulFlushTransactions
  intro s inst burst q m r msgs h hf hq hm hr
  obtain ⟨s1, t, hs1, hrun, hidle, _, hcount, hhist, _⟩ :=
    flushRunIsItsAlgorithm s inst burst q m r h hf hq hm hr
  obtain ⟨_, hall⟩ := flushMessages_transactions hr
  exact ⟨s1, t, r.events, hs1, hrun, hidle, hhist,
    fun hc => hall (hcount.symm.trans (hc.trans (Nat.zero_add _).symm))⟩

/-- A record of a read that returned a word with bit 4 clear (R87). -/
def Event.clearRead (e : Event) : Bool :=
  match e.kind, e.response with
  | .read, some (.ok d) => !d.getLsbD 4
  | .read, some .fail => false
  | .read, none => false
  | .write, _ => false

theorem clearRead_of_write {e : Event} (h : e.kind = .write) : e.clearRead = false := by
  simp [Event.clearRead, h]

theorem clearReads_of_writes {evs : List Event} (h : ∀ e ∈ evs, e.kind = .write) :
    evs.filter Event.clearRead = [] := by
  rw [List.filter_eq_nil_iff]
  exact fun e he => by simp [clearRead_of_write (h e he)]

theorem clearRead_mode_fail (m : RegMap) :
    (((BusOp.read .mode).request m).event .fail).clearRead = false := rfl

theorem clearRead_mode_ok (m : RegMap) (d : Word) :
    (((BusOp.read .mode).request m).event (.ok d)).clearRead = !txFifoError d := rfl

/-- The loop of R75 counts the mode reads that returned a clear word (R87). -/
theorem flushMessages_count {c : Config} {m : RegMap} {es : List QEntry} {sent tot : Nat}
    {rs : List Response} {r : FlushEnd} (h : flushMessages c m es sent tot rs = some r) :
    r.count = sent + (r.events.filter Event.clearRead).length := by
  induction es generalizing sent tot rs r with
  | nil => cases h; rfl
  | cons e es ih =>
    have hw := messageWrites_write m e
    rcases flushMessages_cons h with ⟨ds, evs, rest, hsend, rfl⟩ | ⟨ds, evs, rest, hsend, rfl⟩
      | ⟨ds, evs, d, rest, hsend, hd, rfl⟩ | ⟨ds, evs, d, rest, r', hsend, hd, hr', rfl⟩
    · simp [flushStop, clearReads_of_writes (sendAll_failed_writes hw hsend)]
    · simp [flushStop, clearReads_of_writes (sendAll_done_writes hw hsend), clearRead_mode_fail]
    · simp [flushStop, clearReads_of_writes (sendAll_done_writes hw hsend), clearRead_mode_ok, hd]
    · have hmode : (((BusOp.read .mode).request m).event (.ok d)).clearRead = true := by
        rw [clearRead_mode_ok, hd]; rfl
      rw [List.filter_append, clearReads_of_writes (sendAll_done_writes hw hsend), List.nil_append,
        List.filter_cons_of_pos hmode, List.length_cons, ih hr', Nat.add_right_comm, Nat.add_assoc]

/-- Settles O59: the records are those of the algorithm. -/
theorem flushCountIsTheClearModeReads : Obligations.FlushCountIsTheClearModeReads := by
  unfold Obligations.FlushCountIsTheClearModeReads
  intro s inst burst q m r h hf hq hm hr
  obtain ⟨s1, t, hs1, hrun, hidle, _, hcount, hhist, _⟩ :=
    flushRunIsItsAlgorithm s inst burst q m r h hf hq hm hr
  have hclear : r.count = (r.events.filter Event.clearRead).length :=
    (flushMessages_count hr).trans (Nat.zero_add _)
  exact ⟨s1, t, r.events, hs1, hrun, hidle, hhist, hcount.trans hclear⟩

end Sys2Proof.Machine

/-! SUPPORT. The receive family (41_receive_deframer.md): RECEIVE's acceptance, the step of each receive state,
where `RXBUF` is written, the undecoded bits of device words, and a RECEIVE's run as the algorithm of R91. -/

namespace Sys2Proof.Machine

open Sys2Proof

/-! ### Acceptance -/

theorem exec_recv_of_served {s : State} {inst : BitVec 4} (maxMsg maxLen : Byte)
    (hi : inst.toNat < s.cfg.ni) (hlen : s.queues.length = s.cfg.ni) :
    exec (.recv inst maxMsg maxLen) s = .next { s with
      curInst := inst, rxCap := BitVec.ofNat 16 (maxMsg.toNat * maxLen.toNat), rxAcc := 0, rxCnt := 0
      rxJ := 0, fsm := .rxMode } :=
  withInstance_resolved _ hi (List.getElem?_eq_getElem (hlen ▸ hi))

/-- The capacity of R94 fits its register: two bytes have a product below 2 to the power 16. -/
theorem rxCap_toNat (maxMsg maxLen : Byte) :
    (BitVec.ofNat 16 (maxMsg.toNat * maxLen.toNat)).toNat = maxMsg.toNat * maxLen.toNat := by
  have hle : maxMsg.toNat * maxLen.toNat ≤ 255 * 255 :=
    Nat.mul_le_mul (Nat.le_of_lt_succ maxMsg.isLt) (Nat.le_of_lt_succ maxLen.isLt)
  exact toNat_ofNat_lt (by omega)

/-- Settles O19: the capacity is exact. -/
theorem recvAcceptStartsThePoll : Obligations.RecvAcceptStartsThePoll := by
  unfold Obligations.RecvAcceptStartsThePoll
  intro s inst maxMsg maxLen hi hlen
  exact ⟨_, rxCap_toNat maxMsg maxLen, exec_recv_of_served maxMsg maxLen hi hlen⟩

/-- Settles O20: by the two ways RECEIVE's acceptance answers. -/
theorem recvAcceptFrame : Obligations.RecvAcceptFrame := by
  unfold Obligations.RecvAcceptFrame
  intro s t inst maxMsg maxLen h
  rcases execRecv_next h with ⟨hni, rfl⟩ | ⟨hi, rfl⟩
  · exact ⟨rfl, ⟨rfl, rfl, rfl, rfl, rfl⟩, ⟨rfl, rfl, fun _ => rfl⟩, ⟨rfl, rfl, rfl⟩, rfl, rfl, rfl, rfl,
      rfl, rfl, fun hi => absurd hi (Nat.not_lt.2 hni),
      fun _ => ⟨⟨rfl, rfl, rfl, rfl, rfl, rfl, rfl, rfl⟩, rfl, rfl⟩⟩
  · exact ⟨rfl, ⟨rfl, rfl, rfl, rfl, rfl⟩, ⟨rfl, rfl, fun _ => rfl⟩, ⟨rfl, rfl, rfl⟩, rfl, rfl, rfl, rfl,
      rfl, rfl, fun _ => ⟨rfl, rfl, rfl⟩, fun hni => absurd hi (Nat.not_lt.2 hni)⟩

/-! ### The step of each receive state -/

/-- The record of a read at register `r` (R38). -/
abbrev readEvent (m : RegMap) (r : RegName) (a : Response) : Event := ((BusOp.read r).request m).event a

/-- The state with the data words `ws` of the running message read and stored, from word `RX_W` on, by the
transactions `evs` (R98). -/
def State.rxWords (s : State) (ws : List Word) (evs : List Event) (rest : List Response) : State :=
  { s with
    rxW := BitVec.ofNat 7 (s.rxW.toNat + ws.length)
    rxBuf := s.rxBuf.writeBytes (s.rxAcc.toNat + 4 * s.rxW.toNat) (unpackFrom s.rxLen.toNat s.rxW.toNat ws)
    outstanding := none, history := s.history ++ evs, responses := rest }

/-- The state after the last data word of a message (R99, R100). -/
def State.rxMessageEnd (s : State) : State :=
  if s.rxJ.toNat + 1 = s.rxAvail.toNat then s.rxRecorded.recvDone
  else { s.rxRecorded with fsm := .rxSize }

theorem rxMessageEnd_last {s : State} (h : s.rxJ.toNat + 1 = s.rxAvail.toNat) :
    s.rxMessageEnd = s.rxRecorded.recvDone :=
  if_pos h

theorem rxMessageEnd_more {s : State} (h : s.rxJ.toNat + 1 ≠ s.rxAvail.toNat) :
    s.rxMessageEnd = { s.rxRecorded with fsm := .rxSize } :=
  if_neg h

/-- One data word stored after its transaction. -/
theorem rxStored_answered (s : State) (q : BusReq) (d : Word) (rest : List Response) :
    s.rxStored (s.answered q (.ok d) rest) d = s.rxWords [d] [q.event (.ok d)] rest := by
  simp only [State.rxStored, State.rxWords, State.answered, unpackFrom, List.append_nil,
    List.length_singleton]

section

variable {s : State} {m : RegMap} {d : Word} {rest : List Response}

/-- A mode word with no message available (R95). -/
theorem step_rxMode_none (hf : s.fsm = .rxMode) (hm : s.cfg.regmap[s.curInst.toNat]? = some m)
    (hr : s.responses = .ok d :: rest) (hd : rxAvailOf d = 0) :
    step s = .next (State.recvDone { s.answered ((BusOp.read .mode).request m) (.ok d) rest with
      rxAvail := 0 }) := by
  rw [step_ok (op := .read .mode) (by simp [hf]) hm (by simp [State.nextOp, hf]) hr]
  simp only [State.onOk, hf, hd, if_true]

/-- A mode word with messages available (R95). -/
theorem step_rxMode_some (hf : s.fsm = .rxMode) (hm : s.cfg.regmap[s.curInst.toNat]? = some m)
    (hr : s.responses = .ok d :: rest) (hd : rxAvailOf d ≠ 0) :
    step s = .next { s.answered ((BusOp.read .mode).request m) (.ok d) rest with
      rxAvail := rxAvailOf d, fsm := .rxSize } := by
  rw [step_ok (op := .read .mode) (by simp [hf]) hm (by simp [State.nextOp, hf]) hr]
  simp only [State.onOk, hf, hd, if_false]

theorem step_rxSize (hf : s.fsm = .rxSize) (hm : s.cfg.regmap[s.curInst.toNat]? = some m)
    (hr : s.responses = .ok d :: rest) :
    step s = .next { s.answered ((BusOp.read .rxSizeFifo).request m) (.ok d) rest with
      rxLen := rxLenOf d, fsm := .rxStn } := by
  rw [step_ok (op := .read .rxSizeFifo) (by simp [hf]) hm (by simp [State.nextOp, hf]) hr]
  simp only [State.onOk, hf]

/-- The station of a message of no bytes (R97). -/
theorem step_rxStn_zero (hf : s.fsm = .rxStn) (hm : s.cfg.regmap[s.curInst.toNat]? = some m)
    (hr : s.responses = .ok d :: rest) (h0 : s.rxLen.toNat = 0) :
    step s = .next (State.abort { s.answered ((BusOp.read .rxStnFifo).request m) (.ok d) rest with
      rxStn := rxStnOf d } .rxPacketSizeZero) := by
  rw [step_ok (op := .read .rxStnFifo) (by simp [hf]) hm (by simp [State.nextOp, hf]) hr]
  simp only [State.onOk, hf, h0, if_true]

/-- The station of a message that does not fit (R97). -/
theorem step_rxStn_overcap (hf : s.fsm = .rxStn) (hm : s.cfg.regmap[s.curInst.toNat]? = some m)
    (hr : s.responses = .ok d :: rest) (h0 : s.rxLen.toNat ≠ 0)
    (hcap : s.rxCap.toNat < s.rxAcc.toNat + s.rxLen.toNat) :
    step s = .next (State.abort { s.answered ((BusOp.read .rxStnFifo).request m) (.ok d) rest with
      rxStn := rxStnOf d } .rxArraySize) := by
  rw [step_ok (op := .read .rxStnFifo) (by simp [hf]) hm (by simp [State.nextOp, hf]) hr]
  simp only [State.onOk, hf, h0, hcap, if_true, if_false]

/-- The station of a message that is taken (R97). -/
theorem step_rxStn_ok (hf : s.fsm = .rxStn) (hm : s.cfg.regmap[s.curInst.toNat]? = some m)
    (hr : s.responses = .ok d :: rest) (h0 : s.rxLen.toNat ≠ 0)
    (hcap : s.rxAcc.toNat + s.rxLen.toNat ≤ s.rxCap.toNat) :
    step s = .next { s.answered ((BusOp.read .rxStnFifo).request m) (.ok d) rest with
      rxStn := rxStnOf d, rxW := 0, fsm := .rxData } := by
  rw [step_ok (op := .read .rxStnFifo) (by simp [hf]) hm (by simp [State.nextOp, hf]) hr]
  simp only [State.onOk, hf, h0, Nat.not_lt.2 hcap, if_false]

/-- A data word (R98, R99). -/
theorem State.Inv.step_rxData (h : s.Inv) (hf : s.fsm = .rxData)
    (hm : s.cfg.regmap[s.curInst.toNat]? = some m) (hr : s.responses = .ok d :: rest) :
    step s = .next (
      if s.rxW.toNat + 1 = nwords s.rxLen.toNat then
        (s.rxWords [d] [readEvent m .rxData (.ok d)] rest).rxMessageEnd
      else s.rxWords [d] [readEvent m .rxData (.ok d)] rest) := by
  rw [step_ok (op := .read .rxData) (by simp [hf]) hm (by simp [State.nextOp, hf]) hr,
    h.onOk_rxData hf d (s.answered ((BusOp.read .rxData).request m) (.ok d) rest) rfl rfl,
    rxStored_answered]
  rfl

end

/-- In `RX_MODE` nothing has been received (R94). -/
theorem State.Inv.rxMode_counts {s : State} (h : s.Inv) (hf : s.fsm = .rxMode) :
    s.rxJ = 0 ∧ s.rxCnt = 0 ∧ s.rxAcc = 0 := by
  have hr := h.rx (by rw [hf]; rfl)
  have hj := hr.start hf
  have hcnt := hr.count
  have hacc := hr.accLen
  rw [hj] at hcnt hacc
  exact ⟨hj, BitVec.eq_of_toNat_eq hcnt, BitVec.eq_of_toNat_eq (Nat.le_zero.1 hacc)⟩

/-- The counts of R99 do not wrap: at most 31 messages of at most 255 bytes (R33). -/
theorem State.Inv.rxRecorded_counts {s : State} (h : s.Inv) (hf : s.fsm = .rxData) :
    (BitVec.ofNat 5 (s.rxJ.toNat + 1)).toNat = s.rxJ.toNat + 1
      ∧ (BitVec.ofNat 8 (s.rxCnt.toNat + 1)).toNat = s.rxJ.toNat + 1
      ∧ (BitVec.ofNat 32 (s.rxAcc.toNat + s.rxLen.toNat)).toNat = s.rxAcc.toNat + s.rxLen.toNat := by
  obtain ⟨_, _, hj, hbuf, _, _⟩ := h.rxData_bounds hf
  rw [(h.rx (by rw [hf]; rfl)).count]
  rw [rxBufBytes] at hbuf
  exact ⟨toNat_ofNat_lt (by omega), toNat_ofNat_lt (by omega), toNat_ofNat_lt (by omega)⟩

theorem rxAvailOf_eq_zero_iff (d : Word) : rxAvailOf d = 0 ↔ d.toNat / 65536 % 32 = 0 := by
  rw [← rxAvailOf_toNat, BitVec.toNat_eq]
  rfl

/-- Settles O28: by the count of the mode word; nothing has been received so far. -/
theorem rxModeStepLatchesTheCount : Obligations.RxModeStepLatchesTheCount := by
  unfold Obligations.RxModeStepLatchesTheCount
  intro s d rest h hf hr
  obtain ⟨m, hm⟩ := h.row
  obtain ⟨_, hcnt, hacc⟩ := h.rxMode_counts hf
  refine ⟨m, hm, fun h0 => ?_, fun h0 => ?_⟩
  · rw [step_rxMode_none hf hm hr ((rxAvailOf_eq_zero_iff d).2 h0), ← hacc, ← hcnt]
    rfl
  · rw [step_rxMode_some hf hm hr (mt (rxAvailOf_eq_zero_iff d).1 h0), rxAvailOf_eq]
    rfl

/-- Settles O29: the step of `RX_SIZE` at the row that the invariant gives. -/
theorem rxSizeStepTakesTheLength : Obligations.RxSizeStepTakesTheLength := by
  unfold Obligations.RxSizeStepTakesTheLength
  intro s d rest h hf hr
  obtain ⟨m, hm⟩ := h.row
  refine ⟨m, hm, ?_⟩
  rw [step_rxSize hf hm hr, rxLenOf_eq]
  rfl

/-- Settles O30: by the two checks in their order. -/
theorem rxStationStepChecksTheHeader : Obligations.RxStationStepChecksTheHeader := by
  unfold Obligations.RxStationStepChecksTheHeader
  intro s d rest h hf hr
  obtain ⟨m, hm⟩ := h.row
  have habort : ∀ k, State.abort { s.answered ((BusOp.read .rxStnFifo).request m) (.ok d) rest with
      rxStn := rxStnOf d } k = _ := abort_rx (by rw [State.answered_fsm, hf]; rfl)
  refine ⟨m, hm, fun h0 => ?_, fun h0 hcap => ?_, fun h0 hcap => ?_⟩
  · rw [step_rxStn_zero hf hm hr h0, habort, rxStnOf_eq]
    rfl
  · rw [step_rxStn_overcap hf hm hr h0 hcap, habort, rxStnOf_eq]
    rfl
  · rw [step_rxStn_ok hf hm hr h0 hcap, rxStnOf_eq]
    rfl

/-- What the message's end leaves as it was (R99, R100). -/
theorem rxMessageEnd_frame (s : State) :
    s.rxMessageEnd.rxW = s.rxW ∧ s.rxMessageEnd.rxBuf = s.rxBuf ∧ s.rxMessageEnd.cfg = s.cfg
      ∧ s.rxMessageEnd.curInst = s.curInst ∧ s.rxMessageEnd.queues = s.queues
      ∧ s.rxMessageEnd.callerErr = s.callerErr ∧ s.rxMessageEnd.port = s.port ∧ s.sameTx s.rxMessageEnd
      ∧ s.rxMessageEnd.rxCap = s.rxCap ∧ s.rxMessageEnd.rxAvail = s.rxAvail
      ∧ s.rxMessageEnd.rxLen = s.rxLen ∧ s.rxMessageEnd.rxStn = s.rxStn := by
  unfold State.rxMessageEnd State.sameTx
  split <;> exact ⟨rfl, rfl, rfl, rfl, rfl, rfl, rfl, ⟨rfl, rfl, rfl, rfl, rfl⟩, rfl, rfl, rfl, rfl⟩

/-- What one byte of `RXBUF` reads as after a data word (R98). -/
theorem State.Inv.read_rxWords_one {s : State} (h : s.Inv) (hf : s.fsm = .rxData) (d : Word) (e : Event)
    (rest : List Response) (a : Nat) :
    (s.rxWords [d] [e] rest).rxBuf.read a =
      if s.rxAcc.toNat + 4 * s.rxW.toNat ≤ a
          ∧ a < s.rxAcc.toNat + min (4 * s.rxW.toNat + 4) s.rxLen.toNat then
        some (byteOf d (a - (s.rxAcc.toNat + 4 * s.rxW.toNat)))
      else s.rxBuf.read a := by
  obtain ⟨hw, _⟩ := h.rxData_bounds hf
  rw [← h.read_rxStored s rfl d a hw]
  simp only [State.rxWords, State.rxStored, unpackFrom, List.append_nil]

/-- Settles O31: by whether the word is the message's last; its end writes neither `RXBUF` nor `RX_W`. -/
theorem rxDataStepStoresTheBytes : Obligations.RxDataStepStoresTheBytes := by
  unfold Obligations.RxDataStepStoresTheBytes
  intro s d rest h hf hr
  obtain ⟨m, hm⟩ := h.row
  obtain ⟨_, hw, _⟩ := h.rxData_bounds hf
  have hW : (BitVec.ofNat 7 (s.rxW.toNat + 1)).toNat = s.rxW.toNat + 1 := toNat_ofNat_lt (by omega)
  have hread := h.read_rxWords_one hf d (readEvent m .rxData (.ok d)) rest
  rw [h.step_rxData hf hm hr]
  split
  · rename_i hlast
    obtain ⟨hrxW, hbuf, hframe⟩ := rxMessageEnd_frame (s.rxWords [d] [readEvent m .rxData (.ok d)] rest)
    exact ⟨_, rfl, hrxW ▸ hW, hbuf ▸ hread, fun hmore => absurd hlast hmore, hframe⟩
  · exact ⟨_, rfl, hW, hread, fun _ => ⟨hf, rfl, rfl, rfl, rfl, rfl, rfl, rfl⟩, rfl, rfl, rfl, rfl, rfl,
      ⟨rfl, rfl, rfl, rfl, rfl⟩, rfl, rfl, rfl, rfl⟩

/-- What the message's end records (R99). -/
theorem rxMessageEnd_recorded (s : State) :
    s.rxMessageEnd.outLen = s.rxRecorded.outLen ∧ s.rxMessageEnd.outStn = s.rxRecorded.outStn
      ∧ s.rxMessageEnd.rxAcc = s.rxRecorded.rxAcc ∧ s.rxMessageEnd.rxCnt = s.rxRecorded.rxCnt
      ∧ s.rxMessageEnd.rxJ = s.rxRecorded.rxJ ∧ s.rxMessageEnd.queues = s.queues := by
  unfold State.rxMessageEnd
  split <;> exact ⟨rfl, rfl, rfl, rfl, rfl, rfl⟩

/-- After a message that is not the last the RECEIVE goes on (R99). -/
theorem rxMessageEnd_running {s : State} (h : s.rxJ.toNat + 1 ≠ s.rxAvail.toNat) :
    s.rxMessageEnd.fsm = .rxSize ∧ s.rxMessageEnd.result = s.result ∧ s.rxMessageEnd.count = s.count := by
  rw [rxMessageEnd_more h]
  exact ⟨rfl, rfl, rfl⟩

/-- After the last message the RECEIVE completes (R100). -/
theorem rxMessageEnd_completed {s : State} (h : s.rxJ.toNat + 1 = s.rxAvail.toNat) :
    s.rxMessageEnd.fsm = .idle ∧ s.rxMessageEnd.result = s.rxMessageEnd.rxAcc := by
  rw [rxMessageEnd_last h]
  exact ⟨rfl, rfl⟩

/-- Settles O32: by what the message's end records, and by whether the message is the last. -/
theorem lastRxDataStepRecordsTheMessage : Obligations.LastRxDataStepRecordsTheMessage := by
  unfold Obligations.LastRxDataStepRecordsTheMessage
  intro s d rest h hf hr hlast
  obtain ⟨m, hm⟩ := h.row
  obtain ⟨hJ, _, hA⟩ := h.rxRecorded_counts hf
  have hs := (h.step_rxData hf hm hr).trans (congrArg _ (if_pos hlast))
  obtain ⟨_, hout, hcount⟩ := h.step_rx (by rw [hf]; rfl) hs
  obtain ⟨hlen, hstn, hacc, _, hidx, hq⟩ :=
    rxMessageEnd_recorded (s.rxWords [d] [readEvent m .rxData (.ok d)] rest)
  have hidxJ := (congrArg BitVec.toNat hidx).trans hJ
  refine ⟨_, hs, fun j hj => ?_, fun j hj => ?_, (congrArg BitVec.toNat hacc).trans hA,
    (hout.count.trans hidxJ).trans ?_, hidxJ, hq, fun hmore => ?_, fun hdone => ?_⟩
  · rw [hlen]
    exact getElem?_setIfInBounds_of_lt _ _ _ _ hj
  · rw [hstn]
    exact getElem?_setIfInBounds_of_lt _ _ _ _ hj
  · rw [(h.rx (by rw [hf]; rfl)).count]
  · exact rxMessageEnd_running fun e => hmore (BitVec.eq_of_toNat_eq (hidxJ.trans e))
  · rw [hdone] at hidxJ
    obtain ⟨hidle, hresult⟩ :=
      rxMessageEnd_completed (s := s.rxWords [d] [readEvent m .rxData (.ok d)] rest) hidxJ.symm
    rw [hcount hidle, hresult, hout.count, hdone]
    exact ⟨hidle, rfl, rfl, hdone ▸ hout.sum⟩

/-! ### Where `RXBUF` is written -/

/-- No acceptance step writes `RXBUF`. -/
theorem exec_rxBuf {s t : State} {i : Instr} (h : exec i s = .next t) : t.rxBuf = s.rxBuf := by
  cases i with
  | enq inst len stn payload =>
    rcases execEnq_next h with ⟨_, rfl⟩ | ⟨_, _, _, _, rfl⟩ | ⟨_, _, _, _, rfl⟩ <;> rfl
  | flush inst burst =>
    rcases execFlush_next h with ⟨_, rfl⟩ | ⟨_, _, _, ⟨_, rfl⟩ | ⟨_, _, _, rfl⟩⟩ <;> rfl
  | recv inst maxMsg maxLen => rcases execRecv_next h with ⟨_, rfl⟩ | ⟨_, rfl⟩ <;> rfl

theorem step_idle_rxBuf {s t : State} (hf : s.fsm = .idle) (h : step s = .next t) :
    t.rxBuf = s.rxBuf := by
  rcases step_idle_next hf h with ⟨_, rfl⟩ | ⟨_, _, _, rfl⟩ | ⟨_, rest, _, he⟩
  · rfl
  · rfl
  · exact exec_rxBuf (s := s.take rest) he

/-- Only a data word writes `RXBUF` (R98). -/
theorem onOk_rxBuf {s s1 t : State} {d : Word} (hf : s.fsm ≠ .rxData) (h : s.onOk d s1 = .next t) :
    t.rxBuf = s1.rxBuf := by
  unfold State.onOk at h
  cases hs : s.fsm <;> simp only [hs] at h
  case rxData => exact absurd hs hf
  case txData => split at h <;> cases h; rfl
  case txMode =>
    split at h
    · cases h
    · split at h
      · cases h; exact State.abort_rxBuf _ _
      · rcases txAdvance_next h with ⟨_, rfl⟩ | ⟨_, e, _, rfl⟩ <;> rfl
  case rxMode => split at h <;> cases h <;> rfl
  case rxStn =>
    split at h
    · cases h; exact State.abort_rxBuf _ _
    · split at h <;> cases h
      · exact State.abort_rxBuf _ _
      · rfl
  all_goals cases h; rfl

/-- A step that changes `RXBUF` is an answered data word (R98). -/
theorem State.Inv.step_rxBuf {s t : State} (h : s.Inv) (hs : step s = .next t) :
    t.rxBuf = s.rxBuf ∨ s.fsm = .rxData ∧ ∃ d e rest, t.rxBuf = (s.rxWords [d] [e] rest).rxBuf := by
  by_cases hidle : s.fsm = .idle
  · exact .inl (step_idle_rxBuf hidle hs)
  · obtain ⟨m, op, hm, _, ⟨_, rfl⟩ | ⟨_, _, rfl⟩ | ⟨d, rest, hr, ho⟩⟩ := step_busy_next hidle hs
    · exact .inl rfl
    · exact .inl (State.abort_rxBuf _ _)
    · by_cases hf : s.fsm = .rxData
      · rw [h.step_rxData hf hm hr] at hs
        refine .inr ⟨hf, d, readEvent m .rxData (.ok d), rest, ?_⟩
        cases hs
        split
        · obtain ⟨_, hbuf, _⟩ := rxMessageEnd_frame (s.rxWords [d] [readEvent m .rxData (.ok d)] rest)
          exact hbuf
        · rfl
      · exact .inl (onOk_rxBuf (s1 := s.answered (op.request m) (.ok d) rest) hf ho)

/-- Settles O51: a byte that changes is one of the data word that the step stores. -/
theorem rxWritesStayBelowTheCapacity : Obligations.RxWritesStayBelowTheCapacity := by
  unfold Obligations.RxWritesStayBelowTheCapacity
  intro s h
  refine ⟨fun hx => ?_, fun t a hs hne => ?_⟩
  · have hr := h.rx hx
    have hacc := hr.accLen
    have hj := s.rxJ.isLt
    rw [maxMsgLen] at hacc
    exact ⟨hr.accCap, by omega⟩
  · rcases h.step_rxBuf hs with hbuf | ⟨hf, d, e, rest, hbuf⟩
    · exact absurd (by rw [hbuf]) hne
    · obtain ⟨_, _, _, hroom, hcap, _⟩ := h.rxData_bounds hf
      rw [rxBufBytes] at hroom
      have hin : s.rxAcc.toNat + 4 * s.rxW.toNat ≤ a
          ∧ a < s.rxAcc.toNat + min (4 * s.rxW.toNat + 4) s.rxLen.toNat := by
        by_contra hout
        exact hne (by rw [hbuf, h.read_rxWords_one hf, if_neg hout])
      exact ⟨hf, by omega, by omega, hcap, by omega⟩

/-! ### The undecoded bits of device words -/

/-- An outcome whose next state has another history. -/
def withHistory (hist : List Event) : StepResult → StepResult
  | .next t => .next { t with history := hist }
  | .fault r => .fault r
  | .refused r => .refused r

theorem abort_withHistory (s : State) (hist : List Event) (k : ErrorKind) :
    State.abort { s with history := hist } k = { s.abort k with history := hist } := by
  unfold State.abort
  split <;> rfl

theorem txAdvance_withHistory (s : State) (hist : List Event) :
    State.txAdvance { s with history := hist } = withHistory hist s.txAdvance := by
  unfold State.txAdvance
  dsimp only
  split
  · rfl
  · have hcur : State.curQueue { s with history := hist } = s.curQueue := rfl
    rw [hcur]
    split <;> rfl

theorem rxRecord_withHistory (s : State) (hist : List Event) :
    State.rxRecord { s with history := hist } = withHistory hist s.rxRecord := by
  rw [rxRecord_eq, rxRecord_eq]
  split
  · split <;> rfl
  · rfl

/-- What follows an answer does not look at the history. -/
theorem onOk_withHistory (s s1 : State) (d : Word) (hist : List Event) :
    s.onOk d { s1 with history := hist } = withHistory hist (s.onOk d s1) := by
  unfold State.onOk
  cases s.fsm with
  | idle | txSize | txStn | rxSize => rfl
  | txData => dsimp only; split <;> rfl
  | txMode =>
    dsimp only
    split
    · rfl
    · rename_i e _
      split
      · exact congrArg _ (abort_withHistory s1 hist _)
      · exact txAdvance_withHistory { s1 with
          txSent := BitVec.ofNat 8 (s1.txSent.toNat + 1)
          txTot := BitVec.ofNat 32 (s1.txTot.toNat + e.len.toNat) } hist
  | rxMode => dsimp only; split <;> rfl
  | rxStn =>
    dsimp only
    split
    · exact congrArg _ (abort_withHistory { s1 with rxStn := rxStnOf d } hist _)
    · split
      · exact congrArg _ (abort_withHistory { s1 with rxStn := rxStnOf d } hist _)
      · rfl
  | rxData =>
    dsimp only
    split
    · rfl
    · split
      · exact rxRecord_withHistory (s.rxStored s1 d) hist
      · rfl

theorem unpackWord_congr {d d' : Word} {len w : Nat}
    (h : ∀ k, k < 4 → 4 * w + k < len → byteOf d k = byteOf d' k) :
    unpackWord d len w = unpackWord d' len w := by
  refine List.map_congr_left fun k hk => ?_
  have hlt := List.mem_range.1 hk
  exact h k (by omega) (by omega)

/-- What follows an answer looks at the decoded fields only (R107, R117). -/
theorem onOk_congr {s : State} {d d' : Word} (s1 : State)
    (hmode : s.fsm = .txMode → d.getLsbD 4 = d'.getLsbD 4)
    (havail : s.fsm = .rxMode → rxAvailOf d = rxAvailOf d')
    (hlen : s.fsm = .rxSize → rxLenOf d = rxLenOf d')
    (hstn : s.fsm = .rxStn → rxStnOf d = rxStnOf d')
    (hdata : s.fsm = .rxData →
      unpackWord d s.rxLen.toNat s.rxW.toNat = unpackWord d' s.rxLen.toNat s.rxW.toNat) :
    s.onOk d s1 = s.onOk d' s1 := by
  unfold State.onOk
  cases hf : s.fsm with
  | idle | txData | txSize | txStn => rfl
  | txMode =>
    have hbit : txFifoError d = txFifoError d' := hmode hf
    simp only [hbit]
  | rxMode => simp only [havail hf]
  | rxSize => simp only [hlen hf]
  | rxStn => simp only [hstn hf]
  | rxData => simp only [hdata hf]

/-- Settles O52: what follows the two answers is the same but for the history. -/
theorem undecodedBitsHaveNoEffect : Obligations.UndecodedBitsHaveNoEffect := by
  unfold Obligations.UndecodedBitsHaveNoEffect
  intro s t d d' rest hr hf hmode havail hlen hstn hdata hs
  obtain ⟨m, op, hm, hop, ⟨hnone, _⟩ | ⟨_, hfail, _⟩ | ⟨_, _, hok, ho⟩⟩ := step_busy_next hf hs
  · cases hr.symm.trans hnone
  · cases hr.symm.trans hfail
  · cases hr.symm.trans hok
    refine ⟨s.history ++ [(op.request m).event (.ok d')], ?_⟩
    rw [step_ok (s := { s with responses := .ok d' :: rest }) hf hm hop rfl]
    rw [onOk_congr (d' := d') (s.answered (op.request m) (.ok d) rest) hmode
      (fun e => BitVec.eq_of_toNat_eq (by rw [rxAvailOf_toNat, rxAvailOf_toNat, havail e]))
      (fun e => BitVec.eq_of_toNat_eq (by rw [rxLenOf_toNat, rxLenOf_toNat, hlen e]))
      (fun e => BitVec.eq_of_toNat_eq (by rw [rxStnOf_toNat, rxStnOf_toNat, hstn e]))
      (fun e => unpackWord_congr (hdata e))] at ho
    exact (onOk_withHistory s (s.answered (op.request m) (.ok d) rest) d' _).trans
      (congrArg (withHistory _) ho)

/-! ### The algorithm of R91, one message at a time -/

/-- What a RECEIVE that stops with an error after `j` messages comes to (R91, R101). -/
def recvStop (c : Config) (k : ErrorKind) (j : Nat) (out : RxOut) (evs : List Event)
    (rest : List Response) : RecvEnd :=
  { result := i32 (resultCode c k), count := j, events := evs, rest := rest, out := out }

/-- The output with the bytes of `ws` stored as those of a message of `len` bytes that starts at `acc`. -/
def RxOut.store (out : RxOut) (acc : Nat) (len : Byte) (ws : List Word) : RxOut :=
  { out with rxBuf := out.rxBuf.writeBytes acc (unpackFrom len.toNat 0 ws) }

/-- The output with message `j` recorded (R99). -/
def RxOut.record (out : RxOut) (j : Nat) (len : Byte) (stn : Station) : RxOut :=
  { out with
    outLen := out.outLen.setIfInBounds j (some len)
    outStn := out.outStn.setIfInBounds j (some stn) }

/-- The two reads of a message's header, answered by `d` and `e` (R96, R97). -/
def headerEvents (m : RegMap) (d e : Word) : List Event :=
  [readEvent m .rxSizeFifo (.ok d), readEvent m .rxStnFifo (.ok e)]

/-- The reads of the data words of a message of `len` bytes (R98). -/
def dataReads (m : RegMap) (len : Byte) : List BusReq :=
  List.replicate (nwords len.toNat) ((BusOp.read .rxData).request m)

/-- The ways in which the loop of R91 goes on at message `j`, with `n` messages after it: by the answers `rs`,
it comes to `r`. -/
inductive RecvMessage (c : Config) (m : RegMap) (cap n j acc : Nat) (out : RxOut) :
    List Response → RecvEnd → Prop where
  /-- The size read fails. -/
  | noSize (rest) : RecvMessage c m cap n j acc out (.fail :: rest)
      (recvStop c .registerIO j out [readEvent m .rxSizeFifo .fail] rest)
  /-- The station read fails. -/
  | noStation (d rest) : RecvMessage c m cap n j acc out (.ok d :: .fail :: rest)
      (recvStop c .registerIO j out
        [readEvent m .rxSizeFifo (.ok d), readEvent m .rxStnFifo .fail] rest)
  /-- The length is 0. -/
  | zero (d e rest) (h0 : (rxLenOf d).toNat = 0) :
      RecvMessage c m cap n j acc out (.ok d :: .ok e :: rest)
        (recvStop c .rxPacketSizeZero j out (headerEvents m d e) rest)
  /-- The message does not fit. -/
  | overcap (d e rest) (h0 : (rxLenOf d).toNat ≠ 0) (hcap : cap < acc + (rxLenOf d).toNat) :
      RecvMessage c m cap n j acc out (.ok d :: .ok e :: rest)
        (recvStop c .rxArraySize j out (headerEvents m d e) rest)
  /-- A data read fails. -/
  | noData (d e rs ws evs rest) (h0 : (rxLenOf d).toNat ≠ 0) (hcap : acc + (rxLenOf d).toNat ≤ cap)
      (hdata : sendAll (dataReads m (rxLenOf d)) rs = .failed ws evs rest) :
      RecvMessage c m cap n j acc out (.ok d :: .ok e :: rs)
        (recvStop c .registerIO j (out.store acc (rxLenOf d) ws) (headerEvents m d e ++ evs) rest)
  /-- The message is recorded and the loop goes on. -/
  | recorded (d e rs ws evs rest r) (h0 : (rxLenOf d).toNat ≠ 0)
      (hcap : acc + (rxLenOf d).toNat ≤ cap)
      (hdata : sendAll (dataReads m (rxLenOf d)) rs = .done ws evs rest)
      (hloop : recvMessages c m cap n (j + 1) (acc + (rxLenOf d).toNat)
        ((out.store acc (rxLenOf d) ws).record j (rxLenOf d) (rxStnOf e)) rest = some r) :
      RecvMessage c m cap n j acc out (.ok d :: .ok e :: rs)
        { r with events := headerEvents m d e ++ evs ++ r.events }

theorem recvMessages_succ {c : Config} {m : RegMap} {cap n j acc : Nat} {out : RxOut}
    {rs : List Response} {r : RecvEnd} (h : recvMessages c m cap (n + 1) j acc out rs = some r) :
    RecvMessage c m cap n j acc out rs r := by
  match rs with
  | [] => cases h
  | .fail :: rest => cases h; exact .noSize rest
  | [.ok d] => cases h
  | .ok d :: .fail :: rest => cases h; exact .noStation d rest
  | .ok d :: .ok e :: rs =>
    simp only [recvMessages, sendAll, List.getD_cons_zero, List.getD_cons_succ] at h
    split at h
    · rename_i h0
      cases h
      exact .zero d e rs h0
    · rename_i h0
      split at h
      · rename_i hcap
        cases h
        exact .overcap d e rs h0 hcap
      · rename_i hcap
        split at h
        · cases h
        · rename_i ws evs rest hdata
          cases h
          exact .noData d e rs ws evs rest h0 (Nat.le_of_not_lt hcap) hdata
        · rename_i ws evs rest hdata
          rw [BitVec.ofNat_toNat, BitVec.setWidth_eq] at h
          split at h
          · cases h
          · rename_i r' hloop
            cases h
            exact .recorded d e rs ws evs rest r' h0 (Nat.le_of_not_lt hcap) hdata hloop

theorem sendAll_done_cons {q : BusReq} {qs : List BusReq} {rs rest : List Response} {ds : List Word}
    {evs : List Event} (h : sendAll qs rs = .done ds evs rest) (d : Word) :
    sendAll (q :: qs) (.ok d :: rs) = .done (d :: ds) (q.event (.ok d) :: evs) rest := by
  simp only [sendAll, h]

theorem sendAll_failed_cons {q : BusReq} {qs : List BusReq} {rs rest : List Response} {ds : List Word}
    {evs : List Event} (h : sendAll qs rs = .failed ds evs rest) (d : Word) :
    sendAll (q :: qs) (.ok d :: rs) = .failed (d :: ds) (q.event (.ok d) :: evs) rest := by
  simp only [sendAll, h]

/-! ### A RECEIVE that has ended -/

/-- The state with everything blanked that a RECEIVE writes: what is left, a RECEIVE never changes. -/
def State.recvBlanked (s : State) : State :=
  { s with
    fsm := .idle, curInst := 0, result := 0, count := 0
    rxCap := 0, rxAvail := 0, rxJ := 0, rxLen := 0, rxStn := 0, rxW := 0, rxAcc := 0, rxCnt := 0
    outLen := Vector.replicate 31 none, outStn := Vector.replicate 31 none, rxBuf := []
    responses := [], outstanding := none, history := [] }

theorem sameTx_of_recvBlanked {s t : State} (h : t.recvBlanked = s.recvBlanked) : s.sameTx t :=
  ⟨(congrArg State.txN h :), (congrArg State.txM h :), (congrArg State.txW h :),
    (congrArg State.txSent h :), (congrArg State.txTot h :)⟩

/-- The RECEIVE that runs in `s` ends in `t`, one step a transaction, with the outcome `r`. -/
structure State.RecvEnds (s t : State) (r : RecvEnd) : Prop where
  run : Host.Core.run core r.events.length s = .next t
  idle : t.fsm = .idle
  result : t.result = r.result
  count : t.count.toNat = r.count
  history : t.history = s.history ++ r.events
  responses : t.responses = r.rest
  out : t.rxOut = r.out
  blanked : t.recvBlanked = s.recvBlanked

/-- The transactions before those of `v` come first in the outcome. -/
theorem State.RecvEnds.after {s v t : State} {evs : List Event} {r : RecvEnd} (h : v.RecvEnds t r)
    (hrun : Host.Core.run core evs.length s = .next v) (hhist : v.history = s.history ++ evs)
    (hb : v.recvBlanked = s.recvBlanked) : s.RecvEnds t { r with events := evs ++ r.events } where
  run := by rw [List.length_append, run_add hrun]; exact h.run
  idle := h.idle
  result := h.result
  count := h.count
  history := by rw [h.history, hhist, List.append_assoc]
  responses := h.responses
  out := h.out
  blanked := h.blanked.trans hb

/-- An abort ends a RECEIVE (R101, R126); `stn` is what `RX_STN` then holds. -/
theorem State.Inv.recvEnds_of_abort {s : State} {stn : Station} {q : BusReq} {a : Response}
    {rest : List Response} {k : ErrorKind} (h : s.Inv) (hx : s.fsm.isRx = true)
    (hs : step s = .next (State.abort { s.answered q a rest with rxStn := stn } k)) :
    ∃ t, s.RecvEnds t (recvStop s.cfg k s.rxJ.toNat s.rxOut [q.event a] rest) := by
  rw [abort_rx (s := { s.answered q a rest with rxStn := stn }) (Fsm.isTx_eq_false_of_isRx hx)] at hs
  exact ⟨_, run_one hs, rfl, rfl, (h.rx hx).count, rfl, rfl, rfl, rfl⟩

/-- A RECEIVE that has completed (R100). -/
theorem recvEnds_of_recvDone {s : State} {n : Nat} (hn : s.rxCnt.toNat = n) :
    s.recvDone.RecvEnds s.recvDone
      { result := s.rxAcc, count := n, events := [], rest := s.responses, out := s.rxOut } :=
  ⟨run_zero _, rfl, rfl, hn, (List.append_nil _).symm, rfl, rfl, rfl⟩

/-! ### The data words of one message -/

theorem State.Inv.run {s t : State} (h : s.Inv) {k : Nat} (hrun : Host.Core.run core k s = .next t) :
    t.Inv := by
  induction k generalizing s with
  | zero => cases hrun; exact h
  | succ k ih =>
    obtain ⟨v, hs⟩ := invariantStatesNeverStop s h
    rw [run_succ hs] at hrun
    exact ih (stepKeepsTheInvariant s v h hs) hrun

section

variable {m : RegMap} {k : Nat} {s : State} {ws : List Word} {evs : List Event} {rest : List Response}

/-- A data word that is stored is no longer due. -/
theorem State.Inv.rxWords_left (h : s.Inv) (hf : s.fsm = .rxData)
    (hleft : s.rxW.toNat + (k + 1) = nwords s.rxLen.toNat) (d : Word) :
    (s.rxWords [d] evs rest).rxW.toNat + k = nwords (s.rxWords [d] evs rest).rxLen.toNat := by
  obtain ⟨_, hw, _⟩ := h.rxData_bounds hf
  have hW : (BitVec.ofNat 7 (s.rxW.toNat + 1)).toNat = s.rxW.toNat + 1 := toNat_ofNat_lt (by omega)
  show (BitVec.ofNat 7 (s.rxW.toNat + 1)).toNat + k = nwords s.rxLen.toNat
  omega

/-- The words after one that is not the last are stored behind it (R92, R98). -/
theorem rxWords_rxWords {d : Word} {e : Event} (rs : List Response)
    (hw : s.rxW.toNat + 1 < nwords s.rxLen.toNat) :
    (s.rxWords [d] [e] rs).rxWords ws evs rest = s.rxWords (d :: ws) (e :: evs) rest := by
  have hcover := nwords_bounds s.rxLen.toNat
  have h64 := nwords_le_64 s.rxLen
  have hW : (BitVec.ofNat 7 (s.rxW.toNat + 1)).toNat = s.rxW.toNat + 1 := toNat_ofNat_lt (by omega)
  have hfull : (unpackWord d s.rxLen.toNat s.rxW.toNat).length = 4 := by
    rw [length_unpackWord]; omega
  simp only [State.rxWords, List.length_cons, List.length_nil, Nat.zero_add, hW, unpackFrom,
    List.append_nil, Memory.writeBytes_append, hfull, List.append_assoc, List.singleton_append]
  congr 2
  omega

/-- Data words that are all answered `Ok` lead to the end of the message. -/
theorem State.Inv.run_dataWords (h : s.Inv) (hf : s.fsm = .rxData)
    (hm : s.cfg.regmap[s.curInst.toNat]? = some m)
    (hleft : s.rxW.toNat + (k + 1) = nwords s.rxLen.toNat)
    (hsend : sendAll (List.replicate (k + 1) ((BusOp.read .rxData).request m)) s.responses
      = .done ws evs rest) :
    Host.Core.run core evs.length s = .next (s.rxWords ws evs rest).rxMessageEnd := by
  induction k generalizing s ws evs with
  | zero =>
    obtain ⟨d, rs, ds, evs', hrs, hrest, rfl⟩ := sendAll_cons_done hsend
    cases hrest
    rw [hrs] at hsend
    cases hsend
    exact run_one ((h.step_rxData hf hm hrs).trans (congrArg _ (if_pos hleft)))
  | succ k ih =>
    obtain ⟨d, rs, ds, evs', hrs, hrest, rfl⟩ := sendAll_cons_done hsend
    rw [hrs] at hsend
    cases (sendAll_done_cons hrest d).symm.trans hsend
    have hs := (h.step_rxData hf hm hrs).trans (congrArg _ (if_neg (by omega)))
    have hrun := ih (stepKeepsTheInvariant _ _ h hs) hf hm (h.rxWords_left hf hleft d) hrest
    rw [rxWords_rxWords _ (by omega)] at hrun
    exact (run_succ hs _).trans hrun

/-- A data read that fails ends the RECEIVE with the words before it stored (R51, R101). -/
theorem State.Inv.recvEnds_of_dataFailed (h : s.Inv) (hf : s.fsm = .rxData)
    (hm : s.cfg.regmap[s.curInst.toNat]? = some m) (hleft : s.rxW.toNat + k = nwords s.rxLen.toNat)
    (hsend : sendAll (List.replicate k ((BusOp.read .rxData).request m)) s.responses
      = .failed ws evs rest) :
    ∃ t, s.RecvEnds t
      (recvStop s.cfg .registerIO s.rxJ.toNat (s.rxWords ws evs rest).rxOut evs rest) := by
  induction k generalizing s ws evs with
  | zero => cases hsend
  | succ k ih =>
    rcases sendAll_cons_failed hsend with ⟨hrs, rfl⟩ | ⟨d, rs, ds, evs', hrs, hrest, rfl⟩
    · rw [hrs] at hsend
      cases hsend
      have hop : s.nextOp = some (.read .rxData) := by rw [State.nextOp, hf]
      have hout : (s.rxWords [] [readEvent m .rxData .fail] rest).rxOut = s.rxOut := by
        simp only [State.rxOut, State.rxWords, unpackFrom, Memory.writeBytes_nil]
      rw [hout]
      exact h.recvEnds_of_abort (stn := s.rxStn) (by rw [hf]; rfl)
        (step_fail (by rw [hf]; nofun) hm hop hrs)
    · rw [hrs] at hsend
      cases (sendAll_failed_cons hrest d).symm.trans hsend
      have hk : 0 < k := Nat.pos_of_ne_zero (by rintro rfl; cases hrest)
      have hs := (h.step_rxData hf hm hrs).trans (congrArg _ (if_neg (by omega)))
      obtain ⟨t, ht⟩ := ih (stepKeepsTheInvariant _ _ h hs) hf hm (h.rxWords_left hf hleft d) hrest
      rw [rxWords_rxWords _ (by omega)] at ht
      exact ⟨t, ht.after (evs := [readEvent m .rxData (.ok d)]) (run_one hs) rfl rfl⟩

end

/-! ### The messages of a RECEIVE -/

/-- The RECEIVE of `s` is at the start of a message, with `n` to receive after it (R95, R99). -/
structure State.AtHeader (s : State) (m : RegMap) (n : Nat) : Prop where
  inv : s.Inv
  row : s.cfg.regmap[s.curInst.toNat]? = some m
  start : s.fsm = .rxSize
  left : s.rxJ.toNat + (n + 1) = s.rxAvail.toNat

/-- The state in which the size of a message has been read (R96). -/
def State.sizeRead (s : State) (m : RegMap) (d : Word) (rest : List Response) : State :=
  { s.answered ((BusOp.read .rxSizeFifo).request m) (.ok d) rest with rxLen := rxLenOf d, fsm := .rxStn }

/-- The state in which the header of a message has been read and taken (R97). -/
def State.headerRead (s : State) (m : RegMap) (d e : Word) (rest : List Response) : State :=
  { s with
    rxLen := rxLenOf d, rxStn := rxStnOf e, rxW := 0, fsm := .rxData
    outstanding := none, history := s.history ++ headerEvents m d e, responses := rest }

section

variable {s : State} {m : RegMap} {n : Nat} {d e : Word} {rs rest : List Response}

theorem State.AtHeader.step_size (h : s.AtHeader m n) (hr : s.responses = .ok d :: rs) :
    step s = .next (s.sizeRead m d rs) :=
  step_rxSize h.start h.row hr

theorem State.AtHeader.run_header (h : s.AtHeader m n) (hr : s.responses = .ok d :: .ok e :: rs)
    (h0 : (rxLenOf d).toNat ≠ 0) (hcap : s.rxAcc.toNat + (rxLenOf d).toNat ≤ s.rxCap.toNat) :
    Host.Core.run core (headerEvents m d e).length s = .next (s.headerRead m d e rs) := by
  have hstn := step_rxStn_ok (s := s.sizeRead m d (.ok e :: rs)) rfl h.row rfl h0 hcap
  refine (run_succ (h.step_size hr) 1).trans ((run_one hstn).trans ?_)
  simp [State.sizeRead, State.headerRead, State.answered, headerEvents]

/-- An abort at the station read ends the RECEIVE (R97, R101). -/
theorem State.AtHeader.recvEnds_of_stn {stn : Station} {a : Response} {k : ErrorKind}
    (h : s.AtHeader m n) (hr : s.responses = .ok d :: rs)
    (hs : step (s.sizeRead m d rs) = .next (State.abort
      { (s.sizeRead m d rs).answered ((BusOp.read .rxStnFifo).request m) a rest with rxStn := stn } k)) :
    ∃ t, s.RecvEnds t (recvStop s.cfg k s.rxJ.toNat s.rxOut
      [readEvent m .rxSizeFifo (.ok d), readEvent m .rxStnFifo a] rest) := by
  have hsize := h.step_size hr
  obtain ⟨t, ht⟩ := (stepKeepsTheInvariant _ _ h.inv hsize).recvEnds_of_abort rfl hs
  exact ⟨t, ht.after (evs := [readEvent m .rxSizeFifo (.ok d)]) (run_one hsize) rfl rfl⟩

end

/-- From the start of a message the RECEIVE either ends within it or comes to its end, from which the loop of
R91 goes on (R99). -/
theorem State.AtHeader.ends_or_records {m : RegMap} {n : Nat} {s : State} {r : RecvEnd}
    (h : s.AtHeader m n)
    (hr : recvMessages s.cfg m s.rxCap.toNat (n + 1) s.rxJ.toNat s.rxAcc.toNat s.rxOut s.responses
      = some r) :
    (∃ t, s.RecvEnds t r)
      ∨ ∃ d e rs ws evs rest r', (s.headerRead m d e rs).Inv
        ∧ Host.Core.run core (headerEvents m d e ++ evs).length s
            = .next ((s.headerRead m d e rs).rxWords ws evs rest).rxMessageEnd
        ∧ recvMessages s.cfg m s.rxCap.toNat n (s.rxJ.toNat + 1) (s.rxAcc.toNat + (rxLenOf d).toNat)
            ((s.headerRead m d e rs).rxWords ws evs rest).rxRecorded.rxOut rest = some r'
        ∧ r = { r' with events := headerEvents m d e ++ evs ++ r'.events } := by
  have hop : s.nextOp = some (.read .rxSizeFifo) := by rw [State.nextOp, h.start]
  have hx : s.fsm.isRx = true := by rw [h.start]; rfl
  have hmsg := recvMessages_succ hr
  generalize hrs : s.responses = rs at hmsg
  cases hmsg with
  | noSize rest =>
    exact .inl (h.inv.recvEnds_of_abort (stn := s.rxStn) hx
      (step_fail (Fsm.ne_idle_of_isRx hx) h.row hop hrs))
  | noStation d rest =>
    exact .inl (h.recvEnds_of_stn (stn := s.rxStn) hrs
      (step_fail (s := s.sizeRead m d (.fail :: rest)) nofun h.row rfl rfl))
  | zero d e rest h0 => exact .inl (h.recvEnds_of_stn hrs (step_rxStn_zero rfl h.row rfl h0))
  | overcap d e rest h0 hcap =>
    exact .inl (h.recvEnds_of_stn hrs (step_rxStn_overcap rfl h.row rfl h0 hcap))
  | noData d e rs ws evs rest h0 hcap hdata =>
    have hrun := h.run_header hrs h0 hcap
    obtain ⟨t, ht⟩ := (h.inv.run hrun).recvEnds_of_dataFailed rfl h.row (Nat.zero_add _) hdata
    exact .inl ⟨t, ht.after hrun rfl rfl⟩
  | recorded d e rs ws evs rest r' h0 hcap hdata hloop =>
    have hrun := h.run_header hrs h0 hcap
    have hinv := h.inv.run hrun
    obtain ⟨k, hk⟩ := Nat.exists_eq_succ_of_ne_zero (nwords_pos.2 (Nat.pos_of_ne_zero h0)).ne'
    rw [dataReads, hk] at hdata
    have hend := hinv.run_dataWords rfl h.row ((Nat.zero_add _).trans hk.symm) hdata
    refine .inr ⟨d, e, rs, ws, evs, rest, r', hinv, ?_, hloop, rfl⟩
    rw [List.length_append, run_add hrun, hend]

/-- The loop of R91 from a message on is what the steps from there on do: by the messages left. -/
theorem State.AtHeader.recvEnds {m : RegMap} {n : Nat} {s : State} {r : RecvEnd} (h : s.AtHeader m n)
    (hr : recvMessages s.cfg m s.rxCap.toNat (n + 1) s.rxJ.toNat s.rxAcc.toNat s.rxOut s.responses
      = some r) : ∃ t, s.RecvEnds t r := by
  induction n generalizing s r with
  | zero =>
    rcases h.ends_or_records hr with hend | ⟨d, e, rs, ws, evs, rest, r', hinv, hrun, hloop, rfl⟩
    · exact hend
    · cases hloop
      obtain ⟨_, hcount, _⟩ := hinv.rxRecorded_counts rfl
      rw [rxMessageEnd_last (s := (s.headerRead m d e rs).rxWords ws evs rest) h.left] at hrun
      have hdone :=
        recvEnds_of_recvDone (s := ((s.headerRead m d e rs).rxWords ws evs rest).rxRecorded) hcount
      exact ⟨_, hdone.after hrun (List.append_assoc _ _ _) rfl⟩
  | succ n ih =>
    rcases h.ends_or_records hr with hend | ⟨d, e, rs, ws, evs, rest, r', hinv, hrun, hloop, rfl⟩
    · exact hend
    · obtain ⟨hJ, _, hA⟩ : (BitVec.ofNat 5 (s.rxJ.toNat + 1)).toNat = s.rxJ.toNat + 1 ∧ _
          ∧ (BitVec.ofNat 32 (s.rxAcc.toNat + (rxLenOf d).toNat)).toNat
            = s.rxAcc.toNat + (rxLenOf d).toNat := hinv.rxRecorded_counts rfl
      have hleft := h.left
      rw [rxMessageEnd_more (s := (s.headerRead m d e rs).rxWords ws evs rest)
        (show s.rxJ.toNat + 1 ≠ s.rxAvail.toNat by omega)] at hrun
      have hleft' : (BitVec.ofNat 5 (s.rxJ.toNat + 1)).toNat + (n + 1) = s.rxAvail.toNat := by omega
      have hat : State.AtHeader _ m n :=
        { inv := h.inv.run hrun, row := h.row, start := rfl, left := hleft' }
      rw [← hJ, ← hA] at hloop
      obtain ⟨t, ht⟩ := ih hat hloop
      exact ⟨t, ht.after hrun (List.append_assoc _ _ _) rfl⟩

/-! ### A whole RECEIVE -/

/-- The two ways in which the algorithm of R91 goes on from the mode read. -/
theorem recvAlgorithm_some {c : Config} {m : RegMap} {maxMsg maxLen : Byte} {out : RxOut}
    {rs : List Response} {r : RecvEnd} (h : recvAlgorithm c m maxMsg maxLen out rs = some r) :
    (∃ rest, rs = .fail :: rest ∧ r = recvStop c .registerIO 0 out [readEvent m .mode .fail] rest)
      ∨ ∃ d rest r', rs = .ok d :: rest
        ∧ recvMessages c m (maxMsg.toNat * maxLen.toNat) (rxAvailOf d).toNat 0 0 out rest = some r'
        ∧ r = { r' with events := readEvent m .mode (.ok d) :: r'.events } := by
  match rs with
  | [] => cases h
  | .fail :: rest => cases h; exact .inl ⟨rest, rfl, rfl⟩
  | .ok d :: rest =>
    simp only [recvAlgorithm] at h
    split at h
    · cases h
    · rename_i r' hloop
      cases h
      exact .inr ⟨d, rest, r', rfl, hloop, rfl⟩

/-- From the mode read on, the algorithm of R91 is what the steps do (R95). -/
theorem State.Inv.recvEnds {s : State} {m : RegMap} {maxMsg maxLen : Byte} {r : RecvEnd} (h : s.Inv)
    (hf : s.fsm = .rxMode) (hm : s.cfg.regmap[s.curInst.toNat]? = some m)
    (hcap : s.rxCap.toNat = maxMsg.toNat * maxLen.toNat)
    (hr : recvAlgorithm s.cfg m maxMsg maxLen s.rxOut s.responses = some r) : ∃ t, s.RecvEnds t r := by
  obtain ⟨hj, hcnt, hacc⟩ := h.rxMode_counts hf
  have hop : s.nextOp = some (.read .mode) := by rw [State.nextOp, hf]
  rcases recvAlgorithm_some hr with ⟨rest, hrs, rfl⟩ | ⟨d, rest, r', hrs, hloop, rfl⟩
  · have hend := h.recvEnds_of_abort (stn := s.rxStn) (by rw [hf]; rfl)
      (step_fail (by rw [hf]; nofun) hm hop hrs)
    rw [hj] at hend
    exact hend
  · by_cases hd : rxAvailOf d = 0
    · rw [hd] at hloop
      cases hloop
      exact ⟨_, run_one (step_rxMode_none hf hm hrs hd), rfl, hacc, congrArg BitVec.toNat hcnt, rfl, rfl,
        rfl, rfl⟩
    · have hs := step_rxMode_some hf hm hrs hd
      obtain ⟨n, hn⟩ := Nat.exists_eq_succ_of_ne_zero fun h0 => hd (BitVec.eq_of_toNat_eq h0)
      have hleft : s.rxJ.toNat + (n + 1) = (rxAvailOf d).toNat := by
        rw [hj, hn]; exact Nat.zero_add _
      have hat : State.AtHeader _ m n :=
        { inv := stepKeepsTheInvariant _ _ h hs, row := hm, start := rfl, left := hleft }
      have hfirst : recvMessages s.cfg m s.rxCap.toNat (n + 1) s.rxJ.toNat s.rxAcc.toNat s.rxOut rest
          = some r' := by
        rw [hj, hacc, hcap]
        rw [hn] at hloop
        exact hloop
      obtain ⟨t, ht⟩ := hat.recvEnds hfirst
      exact ⟨t, ht.after (evs := [readEvent m .mode (.ok d)]) (run_one hs) rfl rfl⟩

/-- Settles O57: the accepted RECEIVE is run from its mode read on. -/
theorem recvRunIsItsAlgorithm : Obligations.RecvRunIsItsAlgorithm := by
  unfold Obligations.RecvRunIsItsAlgorithm
  intro s inst maxMsg maxLen m r h hf hm hr
  obtain ⟨_, _, _, hrows⟩ := valid_range h.cfg
  have hi : inst.toNat < s.cfg.ni := hrows ▸ (List.getElem?_eq_some_iff.1 hm).1
  have hexec := exec_recv_of_served maxMsg maxLen hi h.queueCount
  obtain ⟨t, ht⟩ := (h.exec hf hexec).recvEnds rfl hm (rxCap_toNat maxMsg maxLen) hr
  have hb : t.recvBlanked = s.recvBlanked := ht.blanked
  exact ⟨_, t, hexec, ht.run, ht.idle, ht.result, ht.count, ht.history, ht.responses, ht.out,
    (congrArg State.queues hb :), (congrArg State.callerErr hb :), (congrArg State.port hb :),
    (congrArg State.cfg hb :), sameTx_of_recvBlanked hb⟩

/-! ### The transactions of a RECEIVE -/

/-- The length recorded for message `j`, 0 where none is. -/
def RxOut.recordedLen (out : RxOut) (j : Nat) : Nat :=
  match out.outLen[j]? with
  | some (some l) => l.toNat
  | some none => 0
  | none => 0

/-- The reads of one message of `len` bytes (R105). -/
def messageReads (m : RegMap) (len : Nat) : List (BusKind × Nat) :=
  [(.read, m.rxSizeFifo), (.read, m.rxStnFifo)] ++ List.replicate (nwords len) (.read, m.rxData)

theorem recordedLen_of_outLen {o o' : RxOut} {j : Nat} (h : o'.outLen[j]? = o.outLen[j]?) :
    o'.recordedLen j = o.recordedLen j := by
  unfold RxOut.recordedLen
  rw [h]

theorem recordedLen_record {out : RxOut} {j : Nat} (hj : j < 31) (len : Byte) (stn : Station) :
    (out.record j len stn).recordedLen j = len.toNat := by
  have hlen : (out.record j len stn).outLen[j]? = some (some len) :=
    (getElem?_setIfInBounds_of_lt _ _ _ _ hj).trans (if_pos rfl)
  unfold RxOut.recordedLen
  rw [hlen]

theorem headerEvents_dataReads {m : RegMap} {len : Byte} {rs rest : List Response} {ws : List Word}
    {evs : List Event} (h : sendAll (dataReads m len) rs = .done ws evs rest) (d e : Word) :
    (headerEvents m d e ++ evs).map (fun e => (e.kind, e.addr)) = messageReads m len.toNat := by
  rw [List.map_append, sendAll_done h, dataReads, List.map_replicate]
  rfl

/-- The loop of R91 records no message below `j`. -/
theorem recvMessages_outLen_below {c : Config} {m : RegMap} {cap n j acc : Nat} {out : RxOut}
    {rs : List Response} {r : RecvEnd} (h : recvMessages c m cap n j acc out rs = some r) {i : Nat}
    (hi : i < j) (hi31 : i < 31) : r.out.outLen[i]? = out.outLen[i]? := by
  induction n generalizing j acc out rs r with
  | zero => cases h; rfl
  | succ n ih =>
    cases recvMessages_succ h with
    | noSize | noStation | zero | overcap | noData => rfl
    | recorded d e rs ws evs rest r' h0 hcap hdata hloop =>
      refine (ih hloop (Nat.lt_succ_of_lt hi)).trans ?_
      exact (getElem?_setIfInBounds_of_lt _ _ _ _ hi31).trans (if_neg hi.ne)

/-- The loop of R91 receives at most the messages it was given, and where it receives them all its
transactions are theirs (R105). -/
theorem recvMessages_transactions {c : Config} {m : RegMap} {cap n j acc : Nat} {out : RxOut}
    {rs : List Response} {r : RecvEnd} (h : recvMessages c m cap n j acc out rs = some r)
    (hn : j + n ≤ 31) :
    r.count ≤ j + n
      ∧ (r.count = j + n → r.events.map (fun e => (e.kind, e.addr))
          = (List.range' j n).flatMap fun i => messageReads m (r.out.recordedLen i)) := by
  induction n generalizing j acc out rs r with
  | zero => cases h; exact ⟨Nat.le_refl _, fun _ => rfl⟩
  | succ n ih =>
    have hlt : j < j + (n + 1) := Nat.lt_add_of_pos_right (Nat.succ_pos _)
    cases recvMessages_succ h with
    | noSize | noStation | zero | overcap | noData => exact ⟨hlt.le, fun hall => absurd hall hlt.ne⟩
    | recorded d e rs ws evs rest r' h0 hcap hdata hloop =>
      obtain ⟨hle, hreads⟩ := ih hloop (by omega)
      have hsum : j + (n + 1) = j + 1 + n := by omega
      have hlen : r'.out.recordedLen j = (rxLenOf d).toNat :=
        (recordedLen_of_outLen (recvMessages_outLen_below hloop (Nat.lt_succ_self j) (by omega))).trans
          (recordedLen_record (by omega) _ _)
      rw [hsum]
      refine ⟨hle, fun hall => ?_⟩
      rw [List.map_append, headerEvents_dataReads hdata, hreads hall, List.range'_succ,
        List.flatMap_cons, hlen]

/-- Settles O60: the records are those of the algorithm. -/
theorem successfulRecvTransactions : Obligations.SuccessfulRecvTransactions := by
  unfold Obligations.SuccessfulRecvTransactions
  intro s inst maxMsg maxLen m d rs r h hf hm hrs hr
  obtain ⟨s1, t, hs1, hrun, hidle, _, hcount, hhist, _, hout, _⟩ :=
    recvRunIsItsAlgorithm s inst maxMsg maxLen m r h hf hm hr
  refine ⟨s1, t, r.events, hs1, hrun, hidle, hhist, fun hall => ?_⟩
  rw [hrs] at hr
  rcases recvAlgorithm_some hr with ⟨_, hfail, _⟩ | ⟨d', rest, r', hok, hloop, rfl⟩
  · cases hfail
  · cases hok
    have havail := (rxAvailOf d).isLt
    obtain ⟨_, hreads⟩ := recvMessages_transactions hloop (by omega)
    rw [List.map_cons, hreads ((hcount.symm.trans hall).trans (Nat.zero_add _).symm), hall,
      List.range_eq_range', ← show t.rxOut = r'.out from hout]
    rfl

end Sys2Proof.Machine

/-! SUPPORT. The write queue family (42_write_queue.md): what an ENQUEUE does to the queue of its instance, what
it leaves unchanged, and which steps change a queue. -/

namespace Sys2Proof.Machine

open Sys2Proof

/-! ### Acceptance -/

/-- ENQUEUE on a served instance with room (R108). -/
theorem exec_enq_of_room {s : State} {inst : BitVec 4} {q : WriteQueue} (len : Byte) (stn : Station)
    (payload : List Word) (hi : inst.toNat < s.cfg.ni) (hq : s.queues[inst.toNat]? = some q)
    (hroom : q.qlen.toNat ≠ s.cfg.qcap) :
    exec (.enq inst len stn payload) s = .next { s with
      queues := s.queues.set inst.toNat (q.push len stn (payloadBytes len.toNat payload))
      result := 0
      count := BitVec.ofNat 8 (q.qlen.toNat + 1) } :=
  (withInstance_resolved _ hi hq).trans (if_neg hroom)

/-- ENQUEUE is rejected, or it replaces the queue of its instance by the pushed one (R108, R109, R128). -/
theorem exec_enq_rejects_or_pushes {s t : State} {inst : BitVec 4} {len : Byte} {stn : Station}
    {payload : List Word} (h : exec (.enq inst len stn payload) s = .next t) :
    (∃ k, t = s.reject k) ∨ ∃ q, s.queues[inst.toNat]? = some q ∧ t = { s with
      queues := s.queues.set inst.toNat (q.push len stn (payloadBytes len.toNat payload))
      result := 0
      count := BitVec.ofNat 8 (q.qlen.toNat + 1) } := by
  rcases execEnq_next h with ⟨_, ht⟩ | ⟨_, _, _, _, ht⟩ | ⟨q, hq, _, _, ht⟩
  · exact .inl ⟨_, ht⟩
  · exact .inl ⟨_, ht⟩
  · exact .inr ⟨q, hq, ht⟩

theorem getElem?_set_of_getElem? {α : Type} {l : List α} {i : Nat} {a b : α} (h : l[i]? = some a) :
    (l.set i b)[i]? = some b := by
  obtain ⟨hlt, _⟩ := List.getElem?_eq_some_iff.1 h
  exact List.getElem?_set_self hlt

/-- Settles O13: the queue pushed onto holds the message at index `QLEN`, and its length does not wrap. -/
theorem enqAppendsTheMessage : Obligations.EnqAppendsTheMessage := by
  unfold Obligations.EnqAppendsTheMessage
  intro s inst len stn payload q hi hq hok hcap hroom
  obtain ⟨hlen, hstored, _⟩ := (WriteQueue.ok_iff _ _).1 hok
  have hsucc : (BitVec.ofNat 8 (q.qlen.toNat + 1)).toNat = q.qlen.toNat + 1 := toNat_ofNat_lt (by omega)
  obtain ⟨rest, hnew⟩ := WriteQueue.push_entry_new hstored (length_payloadBytes len.toNat payload) stn
  refine ⟨_, _, _, exec_enq_of_room len stn payload hi hq hroom, getElem?_set_of_getElem? hq, hsucc, hnew,
    rfl, rfl, fun k hk => ?_, fun k hk => WriteQueue.push_entry_old hstored len stn _ hk.ne,
    rfl, hsucc, rfl, rfl⟩
  rw [List.getElem?_append_left (by rwa [length_payloadBytes]), getElem?_payloadBytes payload hk]

/-- Settles O14: a rejection only reports, and a push touches one entry of one queue. -/
theorem enqFrame : Obligations.EnqFrame := by
  unfold Obligations.EnqFrame
  intro s t inst len stn payload h
  rcases exec_enq_rejects_or_pushes h with ⟨k, rfl⟩ | ⟨q, hq, rfl⟩
  · refine ⟨rfl, rfl, rfl, ⟨rfl, rfl, rfl, rfl, rfl⟩, ⟨rfl, rfl, rfl, rfl, rfl, rfl, rfl, rfl⟩,
      ⟨rfl, rfl, fun _ => rfl⟩, ⟨rfl, rfl, rfl⟩, rfl, fun _ _ => rfl, .inr ⟨rfl, rfl⟩,
      fun p p' _ hp hp' _ _ => ?_⟩
    cases hp.symm.trans hp'
    rfl
  · refine ⟨rfl, rfl, rfl, ⟨rfl, rfl, rfl, rfl, rfl⟩, ⟨rfl, rfl, rfl, rfl, rfl, rfl, rfl, rfl⟩,
      ⟨rfl, rfl, fun _ => rfl⟩, ⟨rfl, rfl, rfl⟩, rfl, fun _ hj => List.getElem?_set_ne hj.symm, .inl rfl,
      fun p p' _ hp hp' hstored hne => ?_⟩
    cases hq.symm.trans hp
    cases (getElem?_set_of_getElem? hq).symm.trans hp'
    exact WriteQueue.push_entry_old hstored len stn _ hne

/-! ### Which steps change a queue -/

/-- A command's acceptance changes at most the queue of its own instance, and RECEIVE's changes none. -/
theorem exec_queues {s t : State} {i : Instr} (h : exec i s = .next t) :
    t.queues = s.queues ∨ s.sameQueuesBut t i.inst.toNat ∧ ∀ inst a b, i ≠ .recv inst a b := by
  cases i with
  | enq inst len stn payload =>
    obtain ⟨_, _, _, _, _, _, _, _, hother, _⟩ := enqFrame s t inst len stn payload h
    exact .inr ⟨hother, nofun⟩
  | flush inst burst =>
    obtain ⟨_, _, _, _, _, hother, _⟩ := flushAcceptFrame s t inst burst h
    exact .inr ⟨hother, nofun⟩
  | recv inst maxMsg maxLen =>
    obtain ⟨_, _, _, _, _, hqueues, _⟩ := recvAcceptFrame s t inst maxMsg maxLen h
    exact .inl hqueues

/-- The abort of a RECEIVE touches no queue (R101, R126). -/
theorem abort_rx_queues {s : State} (hx : s.fsm.isTx = false) (k : ErrorKind) :
    (s.abort k).queues = s.queues := by
  rw [abort_rx hx]

/-- An abort leaves the queues, or it ends a FLUSH and empties the queue of its instance (R85, R126). -/
theorem abort_queues_cases (s : State) (k : ErrorKind) :
    (s.abort k).queues = s.queues
      ∨ s.fsm.isTx = true ∧ (s.abort k).fsm = .idle
        ∧ (s.abort k).queues = emptied s.queues s.curInst.toNat := by
  cases hx : s.fsm.isTx with
  | true => rw [abort_tx hx]; exact .inr ⟨rfl, rfl, rfl⟩
  | false => exact .inl (abort_rx_queues hx k)

/-- What follows an answer `Ok` leaves the queues, or it ends a FLUSH and empties the queue of its instance
(R84, R85). -/
theorem onOk_queues {s s1 t : State} {d : Word} (hf : s1.fsm = s.fsm) (h : s.onOk d s1 = .next t) :
    t.queues = s1.queues
      ∨ s.fsm.isTx = true ∧ t.fsm = .idle ∧ t.queues = emptied s1.queues s1.curInst.toNat := by
  cases hs : s.fsm with
  | txMode =>
    rcases onOk_txMode_next hs h with rfl | ⟨e, _, hadv⟩
    · exact hs ▸ hf ▸ abort_queues_cases s1 _
    · rcases txAdvance_next hadv with ⟨_, rfl⟩ | ⟨_, e', _, rfl⟩
      · exact .inr ⟨rfl, rfl, rfl⟩
      · exact .inl rfl
  | txData =>
    simp only [State.onOk, hs] at h
    split at h <;> cases h
    exact .inl rfl
  | rxMode =>
    simp only [State.onOk, hs] at h
    split at h <;> cases h <;> exact .inl rfl
  | rxStn =>
    have habort (k : ErrorKind) : (State.abort { s1 with rxStn := rxStnOf d } k).queues = s1.queues :=
      abort_rx_queues (s := { s1 with rxStn := rxStnOf d }) (by simp [hf, hs, Fsm.isTx]) k
    simp only [State.onOk, hs] at h
    refine .inl ?_
    split at h
    · cases h; exact habort _
    · split at h <;> cases h
      · exact habort _
      · rfl
  | rxData =>
    simp only [State.onOk, hs] at h
    refine .inl ?_
    split at h
    · cases h
    · split at h
      · rcases rxRecord_next h with ⟨_, ⟨_, rfl⟩ | ⟨_, rfl⟩⟩ <;> rfl
      · cases h; rfl
  | idle | txSize | txStn | rxSize =>
    simp only [State.onOk, hs] at h
    cases h
    exact .inl rfl

/-- A step of a running command leaves the queues, or it ends a FLUSH and empties the queue of its instance. -/
theorem step_busy_queues {s t : State} (hf : s.fsm ≠ .idle) (hs : step s = .next t) :
    t.queues = s.queues
      ∨ s.fsm.isTx = true ∧ t.fsm = .idle ∧ t.queues = emptied s.queues s.curInst.toNat := by
  obtain ⟨m, op, _, _, ⟨_, rfl⟩ | ⟨rest, _, rfl⟩ | ⟨d, rest, _, ho⟩⟩ := step_busy_next hf hs
  · exact .inl rfl
  · exact abort_queues_cases (s.answered (op.request m) .fail rest) _
  · exact onOk_queues (s1 := s.answered (op.request m) (.ok d) rest) rfl ho

/-- Settles O48: a changed queue is that of the command accepted, or of the FLUSH that ends. -/
theorem queuesChangeOnlyByTheirCommands : Obligations.QueuesChangeOnlyByTheirCommands := by
  unfold Obligations.QueuesChangeOnlyByTheirCommands
  intro s t j hs hne
  by_cases hf : s.fsm = .idle
  · rcases step_idle_next hf hs with ⟨_, rfl⟩ | ⟨_, _, _, rfl⟩ | ⟨i, rest, hd, he⟩
    · exact absurd rfl hne
    · exact absurd rfl hne
    · rcases exec_queues he with hsame | ⟨hother, hrecv⟩
      · exact absurd (congrArg (·[j]?) hsame) hne
      · exact .inl ⟨hf, i, rest, hd, by_contra fun hij => hne (hother j (Ne.symm hij)), hrecv⟩
  · rcases step_busy_queues hf hs with hsame | ⟨hx, hidle, hqueues⟩
    · exact absurd (congrArg (·[j]?) hsame) hne
    · rw [hqueues, getElem?_emptied] at hne ⊢
      have hj : j = s.curInst.toNat := by_contra fun hj => hne (if_neg hj)
      exact .inr ⟨hx, hj.symm, hidle, if_pos hj⟩

end Sys2Proof.Machine

/-! SUPPORT. The error classifier family (43_error_classifier.md): the decoders' fields, the result codes as
numbers in the register, and what a step can leave in `RESULT`. -/

namespace Sys2Proof.Machine

open Sys2Proof

/-! ### Decoders -/

theorem txFifoError_eq_true_iff (d : Word) : txFifoError d = true ↔ d.toNat / 16 % 2 = 1 := by
  simp [txFifoError, BitVec.getLsbD, Nat.testBit_eq_decide_div_mod_eq]

/-- Settles O33: each decoder as arithmetic on the word's number. -/
theorem decodersPickTheirFields : Obligations.DecodersPickTheirFields := by
  unfold Obligations.DecodersPickTheirFields
  exact fun d => ⟨txFifoError_eq_true_iff d, rxAvailOf_toNat d, rxLenOf_toNat d, rxPktFlags_toNat d,
    rxStnOf_toNat d⟩

/-! ### The result codes in the register -/

/-- The nine kinds, in the order of `Config.allCodes`. -/
def errorKinds : List ErrorKind :=
  [.notFound, .memoryExhausted, .registerIO, .txSendCountFifo, .rxFifo, .rxPacketSizeZero, .rxArraySize,
   .bufferParsing, .invalidArgument]

theorem mem_errorKinds (k : ErrorKind) : k ∈ errorKinds := by
  cases k <;> decide

theorem allCodes_eq_map (c : Config) : c.allCodes = errorKinds.map (resultCode c) := rfl

/-- In an accepted configuration a code is a negative `i32` (R5, R121). -/
theorem resultCode_range {c : Config} (h : c.valid = true) (k : ErrorKind) :
    -2147483648 ≤ resultCode c k ∧ resultCode c k < 0 := by
  obtain ⟨_, hrange, _⟩ := (valid_iff c).1 h
  obtain ⟨_, _, _, _, _, _, hcodes, _⟩ := (inRange_iff c).1 hrange
  exact hcodes _ (allCodes_eq_map c ▸ List.mem_map_of_mem (mem_errorKinds k))

theorem resultCode_injective {c : Config} (h : c.valid = true) : Function.Injective (resultCode c) := by
  obtain ⟨_, hrange, _⟩ := (valid_iff c).1 h
  obtain ⟨_, _, _, _, _, _, _, hdistinct, _⟩ := (inRange_iff c).1 hrange
  rw [distinct_iff, allCodes_eq_map] at hdistinct
  exact fun k k' hkk' => List.inj_on_of_nodup_map hdistinct (mem_errorKinds k) (mem_errorKinds k') hkk'

/-- The register keeps a code (R12). -/
theorem toInt_resultCode {c : Config} (h : c.valid = true) (k : ErrorKind) :
    (i32 (resultCode c k)).toInt = resultCode c k := by
  obtain ⟨hlow, hneg⟩ := resultCode_range h k
  exact i32_toInt hlow (hneg.trans (by decide))

theorem i32_resultCode_injective {c : Config} (h : c.valid = true) :
    Function.Injective fun k => i32 (resultCode c k) := by
  intro k k' hkk'
  apply resultCode_injective h
  rw [← toInt_resultCode h k, ← toInt_resultCode h k']
  exact congrArg BitVec.toInt hkk'

/-- Settles O34: the codes are negative and distinct as numbers, and the register keeps each. -/
theorem resultCodesAreNegativeAndDistinct : Obligations.ResultCodesAreNegativeAndDistinct := by
  unfold Obligations.ResultCodesAreNegativeAndDistinct
  exact fun c h => ⟨fun k => ⟨toInt_resultCode h k, (resultCode_range h k).2⟩,
    fun _ _ hkk' => i32_resultCode_injective h hkk'⟩

/-! ### What a completion reports -/

/-- `RESULT` of `t` is a byte total of at most `bound`, or the code of one of `kinds` (R122). -/
def State.Reports (t : State) (bound : Nat) (kinds : List ErrorKind) : Prop :=
  t.result.toNat ≤ bound ∨ ∃ k ∈ kinds, t.result = i32 (resultCode t.cfg k)

section

variable {t : State} {bound : Nat} {kinds : List ErrorKind}

/-- A byte total is read as a number from 0 up, a code as itself (R122). -/
theorem State.Reports.toInt (h : t.Reports bound kinds) (hcfg : t.cfg.valid = true)
    (hbound : bound ≤ rxBufBytes) :
    (0 ≤ t.result.toInt ∧ t.result.toInt ≤ bound) ∨ ∃ k ∈ kinds, t.result.toInt = resultCode t.cfg k := by
  rw [rxBufBytes] at hbound
  rcases h with htotal | ⟨k, hk, hcode⟩
  · have hnat : t.result.toInt = t.result.toNat := BitVec.toInt_eq_toNat_of_lt (by omega)
    exact .inl (by omega)
  · exact .inr ⟨k, hk, by rw [hcode, toInt_resultCode hcfg]⟩

/-- The code of another kind is not reported: it is no total, since it is negative, and the codes are
distinct. -/
theorem State.Reports.result_ne (h : t.Reports bound kinds) (hcfg : t.cfg.valid = true)
    (hbound : bound ≤ rxBufBytes) {k : ErrorKind} (hk : k ∉ kinds) :
    t.result ≠ i32 (resultCode t.cfg k) := by
  intro hcode
  have hint : t.result.toInt = resultCode t.cfg k := by rw [hcode, toInt_resultCode hcfg]
  rcases h.toInt hcfg hbound with ⟨hnonneg, _⟩ | ⟨k', hk', hcode'⟩
  · have hneg := (resultCode_range hcfg k).2
    omega
  · exact hk (resultCode_injective hcfg (hint.symm.trans hcode') ▸ hk')

end

/-- While a command runs from `s` to `t`, `RESULT` stays; at its end it is reported (R134, R122). -/
def State.ReportsAtEnd (s t : State) (bound : Nat) (kinds : List ErrorKind) : Prop :=
  (t.fsm ≠ .idle ∧ t.result = s.result) ∨ t.Reports bound kinds

theorem State.ReportsAtEnd.of_idle {s t : State} {bound : Nat} {kinds : List ErrorKind}
    (h : s.ReportsAtEnd t bound kinds) (hidle : t.fsm = .idle) : t.Reports bound kinds :=
  h.resolve_left fun hrun => hrun.1 hidle

theorem State.ReportsAtEnd.of_changed {s t : State} {bound : Nat} {kinds : List ErrorKind}
    (h : s.ReportsAtEnd t bound kinds) (hne : t.result ≠ s.result) : t.Reports bound kinds :=
  h.resolve_left fun hrun => hne hrun.2

theorem reports_abort (s : State) (bound : Nat) {k : ErrorKind} {kinds : List ErrorKind} (hk : k ∈ kinds) :
    (s.abort k).Reports bound kinds :=
  .inr ⟨k, hk, by rw [State.abort_result, State.abort_cfg]⟩

theorem reports_reject (s : State) (bound : Nat) {k : ErrorKind} {kinds : List ErrorKind} (hk : k ∈ kinds) :
    (s.reject k).Reports bound kinds :=
  .inr ⟨k, hk, rfl⟩

/-! ### What each step reports -/

/-- A command's acceptance leaves `RESULT`, or reports 0 or one of the two rejections (R78, R108, R109, R128). -/
theorem exec_reports {s t : State} {i : Instr} (h : exec i s = .next t) :
    t.result = s.result ∨ t.Reports 0 [.notFound, .invalidArgument] := by
  cases i with
  | enq inst len stn payload =>
    rcases execEnq_next h with ⟨_, rfl⟩ | ⟨_, _, _, _, rfl⟩ | ⟨_, _, _, _, rfl⟩
    · exact .inr (reports_reject _ _ (by decide))
    · exact .inr (reports_reject _ _ (by decide))
    · exact .inr (.inl le_rfl)
  | flush inst burst =>
    rcases execFlush_next h with ⟨_, rfl⟩ | ⟨_, _, _, ⟨_, rfl⟩ | ⟨_, _, _, rfl⟩⟩
    · exact .inr (reports_reject _ _ (by decide))
    · exact .inr (.inl le_rfl)
    · exact .inl rfl
  | recv inst maxMsg maxLen =>
    rcases execRecv_next h with ⟨_, rfl⟩ | ⟨_, rfl⟩
    · exact .inr (reports_reject _ _ (by decide))
    · exact .inl rfl

/-- A step in `IDLE` leaves `RESULT`, or reports 0 or one of the two rejections (R68, R70). -/
theorem step_idle_reports {s t : State} (hf : s.fsm = .idle) (hs : step s = .next t) :
    t.result = s.result ∨ t.Reports 0 [.notFound, .invalidArgument] := by
  rcases step_idle_next hf hs with ⟨_, rfl⟩ | ⟨_, _, _, rfl⟩ | ⟨_, rest, _, he⟩
  · exact .inl rfl
  · exact .inr (reports_reject _ _ (by decide))
  · exact exec_reports (s := s.take rest) he

/-- A waiting step reports nothing and an answer `Fail` reports `RegisterIOError`, whatever the command (R39,
R126). -/
theorem step_busy_reports {s t : State} {bound : Nat} {kinds : List ErrorKind} (hf : s.fsm ≠ .idle)
    (hio : .registerIO ∈ kinds)
    (hok : ∀ {d q rest}, s.onOk d (s.answered q (.ok d) rest) = .next t → s.ReportsAtEnd t bound kinds)
    (hs : step s = .next t) : s.ReportsAtEnd t bound kinds := by
  obtain ⟨_, _, _, _, ⟨_, rfl⟩ | ⟨_, _, rfl⟩ | ⟨_, _, _, ho⟩⟩ := step_busy_next hf hs
  · exact .inl ⟨hf, rfl⟩
  · exact .inr (reports_abort _ _ hio)
  · exact hok ho

/-- The byte total of a FLUSH with the message being sent: at most 16 messages of at most 255 bytes (R33). -/
theorem State.Inv.txTot_le {s : State} {e : QEntry} (h : s.Inv) (hx : s.fsm.isTx = true)
    (he : s.txEntry = some e) : s.txTot.toNat + e.len.toNat ≤ 4080 := by
  obtain ⟨_, _, _, hsum⟩ := h.txCounts hx he
  have hburst : s.txN.toNat ≤ 16 := (h.tx hx).burst
  have hidx := (h.tx hx).index
  have hbytes := lenTotal_le (s.curQueue.entries.take (s.txM.toNat + 1))
  rw [List.length_take, maxMsgLen] at hbytes
  omega

/-- What follows an answer `Ok` while a FLUSH runs reports only at the FLUSH's end (R82 to R84). -/
theorem State.Inv.onOk_tx_reports {s t : State} {d : Word} {q : BusReq} {rest : List Response} (h : s.Inv)
    (hx : s.fsm.isTx = true) (hs : s.onOk d (s.answered q (.ok d) rest) = .next t) :
    s.ReportsAtEnd t 4080 [.registerIO, .txSendCountFifo] := by
  obtain ⟨e, he⟩ := h.txEntry hx
  cases hf : s.fsm with
  | txData =>
    simp only [State.onOk, hf, he] at hs
    cases hs
    exact .inl ⟨by dsimp only; split <;> decide, rfl⟩
  | txSize | txStn =>
    simp only [State.onOk, hf] at hs
    cases hs
    exact .inl ⟨nofun, rfl⟩
  | txMode =>
    rcases onOk_txMode_next hf hs with rfl | ⟨e', he', hadv⟩
    · exact .inr (reports_abort _ _ (by decide))
    · cases he.symm.trans he'
      rcases txAdvance_next hadv with ⟨_, rfl⟩ | ⟨_, e'', _, rfl⟩
      · refine .inr (.inl ?_)
        show (BitVec.ofNat 32 (s.txTot.toNat + e.len.toNat)).toNat ≤ 4080
        exact (BitVec.toNat_ofNat _ _).trans_le ((Nat.mod_le _ _).trans (h.txTot_le hx he))
      · exact .inl ⟨Fsm.ne_idle_of_isTx (isTx_txStart _), rfl⟩
  | idle | rxMode | rxSize | rxStn | rxData => simp [hf, Fsm.isTx] at hx

/-- A step of a FLUSH reports only at the FLUSH's end (R122). -/
theorem State.Inv.step_tx_reports {s t : State} (h : s.Inv) (hx : s.fsm.isTx = true)
    (hs : step s = .next t) :
    s.ReportsAtEnd t 4080 [.registerIO, .txSendCountFifo] :=
  step_busy_reports (Fsm.ne_idle_of_isTx hx) (by decide) (h.onOk_tx_reports hx) hs

/-- The byte total of a RECEIVE: at most 31 messages of at most 255 bytes (R33). -/
theorem State.RxOutput.rxAcc_le {s : State} (h : s.RxOutput) : s.rxAcc.toNat ≤ rxBufBytes := by
  have hacc := h.accLen
  have hj := s.rxJ.isLt
  rw [maxMsgLen] at hacc
  rw [rxBufBytes]
  omega

/-- What follows an answer `Ok` while a RECEIVE runs reports only at the RECEIVE's end (R95 to R100). -/
theorem State.Inv.onOk_rx_reports {s t : State} {d : Word} {q : BusReq} {rest : List Response} (h : s.Inv)
    (hx : s.fsm.isRx = true) (hs : s.onOk d (s.answered q (.ok d) rest) = .next t) :
    s.ReportsAtEnd t rxBufBytes [.registerIO, .rxPacketSizeZero, .rxArraySize] := by
  have hacc := (h.onOk_rx hx hs).output.rxAcc_le
  cases hf : s.fsm with
  | rxMode =>
    simp only [State.onOk, hf] at hs
    split at hs <;> cases hs
    · exact .inr (.inl hacc)
    · exact .inl ⟨nofun, rfl⟩
  | rxSize =>
    simp only [State.onOk, hf] at hs
    cases hs
    exact .inl ⟨nofun, rfl⟩
  | rxStn =>
    simp only [State.onOk, hf] at hs
    split at hs
    · cases hs; exact .inr (reports_abort _ _ (by decide))
    · split at hs <;> cases hs
      · exact .inr (reports_abort _ _ (by decide))
      · exact .inl ⟨nofun, rfl⟩
  | rxData =>
    simp only [State.onOk, hf] at hs
    split at hs
    · cases hs
    · split at hs
      · rcases rxRecord_next hs with ⟨_, ⟨_, rfl⟩ | ⟨_, rfl⟩⟩
        · exact .inr (.inl hacc)
        · exact .inl ⟨nofun, rfl⟩
      · cases hs; exact .inl ⟨Fsm.ne_idle_of_isRx hx, rfl⟩
  | idle | txData | txSize | txStn | txMode => simp [hf, Fsm.isRx] at hx

/-- A step of a RECEIVE reports only at the RECEIVE's end (R122). -/
theorem State.Inv.step_rx_reports {s t : State} (h : s.Inv) (hx : s.fsm.isRx = true)
    (hs : step s = .next t) :
    s.ReportsAtEnd t rxBufBytes [.registerIO, .rxPacketSizeZero, .rxArraySize] :=
  step_busy_reports (Fsm.ne_idle_of_isRx hx) (by decide) (h.onOk_rx_reports hx) hs

/-- Settles O49: the reports at the end of a FLUSH and of a RECEIVE, read as numbers. -/
theorem completionResultTellsSuccessFromFailure :
    Obligations.CompletionResultTellsSuccessFromFailure := by
  unfold Obligations.CompletionResultTellsSuccessFromFailure
  intro s t h _ hs hidle
  have hcfg : t.cfg = s.cfg := noStepChangesTheConfiguration s t hs
  have hvalid : t.cfg.valid = true := hcfg ▸ h.cfg
  refine ⟨fun hx => ?_, fun hx => ?_⟩
  · have hrep := (h.step_tx_reports hx hs).of_idle hidle
    simpa [hcfg, resultCode] using hrep.toInt hvalid (by decide)
  · have hrep := (h.step_rx_reports hx hs).of_idle hidle
    simpa [hcfg, resultCode, rxBufBytes] using hrep.toInt hvalid le_rfl

/-- A step that changes `RESULT` reports a byte total or one of six codes (R123, R124). -/
theorem State.Inv.step_reports {s t : State} (h : s.Inv) (hs : step s = .next t)
    (hne : t.result ≠ s.result) : ∃ bound kinds, t.Reports bound kinds ∧ bound ≤ rxBufBytes
      ∧ ∀ k ∈ [ErrorKind.rxFifo, .memoryExhausted, .bufferParsing], k ∉ kinds := by
  by_cases hf : s.fsm = .idle
  · exact ⟨_, _, (step_idle_reports hf hs).resolve_left hne, by decide, by decide⟩
  · rcases Fsm.tx_or_rx hf with hx | hx
    · exact ⟨_, _, (h.step_tx_reports hx hs).of_changed hne, by decide, by decide⟩
    · exact ⟨_, _, (h.step_rx_reports hx hs).of_changed hne, le_rfl, by decide⟩

/-- Settles O50: what a step can report names none of the three kinds. -/
theorem reservedCodesAreNeverProduced : Obligations.ReservedCodesAreNeverProduced := by
  unfold Obligations.ReservedCodesAreNeverProduced
  intro s t h hs hne
  have hcfg : t.cfg = s.cfg := noStepChangesTheConfiguration s t hs
  obtain ⟨bound, kinds, hrep, hbound, hreserved⟩ := h.step_reports hs hne
  have hnot {k : ErrorKind} (hk : k ∈ [ErrorKind.rxFifo, .memoryExhausted, .bufferParsing]) :
      t.result ≠ i32 (resultCode s.cfg k) :=
    hcfg ▸ hrep.result_ne (hcfg ▸ h.cfg) hbound (hreserved k hk)
  exact ⟨hnot (by decide), hnot (by decide), hnot (by decide)⟩

end Sys2Proof.Machine

/-! SUPPORT. The exceptions family (60_exceptions.md): the rejections at acceptance, the abort on an answer `Fail`,
which steps write `RESULT` and `COUNT`, and which set `CALLER_ERR`. -/

namespace Sys2Proof.Machine

open Sys2Proof

/-! ### Rejections at acceptance -/

/-- A command on an instance that is not served is rejected (R71, R128). -/
theorem exec_unserved {s : State} {i : Instr} (hi : s.cfg.ni ≤ i.inst.toNat) :
    exec i s = .next (s.reject .notFound) := by
  cases i <;> exact withInstance_unresolved _ hi

/-- An ENQUEUE on a full queue is rejected (R109). -/
theorem exec_enq_of_full {s : State} {inst : BitVec 4} {q : WriteQueue} (len : Byte) (stn : Station)
    (payload : List Word) (hi : inst.toNat < s.cfg.ni) (hq : s.queues[inst.toNat]? = some q)
    (hfull : q.qlen.toNat = s.cfg.qcap) :
    exec (.enq inst len stn payload) s = .next (s.reject .invalidArgument) :=
  (withInstance_resolved _ hi hq).trans (if_pos hfull)

/-- Settles O15: a rejection is the three writes. -/
theorem rejectedCommandsOnlyReport : Obligations.RejectedCommandsOnlyReport := by
  unfold Obligations.RejectedCommandsOnlyReport
  exact ⟨fun _ _ hi => exec_unserved hi,
    fun _ _ len stn payload _ hi hq hfull => exec_enq_of_full len stn payload hi hq hfull⟩

/-! ### The abort -/

/-- The abort of either command (R126). -/
theorem abort_eq (s : State) (k : ErrorKind) :
    s.abort k = { s with
      result := i32 (resultCode s.cfg k)
      count := if s.fsm.isTx then s.txSent else s.rxCnt
      queues := if s.fsm.isTx then emptied s.queues s.curInst.toNat else s.queues
      fsm := .idle } := by
  cases hx : s.fsm.isTx with
  | true => exact abort_tx hx k
  | false => exact abort_rx hx k

/-- Settles O27: the step is the abort of the state with the failed transaction done. -/
theorem busFailureAbortsTheCommand : Obligations.BusFailureAbortsTheCommand := by
  unfold Obligations.BusFailureAbortsTheCommand
  intro s rest h hf hr
  obtain ⟨m, op, hm, hop, _⟩ := h.step_busy hf
  exact ⟨(op.request m).event .fail, rfl, (step_fail hf hm hop hr).trans (congrArg _ (abort_eq _ _))⟩

/-! ### Which steps write `RESULT` and `COUNT` -/

/-- A command's acceptance completes it, or leaves `RESULT` and `COUNT` (R70, R134). -/
theorem exec_results {s t : State} {i : Instr} (hf : s.fsm = .idle) (h : exec i s = .next t) :
    t.fsm = .idle ∨ t.result = s.result ∧ t.count = s.count := by
  cases i with
  | enq inst len stn payload =>
    rcases exec_enq_rejects_or_pushes h with ⟨_, rfl⟩ | ⟨_, _, rfl⟩ <;> exact .inl hf
  | flush inst burst =>
    rcases execFlush_next h with ⟨_, rfl⟩ | ⟨_, _, _, ⟨_, rfl⟩ | ⟨_, _, _, rfl⟩⟩
    · exact .inl hf
    · exact .inl rfl
    · exact .inr ⟨rfl, rfl⟩
  | recv inst maxMsg maxLen =>
    rcases execRecv_next h with ⟨_, rfl⟩ | ⟨_, rfl⟩
    · exact .inl hf
    · exact .inr ⟨rfl, rfl⟩

/-- What follows an answer `Ok` completes the command, or leaves `RESULT` and `COUNT` (R134). -/
theorem onOk_results {s s1 t : State} {d : Word} (h : s.onOk d s1 = .next t) :
    t.fsm = .idle ∨ t.result = s1.result ∧ t.count = s1.count := by
  cases hs : s.fsm with
  | txMode =>
    rcases onOk_txMode_next hs h with rfl | ⟨_, _, hadv⟩
    · exact .inl (State.abort_fsm _ _)
    · rcases txAdvance_next hadv with ⟨_, rfl⟩ | ⟨_, _, _, rfl⟩
      · exact .inl rfl
      · exact .inr ⟨rfl, rfl⟩
  | txData =>
    simp only [State.onOk, hs] at h
    split at h <;> cases h
    exact .inr ⟨rfl, rfl⟩
  | rxMode =>
    simp only [State.onOk, hs] at h
    split at h <;> cases h
    · exact .inl rfl
    · exact .inr ⟨rfl, rfl⟩
  | rxStn =>
    simp only [State.onOk, hs] at h
    split at h
    · cases h; exact .inl (State.abort_fsm _ _)
    · split at h <;> cases h
      · exact .inl (State.abort_fsm _ _)
      · exact .inr ⟨rfl, rfl⟩
  | rxData =>
    simp only [State.onOk, hs] at h
    split at h
    · cases h
    · split at h
      · rcases rxRecord_next h with ⟨_, ⟨_, rfl⟩ | ⟨_, rfl⟩⟩
        · exact .inl rfl
        · exact .inr ⟨rfl, rfl⟩
      · cases h; exact .inr ⟨rfl, rfl⟩
  | idle | txSize | txStn | rxSize =>
    simp only [State.onOk, hs] at h
    cases h
    exact .inr ⟨rfl, rfl⟩

/-- A step of a running command completes it, or leaves `RESULT` and `COUNT` (R134). -/
theorem step_busy_results {s t : State} (hf : s.fsm ≠ .idle) (hs : step s = .next t) :
    t.fsm = .idle ∨ t.result = s.result ∧ t.count = s.count := by
  obtain ⟨m, op, _, _, ⟨_, rfl⟩ | ⟨_, _, rfl⟩ | ⟨d, rest, _, ho⟩⟩ := step_busy_next hf hs
  · exact .inr ⟨rfl, rfl⟩
  · exact .inl (State.abort_fsm _ _)
  · exact onOk_results (s1 := s.answered (op.request m) (.ok d) rest) ho

/-- A step in `IDLE` takes no command and changes nothing, or completes one, or leaves `RESULT` and `COUNT`
(R70, R134). -/
theorem step_idle_results {s t : State} (hf : s.fsm = .idle) (hs : step s = .next t) :
    (decode s.port ≠ .incomplete ∧ t.fsm = .idle) ∨ t.result = s.result ∧ t.count = s.count := by
  rcases step_idle_next hf hs with ⟨_, rfl⟩ | ⟨_, _, hd, rfl⟩ | ⟨_, rest, hd, he⟩
  · exact .inr ⟨rfl, rfl⟩
  · exact .inl ⟨by simp [hd], hf⟩
  · exact (exec_results (s := s.take rest) hf he).imp_left fun hidle => ⟨by simp [hd], hidle⟩

/-- Settles O46: the two premises shut out a completion of a running command and one at acceptance. -/
theorem resultsAreWrittenOnlyAtCompletion : Obligations.ResultsAreWrittenOnlyAtCompletion := by
  unfold Obligations.ResultsAreWrittenOnlyAtCompletion
  intro s t hs hno
  by_cases hf : s.fsm = .idle
  · refine (step_idle_results hf hs).resolve_left fun ⟨htaken, hidle⟩ => ?_
    exact hno.elim (fun hrun => hrun hidle) fun ⟨_, hwait⟩ => htaken hwait
  · refine (step_busy_results hf hs).resolve_left fun hidle => ?_
    exact hno.elim (fun hrun => hrun hidle) fun ⟨hwait, _⟩ => hf hwait

/-! ### Which steps set `CALLER_ERR` -/

/-- The command is one that `s` rejects: its instance is not served, or it is an ENQUEUE on a full queue
(R109, R128). -/
def State.Rejects (s : State) (i : Instr) : Prop :=
  s.cfg.ni ≤ i.inst.toNat
    ∨ ∃ inst len stn p q, i = .enq inst len stn p ∧ s.queues[inst.toNat]? = some q
        ∧ q.qlen.toNat = s.cfg.qcap

/-- The block is about to take an illegal command or one that it rejects (R129). -/
def State.CallerErrs (s : State) : Prop :=
  s.fsm = .idle ∧
    ((∃ why rest, decode s.port = .illegal why rest)
      ∨ ∃ i rest, decode s.port = .command i rest ∧ s.Rejects i)

theorem rejects_enq {s : State} {inst : BitVec 4} {len : Byte} {stn : Station} {payload : List Word} :
    s.Rejects (.enq inst len stn payload) ↔
      s.cfg.ni ≤ inst.toNat ∨ ∃ q, s.queues[inst.toNat]? = some q ∧ q.qlen.toNat = s.cfg.qcap := by
  simp [State.Rejects, Instr.inst]

theorem rejects_flush {s : State} {inst : BitVec 4} {burst : Byte} :
    s.Rejects (.flush inst burst) ↔ s.cfg.ni ≤ inst.toNat := by
  simp [State.Rejects, Instr.inst]

theorem rejects_recv {s : State} {inst : BitVec 4} {maxMsg maxLen : Byte} :
    s.Rejects (.recv inst maxMsg maxLen) ↔ s.cfg.ni ≤ inst.toNat := by
  simp [State.Rejects, Instr.inst]

/-- A command's acceptance rejects it and sets `CALLER_ERR`, or leaves `CALLER_ERR` (R129). -/
theorem exec_callerErr {s t : State} {i : Instr} (h : exec i s = .next t) :
    (s.Rejects i ∧ t.callerErr = true) ∨ (¬ s.Rejects i ∧ t.callerErr = s.callerErr) := by
  cases i with
  | enq inst len stn payload =>
    rw [rejects_enq]
    rcases execEnq_next h with ⟨hi, rfl⟩ | ⟨q, hq, _, hfull, rfl⟩ | ⟨q, hq, hi, hroom, rfl⟩
    · exact .inl ⟨.inl hi, rfl⟩
    · exact .inl ⟨.inr ⟨q, hq, hfull⟩, rfl⟩
    · exact .inr ⟨by simp [hi, hq, hroom], rfl⟩
  | flush inst burst =>
    rw [rejects_flush]
    rcases execFlush_next h with ⟨hi, rfl⟩ | ⟨_, _, hi, ⟨_, rfl⟩ | ⟨_, _, _, rfl⟩⟩
    · exact .inl ⟨hi, rfl⟩
    · exact .inr ⟨Nat.not_le.2 hi, rfl⟩
    · exact .inr ⟨Nat.not_le.2 hi, rfl⟩
  | recv inst maxMsg maxLen =>
    rw [rejects_recv]
    rcases execRecv_next h with ⟨hi, rfl⟩ | ⟨hi, rfl⟩
    · exact .inl ⟨hi, rfl⟩
    · exact .inr ⟨Nat.not_le.2 hi, rfl⟩

/-- No step of a running command touches `CALLER_ERR` (R129). -/
theorem step_busy_callerErr {s t : State} (hf : s.fsm ≠ .idle) (hs : step s = .next t) :
    t.callerErr = s.callerErr := by
  obtain ⟨_, _, _, _, ⟨_, rfl⟩ | ⟨_, _, rfl⟩ | ⟨_, _, _, ho⟩⟩ := step_busy_next hf hs
  · rfl
  · exact State.abort_callerErr _ _
  · obtain ⟨_, _, hcaller, _⟩ := onOk_frame ho
    exact hcaller

/-- A step sets `CALLER_ERR` at the caller's mistake and leaves it otherwise (R129). -/
theorem step_callerErr {s t : State} (hs : step s = .next t) :
    (s.CallerErrs ∧ t.callerErr = true) ∨ (¬ s.CallerErrs ∧ t.callerErr = s.callerErr) := by
  by_cases hf : s.fsm = .idle
  · rcases step_idle_next hf hs with ⟨hd, rfl⟩ | ⟨why, rest, hd, rfl⟩ | ⟨i, rest, hd, he⟩
    · exact .inr ⟨by simp [State.CallerErrs, hd], rfl⟩
    · exact .inl ⟨⟨hf, .inl ⟨why, rest, hd⟩⟩, rfl⟩
    · have hiff : s.CallerErrs ↔ (s.take rest).Rejects i := by
        simp [State.CallerErrs, State.Rejects, hf, hd]
      rw [hiff]
      exact exec_callerErr he
  · exact .inr ⟨fun ⟨hidle, _⟩ => hf hidle, step_busy_callerErr hf hs⟩

/-- Settles O47: each step sets the bit at the caller's mistake or leaves it, and reset takes the reset value. -/
theorem callerErrIsStickyAndSetByThreeCompletions :
    Obligations.CallerErrIsStickyAndSetByThreeCompletions := by
  unfold Obligations.CallerErrIsStickyAndSetByThreeCompletions
  intro s t hs
  have hreset : s.applyReset.callerErr = false := by
    obtain ⟨_, _, he⟩ := s.applyReset_eq
    rw [he]
    rfl
  rcases step_callerErr hs with ⟨herr, hset⟩ | ⟨hno, hsame⟩
  · exact ⟨fun _ => hset, fun _ => iff_of_true hset herr, hreset⟩
  · exact ⟨hsame.trans, fun hclear => iff_of_false (by simp [hsame, hclear]) hno, hreset⟩

end Sys2Proof.Machine

/-! SUPPORT. The reset family (70_reset_and_hazards.md): the reset event by what the bus waits for, and a late
answer by the record it goes to. -/

namespace Sys2Proof.Machine

open Sys2Proof

/-! ### The reset event and the late answer -/

/-- Reset while no request is outstanding (R143). -/
theorem State.applyReset_of_no_request {s : State} (h : s.outstanding = none) :
    s.applyReset = { State.resetWith s.cfg with
      port := s.port, responses := s.responses, history := s.history } := by
  simp [State.applyReset, h]

/-- Reset while a request waits for an answer: it is recorded without one (R38, R143). -/
theorem State.applyReset_of_unanswered {s : State} {q : BusReq} (hq : s.outstanding = some q)
    (hr : s.responses = []) :
    s.applyReset = { State.resetWith s.cfg with
      port := s.port, responses := s.responses, history := s.history ++ [q.unanswered] } := by
  simp [State.applyReset, hq, hr]

/-- Reset while a request has an answer that the block has not used: the record takes it (R38, R143). -/
theorem State.applyReset_of_answered {s : State} {q : BusReq} {r : Response} {rest : List Response}
    (hq : s.outstanding = some q) (hr : s.responses = r :: rest) :
    s.applyReset = { State.resetWith s.cfg with
      port := s.port, responses := rest, history := s.history ++ [q.event r] } := by
  simp [State.applyReset, hq, hr]

/-- A late answer to a record that holds a response leaves the history. -/
theorem modify_late_of_answered {l : List Event} {k : Nat} (r : Response)
    (h : ∀ e, l[k]? = some e → e.response ≠ none) : l.modify k (·.late r) = l := by
  refine List.ext_getElem? fun j => ?_
  by_cases hj : k = j
  · subst hj
    rw [List.getElem?_modify_eq]
    cases hk : l[k]? with
    | none => rfl
    | some e => exact congrArg some (Event.late_of_answered (h e hk) r)
  · exact List.getElem?_modify_ne _ _ hj

/-- Settles O40: reset by what the bus waits for, and a late answer by the record it goes to. -/
theorem resetEventDropsTheCommand : Obligations.ResetEventDropsTheCommand := by
  unfold Obligations.ResetEventDropsTheCommand
  intro s
  refine ⟨State.applyReset_of_no_request, fun _ => State.applyReset_of_unanswered,
    fun _ _ _ => State.applyReset_of_answered, fun k r => ⟨_, s.lateAnswer_eq k r, List.length_modify ..,
      fun j hj => ?_, fun e he hans => ?_, fun q hq => ?_⟩⟩
  · exact List.getElem?_modify_ne _ _ hj.symm
  · exact modify_late_of_answered r fun e' he' => Option.some.inj (he.symm.trans he') ▸ hans
  · rw [List.getElem?_modify_eq, hq]
    exact congrArg some (q.late_unanswered r)

end Sys2Proof.Machine
